-- ==== Sys2Proof/Word.lean ====
section
/-! DEFINITION. The words of the core: the 32-bit word of a command frame (R100), the byte of the FrameBuffer
and of a string (R13, R35), and the ceiling division of R11. -/

namespace Sys2Proof

/-- A word of a command frame, and a word of RDATA (R48, R100). -/
abbrev Word := BitVec 32

/-- A byte of the FrameBuffer or of a string (R13, R35). -/
abbrev Byte := BitVec 8

/-- `ceil_div` of R11. -/
def ceilDiv (a b : Nat) : Nat := (a + b - 1) / b

end Sys2Proof
end

