-- ==== Sys2Proof/Config.lean ====
section
/-! DEFINITION. The implementation parameters (R8): what one implementation of the core fixes for the life of
the machine. They are plain data, so that a configuration can be written out: a table is a list of entries, and
what a table does not list has one stated reading (see the lookups of `Machine/GlyphStore.lean`). Which
configurations are legal is `Machine/Validity.lean`; the configuration of `State.reset` is an opaque legal one. -/

namespace Sys2Proof

/-- The four font kinds (R2, R37, R150). -/
inductive FontKind where
  | f8x6 | f16x8 | f32x16 | f11x8
deriving DecidableEq, Repr

/-- The icon renderers (R37). -/
inductive IconKind where
  | none | i8x8 | i16x16
deriving DecidableEq, Repr

/-- The arrow strategies (R37): none, 16-wide, 6-wide, 5-wide. -/
inductive ArrowKind where
  | none | a16 | a6 | a5
deriving DecidableEq, Repr

/-- The clock layouts (R37): none, or one of the layouts 0 to 4. -/
inductive ClockKind where
  | none | l0 | l1 | l2 | l3 | l4
deriving DecidableEq, Repr

/-- The two edges of a text line that an arrow may stand on (R204). -/
inductive Side where
  | left | right
deriving DecidableEq, Repr

/-- Which bit of a FrameBuffer byte holds the top pixel of its page (R8, R73; assumption 15). -/
inductive PixelBitOrder where
  | msbTop | lsbTop
deriving DecidableEq, Repr

/-- A local glyph code: bit 15 is the double-width flag, bits 14 to 0 the glyph index (R152). -/
abbrev GlyphCode := BitVec 16

/-- A column value (R132, R151): bit `h - 1` is the top pixel of a column of height `h`, and no column is higher
than 32 (R41). -/
abbrev Column := BitVec 32

/-- The HardwareProfile (R33): per-physical-display constants. -/
structure HardwareProfile where
  widthPx : Nat
  heightPx : Nat
  xOffset : Nat
  yOffset : Nat
  /-- Read by the transmit side only (R76). -/
  rowLookup : List (Fin 8)
  /-- Read by the transmit side only (R76). -/
  flipBits : Bool
  /-- Read by the transmit side only (R76). -/
  greyscale : Bool
  /-- Read by the transmit side only (R76, R293). -/
  hasContrast : Bool
deriving DecidableEq, Repr

/-- The positions of the elements of a mode's clock layout (R243): logical columns and rows. -/
structure ClockGeom where
  timeX12 : Nat
  timeX24 : Nat
  timeY : Nat
  labelX : Nat
  labelY : Nat
  alarmX : Nat
  alarmY : Nat
  dateX : Nat
  dateY : Nat
deriving DecidableEq, Repr

/-- A mode's small-clock position and extent (R38, R260). -/
structure SmallClockPos where
  column : Nat
  rowPx : Nat
  extentPx : Nat
deriving DecidableEq, Repr

/-- A mode's signal-strength position (R38, R280). -/
structure SignalPos where
  column : Nat
  rowPx : Nat
deriving DecidableEq, Repr

/-- The DisplayModeProfile (R37) with the configuration each mode also carries (R38). -/
structure DisplayMode where
  charRows : Nat
  charCols : Nat
  fontKind : FontKind
  topRowOffsetPx : Nat
  iconKind : IconKind
  iconYPx : Nat
  arrowKind : ArrowKind
  clockKind : ClockKind
  zoomTarget : Option (BitVec 8)
  inverseBleed : Bool
  smallClock : Option SmallClockPos
  signalPos : Option SignalPos
  clockGeom : ClockGeom
deriving DecidableEq, Repr

/-- One run of the character map: the characters `first` to `last` have the codes `base`, `base + 1`, ... -/
structure CharRun where
  first : Nat
  last : Nat
  base : GlyphCode
deriving DecidableEq, Repr

/-- The CHARMAP parameter (R8, R152), total: a character in no run has the code `other` (assumption 14). -/
structure CharMap where
  runs : List CharRun
  other : GlyphCode
deriving DecidableEq, Repr

/-- The GlyphStore contents, the ROM parameter (R151): immutable tables of column values. A glyph, icon or arrow
that its table does not list is all background (assumption 5). -/
structure Rom where
  font : List ((FontKind × BitVec 15) × List Column)
  cjk : List ((FontKind × BitVec 15) × List Column)
  arrow : List ((ArrowKind × Side × FontKind) × List Column)
  icon8 : List (BitVec 8 × List Column)
  icon16 : List (BitVec 8 × List Column)
  iconBlank8 : List Column
  iconBlank16 : List Column
  /-- SIGNAL_N, SIGNAL_W, SIGNAL_H and the bar glyphs. -/
  signalN : Nat
  signalW : Nat
  signalH : Nat
  signal : List (List Column)
  /-- BIG32: the ten digits and the colon, 32 rows high. -/
  big32W : Nat
  big32ColonW : Nat
  big32 : List (List Column)
  big32Colon : List Column
  /-- DIG22: the ten digits and the colon, 22 rows high. -/
  dig22W : Nat
  dig22ColonW : Nat
  dig22 : List (List Column)
  dig22Colon : List Column
  /-- CLKICON: the AM, PM and ALARM icons. -/
  clkIconW : Nat
  clkIconH : Nat
  clkAm : List Column
  clkPm : List Column
  clkAlarm : List Column
deriving DecidableEq, Repr

/-- The parameters of R8, each fixed for the life of the machine. `BARCODE_MAX_DIGITS` and `STR_MAX` have the
values the spec gives and are constants of the model. -/
structure Config where
  profiles : List (BitVec 8 × HardwareProfile)
  modes : List (BitVec 8 × DisplayMode)
  charMap : CharMap
  rom : Rom
  /-- ICONMAP: entry `b` is the icon of bit position `b`, 0 to 31. -/
  iconMap : List (Option (BitVec 8))
  maxIcons : Nat
  maxIconsCeiling : Nat
  ampmCap : Nat
  barcodeNarrowPx : Nat
  barcodeWidePx : Nat
  suppressDate : Bool
  clockAlarmIconBit : Fin 32
  /-- SIGNAL_SELECT: entry `l + 1` is the glyph index of level `l`, -1 to 100. -/
  signalSelect : List Nat
  pixelBitOrder : PixelBitOrder
deriving DecidableEq, Repr

/-- `STR_MAX` (R8, R103): the largest string payload in bytes. -/
def strMax : Nat := 255

/-- `BARCODE_MAX_DIGITS` (R8): the largest number of displayable barcode characters. -/
def barcodeMaxDigits : Nat := 6

end Sys2Proof
end

