-- ==== Sys2Proof/Machine/GlyphStore.lean ====
section
/-! DEFINITION. The GlyphStore and text decoding (R150 to R158): font sizes, the table lookups, the character map,
and the decoding of UTF-8 strings into local glyph codes. Every lookup is total and has no effect (R158). -/

namespace Sys2Proof.Machine

/-! ## Sizes -/

/-- `FONT_H` (R150). -/
def fontH : FontKind → Nat
  | .f8x6 => 8
  | .f16x8 => 16
  | .f32x16 => 32
  | .f11x8 => 11

/-- `FONT_W` (R150). -/
def fontW : FontKind → Nat
  | .f8x6 => 6
  | .f16x8 => 8
  | .f32x16 => 16
  | .f11x8 => 8

/-- `ARROW_W` (R151). -/
def arrowW : ArrowKind → Nat
  | .none => 0
  | .a16 => 16
  | .a6 => 6
  | .a5 => 5

/-! ## Local glyph codes (R152) -/

/-- The double-width flag of a local glyph code. -/
def dbl (g : GlyphCode) : Bool := g.getLsbD 15

/-- The glyph index of a local glyph code. -/
def glyphIdx (g : GlyphCode) : BitVec 15 := g.extractLsb' 0 15

/-- The number of cells a glyph takes. -/
def cells (g : GlyphCode) : Nat := if dbl g then 2 else 1

/-- `CHARMAP` (R152): total over the characters. -/
def charCode (m : CharMap) (cp : Nat) : GlyphCode :=
  match m.runs.find? fun r => decide (r.first ≤ cp) && decide (cp ≤ r.last) with
  | some r => r.base + BitVec.ofNat 16 (cp - r.first)
  | none => m.other

/-! ## Tables -/

/-- The entries of a table that a lookup answers: of the entries of one key the first (assumption 14). These are the
table of the spec; an entry behind one of the same key is no entry of it. -/
def tableEntries {α β : Type} [BEq α] [DecidableEq β] (l : List (α × β)) : List (α × β) :=
  l.filter fun e => decide (l.lookup e.1 = some e.2)

/-! ## ROM tables (R151) -/

/-- `n` background columns: what an unlisted glyph, icon or arrow reads as (assumption 5). -/
def blankGlyph (n : Nat) : List Column := List.replicate n 0

/-- `ROM.FONT`. -/
def romFont (r : Rom) (k : FontKind) (i : BitVec 15) : List Column :=
  (r.font.lookup (k, i)).getD (blankGlyph (fontW k))

/-- `ROM.CJK`. -/
def romCjk (r : Rom) (k : FontKind) (i : BitVec 15) : List Column :=
  (r.cjk.lookup (k, i)).getD (blankGlyph (2 * fontW k))

/-- `ROM.ARROW`. -/
def romArrow (r : Rom) (a : ArrowKind) (side : Side) (k : FontKind) : List Column :=
  (r.arrow.lookup (a, side, k)).getD (blankGlyph (arrowW a))

/-- `ROM.ICON8`. -/
def romIcon8 (r : Rom) (id : BitVec 8) : List Column := (r.icon8.lookup id).getD (blankGlyph 8)

/-- `ROM.ICON16`. -/
def romIcon16 (r : Rom) (id : BitVec 8) : List Column := (r.icon16.lookup id).getD (blankGlyph 16)

/-- `ROM.SIGNAL`. -/
def romSignal (r : Rom) (i : Nat) : List Column := r.signal.getD i (blankGlyph r.signalW)

/-- `ROM.BIG32` of a digit. -/
def romBig32 (r : Rom) (d : Nat) : List Column := r.big32.getD d (blankGlyph r.big32W)

/-- `ROM.DIG22` of a digit. -/
def romDig22 (r : Rom) (d : Nat) : List Column := r.dig22.getD d (blankGlyph r.dig22W)

/-- The columns of a glyph in a font (R156). -/
def glyphColumns (r : Rom) (g : GlyphCode) (k : FontKind) : List Column :=
  if dbl g then romCjk r k (glyphIdx g) else romFont r k (glyphIdx g)

/-- `ICONMAP` (R8, R277): a bit position the table does not reach has no icon. -/
def iconOf (c : Config) (bit : Nat) : Option (BitVec 8) := (c.iconMap[bit]?).join

/-- `SIGNAL_SELECT` (R281), of the levels -1 to 100. -/
def signalSelect (c : Config) (level : Int) : Nat := c.signalSelect.getD (level + 1).toNat 0

/-- `PROFILES` (R8): the first entry of an id counts. -/
def profile? (c : Config) (id : BitVec 8) : Option HardwareProfile := c.profiles.lookup id

/-- `MODES` (R8): the first entry of an id counts. -/
def mode? (c : Config) (id : BitVec 8) : Option DisplayMode := c.modes.lookup id

/-! ## UTF-8 (R153) -/

/-- The ranges of the bytes that follow a first byte, and the payload bits of the first byte; none when no
well-formed sequence begins with it (the table of R153). -/
def utf8Lead (b : Nat) : Option (Nat × List (Nat × Nat)) :=
  if b ≤ 0x7F then some (b, [])
  else if b < 0xC2 then none
  else if b ≤ 0xDF then some (b - 0xC0, [(0x80, 0xBF)])
  else if b = 0xE0 then some (0, [(0xA0, 0xBF), (0x80, 0xBF)])
  else if b ≤ 0xEC then some (b - 0xE0, [(0x80, 0xBF), (0x80, 0xBF)])
  else if b = 0xED then some (0xD, [(0x80, 0x9F), (0x80, 0xBF)])
  else if b ≤ 0xEF then some (b - 0xE0, [(0x80, 0xBF), (0x80, 0xBF)])
  else if b = 0xF0 then some (0, [(0x90, 0xBF), (0x80, 0xBF), (0x80, 0xBF)])
  else if b ≤ 0xF3 then some (b - 0xF0, [(0x80, 0xBF), (0x80, 0xBF), (0x80, 0xBF)])
  else if b = 0xF4 then some (4, [(0x80, 0x8F), (0x80, 0xBF), (0x80, 0xBF)])
  else none

/-- The scalar value of a sequence, 6 payload bits per following byte; none when a byte is absent or out of its
range. -/
def utf8Follow (acc : Nat) : List (Nat × Nat) → List Byte → Option Nat
  | [], _ => some acc
  | _ :: _, [] => none
  | (lo, hi) :: ranges, b :: bytes =>
    if lo ≤ b.toNat ∧ b.toNat ≤ hi then utf8Follow (acc * 64 + (b.toNat - 0x80)) ranges bytes else none

/-- `utf8_next` (R153) on the rest of a string: a scalar value and its length in bytes, or none for `stop`: at the
end of the string, at a byte 0x00, and at a malformed sequence. -/
def utf8Next : List Byte → Option (Nat × Nat)
  | [] => none
  | b :: bytes =>
    if b = 0 then none
    else
      match utf8Lead b.toNat with
      | none => none
      | some (acc, ranges) => (utf8Follow acc ranges bytes).map fun cp => (cp, 1 + ranges.length)

/-- The loop of `decode` (R154): each round reads at least one byte, so `fuel` rounds are enough for `fuel`
bytes. `w` is the width so far. -/
def decodeLoop (m : CharMap) (limit : Nat) (k : Option FontKind) :
    Nat → List Byte → Nat → List (GlyphCode × Nat)
  | 0, _, _ => []
  | fuel + 1, bytes, w =>
    if limit ≤ w then []
    else
      match utf8Next bytes with
      | none => []
      | some (cp, n) =>
        let g := charCode m cp
        if dbl g = true ∧ k = some .f8x6 then decodeLoop m limit k fuel (bytes.drop n) w
        else if limit < w + cells g then []
        else (g, w) :: decodeLoop m limit k fuel (bytes.drop n) (w + cells g)

/-- `decode` (R154, R155): the glyph codes of a string with the display column where each starts. It never fails:
malformed UTF-8 ends the string (R302). -/
def decodeText (m : CharMap) (bytes : List Byte) (limit : Nat) (k : Option FontKind) : List (GlyphCode × Nat) :=
  decodeLoop m limit k bytes.length bytes 0

/-- The glyph codes of `decode`, without their display columns. -/
def decodeCodes (m : CharMap) (bytes : List Byte) (limit : Nat) (k : Option FontKind) : List GlyphCode :=
  (decodeText m bytes limit k).map Prod.fst

/-- The width in cells of a decoded string (R154). -/
def textWidth : List (GlyphCode × Nat) → Nat
  | [] => 0
  | (g, _) :: rest => cells g + textWidth rest

end Sys2Proof.Machine
end

