-- ==== Sys2Proof/Machine/Validity.lean ====
section
/-! DEFINITION. Which configurations are legal (R8 to R10, R151), and the configuration of the machine: an opaque
legal one, so that whatever is proved of it holds for every implementation. A configuration that breaks these
rules is never executed: no run begins with one (R9, R369; assumption 2). -/

namespace Sys2Proof.Machine

/-- R9: the limits of a HardwareProfile. -/
def profileLegal (p : HardwareProfile) : Bool :=
  decide (1 ≤ p.widthPx) && decide (p.widthPx ≤ 1024) && decide (p.xOffset < p.widthPx)
    && decide (1 ≤ p.heightPx) && decide (p.heightPx + p.yOffset ≤ 64)
    && decide (p.rowLookup.length = 8) && decide p.rowLookup.Nodup

/-- A logical position within its field widths (R38, R243): a 10-bit column and an 8-bit row. -/
def positionLegal (column row : Nat) : Bool := decide (column < 1024) && decide (row < 256)

/-- R243: the field widths of a clock geometry. -/
def clockGeomLegal (g : ClockGeom) : Bool :=
  positionLegal g.timeX12 g.timeY && positionLegal g.timeX24 g.timeY && positionLegal g.labelX g.labelY
    && positionLegal g.alarmX g.alarmY && positionLegal g.dateX g.dateY

/-- R10, R38: the limits of the mode with id `id`, but for its fit on a panel (`modeFits`). -/
def modeLegal (c : Config) (id : BitVec 8) (m : DisplayMode) : Bool :=
  decide (m.charRows ≤ 16) && decide (m.charCols ≤ 255) && decide (m.topRowOffsetPx ≤ 255) && decide (m.iconYPx ≤ 255)
    && (match m.zoomTarget with
        | none => true
        | some t => (mode? c t).isSome && decide (t ≠ id))
    && (match m.smallClock with
        | none => true
        | some p => positionLegal p.column p.rowPx && decide (p.extentPx < 1024))
    && (match m.signalPos with
        | none => true
        | some p => positionLegal p.column p.rowPx)
    && clockGeomLegal m.clockGeom

/-- R10, the source's invariant, of a mode on a panel: the character geometry never exceeds the pixel geometry
divided by the font's size. -/
def modeFits (p : HardwareProfile) (m : DisplayMode) : Bool :=
  decide (m.charRows ≤ p.heightPx / fontH m.fontKind) && decide (m.charCols ≤ p.widthPx / fontW m.fontKind)

/-- The shape of a table entry (R151): `w` columns, each a natural number below `2 ^ h`. -/
def shapeOk (w h : Nat) (cols : List Column) : Bool :=
  decide (cols.length = w) && cols.all fun v => decide (v.toNat < 2 ^ h)

/-- R151: the shapes of every table of the GlyphStore, of the entries that a lookup answers. -/
def romLegal (r : Rom) : Bool :=
  ((tableEntries r.font).all fun e => shapeOk (fontW e.1.1) (fontH e.1.1) e.2)
    && ((tableEntries r.cjk).all fun e => shapeOk (2 * fontW e.1.1) (fontH e.1.1) e.2)
    && ((tableEntries r.arrow).all fun e => shapeOk (arrowW e.1.1) (fontH e.1.2.2) e.2)
    && ((tableEntries r.icon8).all fun e => shapeOk 8 8 e.2) && ((tableEntries r.icon16).all fun e => shapeOk 16 16 e.2)
    && shapeOk 8 8 r.iconBlank8 && shapeOk 16 16 r.iconBlank16
    && decide (1 ≤ r.signalN) && decide (r.signal.length = r.signalN)
    && decide (1 ≤ r.signalH) && decide (r.signalH ≤ 32) && r.signal.all (shapeOk r.signalW r.signalH)
    && decide (r.big32.length = 10) && r.big32.all (shapeOk r.big32W 32) && shapeOk r.big32ColonW 32 r.big32Colon
    && decide (r.dig22.length = 10) && r.dig22.all (shapeOk r.dig22W 22) && shapeOk r.dig22ColonW 22 r.dig22Colon
    && decide (1 ≤ r.clkIconH) && decide (r.clkIconH ≤ 32) && shapeOk r.clkIconW r.clkIconH r.clkAm
    && shapeOk r.clkIconW r.clkIconH r.clkPm && shapeOk r.clkIconW r.clkIconH r.clkAlarm

/-- R8 to R10: a legal configuration, of the entries that a lookup in PROFILES or MODES answers. A mode that fits no
panel of PROFILES is illegal; which of its panels an implementation selects is not known before INIT, so SELECT_MODE
checks no more (assumption 2). -/
def configLegal (c : Config) : Bool :=
  ((tableEntries c.profiles).all fun e => profileLegal e.2)
    && ((tableEntries c.modes).all fun e => modeLegal c e.1 e.2)
    && ((tableEntries c.modes).all fun e => (tableEntries c.profiles).any fun p => modeFits p.2 e.2) && romLegal c.rom
    && decide (c.iconMap.length = 32) && decide (1 ≤ c.maxIcons) && decide (c.maxIcons ≤ c.maxIconsCeiling)
    && decide (1 ≤ c.ampmCap) && decide (1 ≤ c.barcodeNarrowPx) && decide (c.barcodeNarrowPx < c.barcodeWidePx)
    && decide (c.signalSelect.length = 102) && (c.signalSelect.all fun i => decide (i < c.rom.signalN))
    && decide (c.pixelBitOrder = .msbTop)

/-- A configuration with the proof that it is legal. -/
structure LegalConfig where
  config : Config
  legal : configLegal config = true

/-- A smallest legal configuration: it shows that there is one, and nothing else rests on it. -/
def witnessConfig : Config where
  profiles := []
  modes := []
  charMap := ⟨[], 0⟩
  rom :=
    { font := [], cjk := [], arrow := [], icon8 := [], icon16 := []
      iconBlank8 := blankGlyph 8, iconBlank16 := blankGlyph 16
      signalN := 1, signalW := 0, signalH := 1, signal := [[]]
      big32W := 0, big32ColonW := 0, big32 := List.replicate 10 [], big32Colon := []
      dig22W := 0, dig22ColonW := 0, dig22 := List.replicate 10 [], dig22Colon := []
      clkIconW := 0, clkIconH := 1, clkAm := [], clkPm := [], clkAlarm := [] }
  iconMap := List.replicate 32 none
  maxIcons := 1
  maxIconsCeiling := 1
  ampmCap := 1
  barcodeNarrowPx := 1
  barcodeWidePx := 2
  suppressDate := false
  clockAlarmIconBit := 0
  signalSelect := List.replicate 102 0
  pixelBitOrder := .msbTop

theorem witnessConfig_legal : configLegal witnessConfig = true := by decide +kernel

/-- The implementation's legal configuration: no body, so no proof can use more of it than that it is legal. -/
opaque implementation [Inhabited LegalConfig] : LegalConfig

/-- The configuration of the machine (R8): every OPEN parameter of the spec stands in it. -/
def params : Config := (@implementation ⟨⟨witnessConfig, witnessConfig_legal⟩⟩).config

end Sys2Proof.Machine
end

