-- ==== Sys2Proof/Machine/State.lean ====
section
/-! DEFINITION. The state of the core (R30), as plain data, the reasons a step can stop, and the state after
reset (R351). -/

namespace Sys2Proof.Machine

/-- The FrameBuffer's bytes (R35), in one canonical form (`Memory.wf`): addresses strictly rising, no entry 0x00.
An index that no entry lists reads 0x00, the value every clear writes (R86; assumption 6). -/
abbrev Memory := List Host.Cell

/-- The Cursor (R40). -/
structure Cursor where
  valid : Bool
  column : Nat
  rowPx : Nat
  heightPx : Nat
  s : Nat
  shift : Int
  byteOffset : Nat
  bitMask : BitVec 32
  roundedHeight : Nat
deriving DecidableEq, Repr

/-- What the host does at the core's interface (R368) that asks the core for a step. -/
inductive HostEvent where
  /-- A frame is submitted (R100): the next command. -/
  | submit (frame : List Word)
  /-- The host reads FrameBuffer byte `i` through the read port (R79). -/
  | readFb (i : Nat)
  /-- The reset event (R350). -/
  | reset
deriving DecidableEq, Repr

/-- The state vector (R30), the configuration it runs under (R8) and the host's pending events (R31, R368). -/
structure State where
  /-- The implementation parameters: no step changes them (R8; assumption 1). -/
  cfg : Config
  /-- INIT (R32). -/
  init : Bool
  /-- HW (R33), meaningful only when INIT. -/
  hw : HardwareProfile
  /-- FB (R35); its length is `fbLen`, fixed by INIT and HW (R34). -/
  fb : Memory
  /-- MODE_VALID (R36). -/
  modeValid : Bool
  /-- MODE_ID (R36). -/
  modeId : BitVec 8
  /-- ZOOMED (R39). -/
  zoomed : Bool
  /-- BASE_MODE_ID (R39). -/
  baseModeId : BitVec 8
  /-- CUR (R40). -/
  cur : Cursor
  /-- AM_LABEL (R43). -/
  amLabel : List GlyphCode
  /-- PM_LABEL (R43). -/
  pmLabel : List GlyphCode
  /-- CONTRAST (R44). -/
  contrast : BitVec 7
  /-- SMALL12 (R45). -/
  small12 : Bool
  /-- STATUS (R46). -/
  status : BitVec 8
  /-- RESULT (R47). -/
  result : BitVec 32
  /-- RDATA (R48). -/
  rdata : List Word
  /-- The host's events that the core has not taken yet, the next one first: the frame sequence of R31, the model's own
  field (assumption 7). -/
  inbox : List HostEvent
deriving DecidableEq, Repr

/-- The errors a command can raise (R301). `InvalidUtf8` and `UnsupportedGlyphForFont` are never raised (R302). -/
inductive ErrorKind where
  | barcodeTooLong | barcodeInvalidDigit | unsupportedClockLayout | bufferOverrun | unknownDisplayMode | layoutError
  | illegalCommand | notInitialized | argumentOutOfRange | noPosition | unknownProfile | alreadyInitialized
deriving DecidableEq, Repr

/-- Why the machine stops with a fault. An error of R301 is a STATUS value and never a fault (R369). -/
inductive Fault where
  /-- Raised by a command that needs the active mode, or by SET_ZOOM for the mode it switches to, when MODE_VALID
  holds and MODES has no entry for the id: the spec's invariant 2 (R51) excludes such a state. Safe: no reachable
  state raises it (assumption 11). -/
  | activeModeMissing
deriving DecidableEq, Repr

/-- Why a step has no meaning. -/
inductive Refusal where
  /-- An instruction whose meaning is not written. No instruction of this model is refused so. Safe. -/
  | notModelled (mnemonic : String)
  /-- Raised by a host read of a FrameBuffer byte at or past `len(FB)`, which has no result (R79, R369; assumption 9).
  Safe. -/
  | fbReadOutOfRange
deriving DecidableEq, Repr

/-- The Cursor after reset (R351): not valid; the fields the spec leaves unspecified are zero (assumption 3). -/
def Cursor.reset : Cursor := ⟨false, 0, 0, 0, 0, 0, 0, 0, 0⟩

/-- HW after reset: unspecified and never read while INIT is false (R351); every field zero (assumption 3). -/
def hwReset : HardwareProfile := ⟨0, 0, 0, 0, [], false, false, false⟩

/-- The ASCII bytes of "AM" and of "PM" (R43). -/
def asciiAm : List Byte := [0x41, 0x4D]
def asciiPm : List Byte := [0x50, 0x4D]

/-- The state after reset (R351) under a configuration: the same configuration before and after (R352). -/
def resetState (c : Config) : State where
  cfg := c
  init := false
  hw := hwReset
  fb := []
  modeValid := false
  modeId := 0
  zoomed := false
  baseModeId := 0
  cur := Cursor.reset
  amLabel := decodeCodes c.charMap asciiAm c.ampmCap none
  pmLabel := decodeCodes c.charMap asciiPm c.ampmCap none
  contrast := 50
  small12 := false
  status := 0
  result := 0
  rdata := []
  inbox := []

/-- The machine right after reset (R351). -/
def State.reset : State := resetState params

end Sys2Proof.Machine
end

