-- ==== Sys2Proof/Machine/Flags.lean ====
section
/-! DEFINITION. The result registers' values: the STATUS codes (R301) and the RESULT of SET_ZOOM (R290). The core
has no condition codes (R50). -/

namespace Sys2Proof.Machine

/-- `code(E)` (R301). -/
def errorCode : ErrorKind → BitVec 8
  | .barcodeTooLong => 0x03
  | .barcodeInvalidDigit => 0x04
  | .unsupportedClockLayout => 0x05
  | .bufferOverrun => 0x06
  | .unknownDisplayMode => 0x07
  | .layoutError => 0x08
  | .illegalCommand => 0x10
  | .notInitialized => 0x11
  | .argumentOutOfRange => 0x12
  | .noPosition => 0x13
  | .unknownProfile => 0x14
  | .alreadyInitialized => 0x15

/-- STATUS of a successful command (R301). -/
def statusOk : BitVec 8 := 0x00

/-- RESULT of SET_ZOOM (R289, R290): `(char_rows << 8) | char_cols` of a mode. -/
def geometryResult (m : DisplayMode) : BitVec 32 :=
  (BitVec.ofNat 32 m.charRows <<< 8) ||| BitVec.ofNat 32 m.charCols

end Sys2Proof.Machine
end

