-- ==== Sys2Proof/Syntax.lean ====
section
/-! DEFINITION. The commands of the core, one constructor per row of the opcode map (R112), with the operands
of R106 to R109 at their encoded widths. -/

namespace Sys2Proof

/-- The kind of one DRAW_SCREEN line (R109); code 3 is no kind. -/
inductive LineKind where
  | text | invertedText | barcode
deriving DecidableEq, Repr

/-- One line of DRAW_SCREEN: the descriptor word's fields and the line's string (R109, R212). -/
structure ScreenLine where
  kind : LineKind
  arrowLeft : Bool
  arrowRight : Bool
  text : List Byte
deriving DecidableEq, Repr

/-- The command set (R112). -/
inductive Instr where
  /-- INIT (R286). -/
  | init (profileId : BitVec 8)
  /-- SELECT_MODE (R288). -/
  | selectMode (modeId : BitVec 8)
  /-- SET_ZOOM (R289). -/
  | setZoom (on : Bool)
  /-- SET_CONTRAST (R293). -/
  | setContrast (level : BitVec 8)
  /-- SET_AMPM_LABELS (R262). -/
  | setAmpmLabels (am pm : List Byte)
  /-- SET_POSITION (R131). -/
  | setPosition (heightPx : BitVec 6) (column : BitVec 10) (rowPx : BitVec 8)
  /-- BLIT_COLUMN (R134). -/
  | blitColumn (value : Word)
  /-- DRAW_BLANK_COLUMNS (R136). -/
  | drawBlankColumns (count : BitVec 16) (inverted : Bool)
  /-- DRAW_LINE (R200). -/
  | drawLine (rowIndex : BitVec 4) (text : List Byte) (cursorColumn cursorWidth : BitVec 8)
      (invert arrowLeft arrowRight : Bool)
  /-- DRAW_SCREEN (R212). -/
  | drawScreen (cursorX : BitVec 8) (cursorY : BitVec 4) (cursorOn : Bool) (cursorWidth : BitVec 8)
      (lines : List ScreenLine)
  /-- DRAW_BARCODE (R272). -/
  | drawBarcode (rowIndex : BitVec 4) (hexString : List Byte)
  /-- DRAW_CLOCK (R250). -/
  | drawClock (hours minutes seconds : BitVec 8) (is12h alarmOn : Bool) (alarmHours alarmMinutes : BitVec 8)
      (date : List Byte)
  /-- DRAW_SMALL_CLOCK (R260). -/
  | drawSmallClock (hours minutes : BitVec 8) (is12h : Bool)
  /-- DRAW_ICONS (R276). -/
  | drawIcons (bitmask : Word)
  /-- DRAW_SIGNAL_STRENGTH (R280): the byte whose two's complement reading is the level (R111). -/
  | drawSignalStrength (level : BitVec 8)
  /-- GRAB_SCREEN_REGION (R295). -/
  | grabScreenRegion (left top width height : Word)
  /-- DRAW_BITMAP (R296). -/
  | drawBitmap (left top width height : Word) (bytes : List Byte)
deriving DecidableEq, Repr

end Sys2Proof
end

