-- ==== Sys2Proof/WellFormed.lean ====
section
/-! DEFINITION. The commands that have an encoding: every operand of fixed width is legal by its type, so what
remains is the length of each string (R103), of the line list (R109) and of the bitmap's bytes (R109). -/

namespace Sys2Proof

/-- A string that fits a STR element (R103). -/
def strFits (bytes : List Byte) : Bool := decide (bytes.length ≤ strMax)

/-- The number of bytes of a bitmap record's column bytes (R109, R294). -/
def bitmapBytes (width height : Word) : Nat := width.toNat * ceilDiv height.toNat 8

/-- A command whose operands fit their encoding. -/
def Instr.WellFormed : Instr → Bool
  | .init _ => true
  | .selectMode _ => true
  | .setZoom _ => true
  | .setContrast _ => true
  | .setAmpmLabels am pm => strFits am && strFits pm
  | .setPosition _ _ _ => true
  | .blitColumn _ => true
  | .drawBlankColumns _ _ => true
  | .drawLine _ text _ _ _ _ _ => strFits text
  | .drawScreen _ _ _ _ lines => decide (lines.length ≤ 255) && lines.all fun l => strFits l.text
  | .drawBarcode _ hexString => strFits hexString
  | .drawClock _ _ _ _ _ _ _ date => strFits date
  | .drawSmallClock _ _ _ => true
  | .drawIcons _ => true
  | .drawSignalStrength _ => true
  | .grabScreenRegion _ _ _ _ => true
  | .drawBitmap _ _ width height bytes => decide (bytes.length = bitmapBytes width height)

end Sys2Proof
end

