-- ==== Sys2Proof/Decode.lean ====
section
/-! DEFINITION. The command encoding (R100 to R114): the decoder, total on every list of words and refusing by
name (R110), and after it the encoder. A frame is a list of 32-bit words; its length is part of the delivery. -/

namespace Sys2Proof

/-! ## Opcodes -/

/-- The rows of the opcode map (R112). -/
inductive Opcode where
  | init | selectMode | setZoom | setContrast | setAmpmLabels
  | setPosition | blitColumn | drawBlankColumns
  | drawLine | drawScreen | drawBarcode | drawClock | drawSmallClock | drawIcons | drawSignalStrength
  | grabScreenRegion | drawBitmap
deriving DecidableEq, Repr

/-- The payload formats (R102). -/
inductive Format where
  | h | w1 | s1 | s2 | scr | clk | rgn | bmp
deriving DecidableEq, Repr

/-- One row of the opcode map: a header selects it when `header & mask = value` (R112). -/
structure OpcodeRow where
  opcode : Opcode
  code : BitVec 8
  format : Format
  value : Word
  mask : Word
deriving DecidableEq, Repr

/-- The complete opcode map (R112). -/
def opcodeTable : List OpcodeRow := [
  ⟨.init,               0x01, .h,   0x01000000, 0xFFFFFF00⟩,
  ⟨.selectMode,         0x02, .h,   0x02000000, 0xFFFFFF00⟩,
  ⟨.setZoom,            0x03, .h,   0x03000000, 0xFFFFFFFE⟩,
  ⟨.setContrast,        0x04, .h,   0x04000000, 0xFFFFFF00⟩,
  ⟨.setAmpmLabels,      0x05, .s2,  0x05000000, 0xFFFFFFFF⟩,
  ⟨.setPosition,        0x10, .h,   0x10000000, 0xFF000000⟩,
  ⟨.blitColumn,         0x11, .w1,  0x11000000, 0xFFFFFFFF⟩,
  ⟨.drawBlankColumns,   0x12, .h,   0x12000000, 0xFFFE0000⟩,
  ⟨.drawLine,           0x20, .s1,  0x20000000, 0xFF010000⟩,
  ⟨.drawScreen,         0x21, .scr, 0x21000000, 0xFF000700⟩,
  ⟨.drawBarcode,        0x22, .s1,  0x22000000, 0xFF0FFFFF⟩,
  ⟨.drawClock,          0x23, .clk, 0x23000000, 0xFFFFFFFF⟩,
  ⟨.drawSmallClock,     0x24, .w1,  0x24000000, 0xFFFFFFFF⟩,
  ⟨.drawIcons,          0x25, .w1,  0x25000000, 0xFFFFFFFF⟩,
  ⟨.drawSignalStrength, 0x26, .h,   0x26000000, 0xFFFFFF00⟩,
  ⟨.grabScreenRegion,   0x30, .rgn, 0x30000000, 0xFFFFFFFF⟩,
  ⟨.drawBitmap,         0x31, .bmp, 0x31000000, 0xFFFFFFFF⟩]

/-- `header[31:24]` (R101). -/
def opcodeField (header : Word) : BitVec 8 := header.extractLsb' 24 8

/-- `OPCODES[op]` (R110): the row of an opcode, none for an unlisted one. -/
def opcodeRow? (code : BitVec 8) : Option OpcodeRow := opcodeTable.find? fun r => r.code == code

/-! ## Payload elements -/

/-- Why a frame is illegal (R110, R113). -/
inductive DecodeError where
  | emptyFrame | unlistedOpcode | reservedHeaderBit | missingWord | reservedPayloadBit | stringTooLong
  | nonzeroPadByte | reservedLineKind | trailingWords
deriving DecidableEq, Repr

/-- Byte `k`, 0 to 3, of a word (R104). -/
def byteOfWord (w : Word) (k : Nat) : Byte := w.extractLsb' (8 * k) 8

/-- Four bytes in one word, the first in bits 7 to 0 (R104). -/
def packWord (b0 b1 b2 b3 : Byte) : Word := b3 ++ b2 ++ b1 ++ b0

/-- Little-endian packing of a byte string into words (R104); the pad bytes are zero. -/
def packBytes : List Byte → List Word
  | [] => []
  | [a] => [packWord a 0 0 0]
  | [a, b] => [packWord a b 0 0]
  | [a, b, c] => [packWord a b c 0]
  | a :: b :: c :: d :: rest => packWord a b c d :: packBytes rest

/-- All the bytes of a run of words, in the order of R104. -/
def unpackWords : List Word → List Byte
  | [] => []
  | w :: ws => byteOfWord w 0 :: byteOfWord w 1 :: byteOfWord w 2 :: byteOfWord w 3 :: unpackWords ws

/-- What a parser of one payload element answers: the element and the words after it, or why it is illegal. -/
abbrev Parsed (α : Type) := Except DecodeError (α × List Word)

/-- Parse on after one element: the rest of the payload, or the element's error. -/
def parseThen {α β : Type} (p : Parsed α) (k : α → List Word → Parsed β) : Parsed β :=
  match p with
  | .error e => .error e
  | .ok (a, ws) => k a ws

/-- One fixed payload word (R110). -/
def parseWord : List Word → Parsed Word
  | [] => .error .missingWord
  | w :: ws => .ok (w, ws)

/-- A BYTES element of `n` bytes (R104, R105): its words present, its pad bytes zero. -/
def parseBytes (n : Nat) (ws : List Word) : Parsed (List Byte) :=
  if ws.length < ceilDiv n 4 then .error .missingWord
  else
    let bytes := unpackWords (ws.take (ceilDiv n 4))
    if (bytes.drop n).all (· == 0) then .ok (bytes.take n, ws.drop (ceilDiv n 4))
    else .error .nonzeroPadByte

/-- A STR element (R103): its length word, then its bytes. -/
def parseStr (ws : List Word) : Parsed (List Byte) :=
  match ws with
  | [] => .error .missingWord
  | len :: rest =>
    if len.extractLsb' 16 16 ≠ 0 then .error .reservedPayloadBit
    else if strMax < len.toNat then .error .stringTooLong
    else parseBytes len.toNat rest

/-- The kind field of an SCR descriptor (R109); 3 is reserved. -/
def lineKind? (code : BitVec 2) : Option LineKind :=
  if code = 0 then some .text
  else if code = 1 then some .invertedText
  else if code = 2 then some .barcode
  else none

/-- One line of format SCR (R109): a descriptor word and a STR. -/
def parseLine (ws : List Word) : Parsed ScreenLine :=
  match ws with
  | [] => .error .missingWord
  | d :: rest =>
    if d.extractLsb' 4 28 ≠ 0 then .error .reservedPayloadBit
    else
      match lineKind? (d.extractLsb' 0 2) with
      | none => .error .reservedLineKind
      | some kind =>
        parseThen (parseStr rest) fun text rest => .ok (⟨kind, d.getLsbD 2, d.getLsbD 3, text⟩, rest)

/-- The `n` lines of format SCR, in order (R109). -/
def parseLines : Nat → List Word → Parsed (List ScreenLine)
  | 0, ws => .ok ([], ws)
  | n + 1, ws =>
    parseThen (parseLine ws) fun line ws =>
    parseThen (parseLines n ws) fun lines ws => .ok (line :: lines, ws)

/-! ## The decoder -/

/-- The payload of one opcode (R106 to R109), after the header's reserved bits have been checked. -/
def parsePayload (op : Opcode) (h : Word) (ws : List Word) : Parsed Instr :=
  match op with
  | .init => .ok (.init (h.extractLsb' 0 8), ws)
  | .selectMode => .ok (.selectMode (h.extractLsb' 0 8), ws)
  | .setZoom => .ok (.setZoom (h.getLsbD 0), ws)
  | .setContrast => .ok (.setContrast (h.extractLsb' 0 8), ws)
  | .setAmpmLabels =>
    parseThen (parseStr ws) fun am ws =>
    parseThen (parseStr ws) fun pm ws =>
    .ok (.setAmpmLabels am pm, ws)
  | .setPosition => .ok (.setPosition (h.extractLsb' 18 6) (h.extractLsb' 8 10) (h.extractLsb' 0 8), ws)
  | .blitColumn =>
    parseThen (parseWord ws) fun value ws =>
    .ok (.blitColumn value, ws)
  | .drawBlankColumns => .ok (.drawBlankColumns (h.extractLsb' 0 16) (h.getLsbD 16), ws)
  | .drawLine =>
    parseThen (parseStr ws) fun text ws =>
    .ok (.drawLine (h.extractLsb' 20 4) text (h.extractLsb' 8 8) (h.extractLsb' 0 8)
      (h.getLsbD 17) (h.getLsbD 18) (h.getLsbD 19), ws)
  | .drawScreen =>
    parseThen (parseWord ws) fun count ws =>
    if count.extractLsb' 8 24 ≠ 0 then .error .reservedPayloadBit
    else
      parseThen (parseLines (count.extractLsb' 0 8).toNat ws) fun lines ws =>
      .ok (.drawScreen (h.extractLsb' 16 8) (h.extractLsb' 12 4) (h.getLsbD 11) (h.extractLsb' 0 8) lines, ws)
  | .drawBarcode =>
    parseThen (parseStr ws) fun hex ws =>
    .ok (.drawBarcode (h.extractLsb' 20 4) hex, ws)
  | .drawClock =>
    parseThen (parseWord ws) fun w1 ws =>
    if w1.extractLsb' 26 6 ≠ 0 then .error .reservedPayloadBit
    else
      parseThen (parseWord ws) fun w2 ws =>
      if w2.extractLsb' 16 16 ≠ 0 then .error .reservedPayloadBit
      else
        parseThen (parseStr ws) fun date ws =>
        .ok (.drawClock (w1.extractLsb' 0 8) (w1.extractLsb' 8 8) (w1.extractLsb' 16 8) (w1.getLsbD 24)
          (w1.getLsbD 25) (w2.extractLsb' 0 8) (w2.extractLsb' 8 8) date, ws)
  | .drawSmallClock =>
    parseThen (parseWord ws) fun w1 ws =>
    if w1.extractLsb' 17 15 ≠ 0 then .error .reservedPayloadBit
    else .ok (.drawSmallClock (w1.extractLsb' 0 8) (w1.extractLsb' 8 8) (w1.getLsbD 16), ws)
  | .drawIcons =>
    parseThen (parseWord ws) fun mask ws =>
    .ok (.drawIcons mask, ws)
  | .drawSignalStrength => .ok (.drawSignalStrength (h.extractLsb' 0 8), ws)
  | .grabScreenRegion =>
    parseThen (parseWord ws) fun left ws =>
    parseThen (parseWord ws) fun top ws =>
    parseThen (parseWord ws) fun width ws =>
    parseThen (parseWord ws) fun height ws =>
    .ok (.grabScreenRegion left top width height, ws)
  | .drawBitmap =>
    parseThen (parseWord ws) fun left ws =>
    parseThen (parseWord ws) fun top ws =>
    parseThen (parseWord ws) fun width ws =>
    parseThen (parseWord ws) fun height ws =>
    parseThen (parseBytes (bitmapBytes width height) ws) fun bytes ws =>
    .ok (.drawBitmap left top width height bytes, ws)

/-- The decoder (R110): every list of words is one command with its operands, or illegal for a named reason. -/
def decode (frame : List Word) : Except DecodeError Instr :=
  match frame with
  | [] => .error .emptyFrame
  | h :: payload =>
    match opcodeRow? (opcodeField h) with
    | none => .error .unlistedOpcode
    | some row =>
      if h &&& row.mask ≠ row.value then .error .reservedHeaderBit
      else
        match parsePayload row.opcode h payload with
        | .error e => .error e
        | .ok (i, []) => .ok i
        | .ok (_, _ :: _) => .error .trailingWords

/-! ## The words of the opcode table -/

/-- The least number of payload words of a format: its length when every payload word is zero (R114). -/
def Format.zeroPayload : Format → Nat
  | .h => 0
  | .w1 => 1
  | .s1 => 1
  | .s2 => 2
  | .scr => 1
  | .clk => 3
  | .rgn => 4
  | .bmp => 4

/-- The frame of an instruction whose bits are `w`, bit 0 the least significant bit of the first word: the words
that `nbits` covers, then the zero words that the format still needs (R114). A frame's length is part of its
delivery (R100), so it is settled here. -/
def tableFrame (nbits w : Nat) : List Word :=
  let bits := w % 2 ^ nbits
  let given := (List.range (max 1 (ceilDiv nbits 32))).map fun i => BitVec.ofNat 32 (bits / 2 ^ (32 * i))
  let need :=
    match opcodeRow? (opcodeField (BitVec.ofNat 32 bits)) with
    | none => 1
    | some row => 1 + row.format.zeroPayload
  given ++ List.replicate (need - given.length) 0

/-- What the decoder reads from an instruction's bits as `spec/opcode_table.json` numbers them. -/
def decodeTableWord (nbits w : Nat) : Option Instr :=
  match decode (tableFrame nbits w) with
  | .ok i => some i
  | .error _ => none

/-! ## The encoder -/

/-- A STR element (R103). -/
def encodeStr (bytes : List Byte) : List Word := BitVec.ofNat 32 bytes.length :: packBytes bytes

/-- The kind field of an SCR descriptor (R109). -/
def LineKind.code : LineKind → BitVec 2
  | .text => 0
  | .invertedText => 1
  | .barcode => 2

/-- One line of format SCR (R109). -/
def encodeLine (l : ScreenLine) : List Word :=
  ((0#28 ++ BitVec.ofBool l.arrowRight ++ BitVec.ofBool l.arrowLeft ++ l.kind.code : BitVec 32)) :: encodeStr l.text

/-- The frame of a well-formed command (R101 to R109). -/
def encode : Instr → List Word
  | .init profileId => [0x01#8 ++ 0#16 ++ profileId]
  | .selectMode modeId => [0x02#8 ++ 0#16 ++ modeId]
  | .setZoom on => [0x03#8 ++ 0#23 ++ BitVec.ofBool on]
  | .setContrast level => [0x04#8 ++ 0#16 ++ level]
  | .setAmpmLabels am pm => (0x05#8 ++ 0#24) :: (encodeStr am ++ encodeStr pm)
  | .setPosition heightPx column rowPx => [0x10#8 ++ heightPx ++ column ++ rowPx]
  | .blitColumn value => [0x11#8 ++ 0#24, value]
  | .drawBlankColumns count inverted => [0x12#8 ++ 0#7 ++ BitVec.ofBool inverted ++ count]
  | .drawLine rowIndex text cursorColumn cursorWidth invert arrowLeft arrowRight =>
    (0x20#8 ++ rowIndex ++ BitVec.ofBool arrowRight ++ BitVec.ofBool arrowLeft ++ BitVec.ofBool invert ++ 0#1
      ++ cursorColumn ++ cursorWidth) :: encodeStr text
  | .drawScreen cursorX cursorY cursorOn cursorWidth lines =>
    (0x21#8 ++ cursorX ++ cursorY ++ BitVec.ofBool cursorOn ++ 0#3 ++ cursorWidth)
      :: BitVec.ofNat 32 lines.length :: lines.flatMap encodeLine
  | .drawBarcode rowIndex hexString => (0x22#8 ++ rowIndex ++ 0#20) :: encodeStr hexString
  | .drawClock hours minutes seconds is12h alarmOn alarmHours alarmMinutes date =>
    (0x23#8 ++ 0#24) :: (0#6 ++ BitVec.ofBool alarmOn ++ BitVec.ofBool is12h ++ seconds ++ minutes ++ hours)
      :: (0#16 ++ alarmMinutes ++ alarmHours) :: encodeStr date
  | .drawSmallClock hours minutes is12h =>
    [0x24#8 ++ 0#24, 0#15 ++ BitVec.ofBool is12h ++ minutes ++ hours]
  | .drawIcons bitmask => [0x25#8 ++ 0#24, bitmask]
  | .drawSignalStrength level => [0x26#8 ++ 0#16 ++ level]
  | .grabScreenRegion left top width height => [0x30#8 ++ 0#24, left, top, width, height]
  | .drawBitmap left top width height bytes =>
    (0x31#8 ++ 0#24) :: left :: top :: width :: height :: packBytes bytes

end Sys2Proof
end

