-- ==== Sys2Proof/Machine/Operands.lean ====
section
/-! DEFINITION. What the commands read from their operands: column values and their inversion (R12, R205), the
signed signal level (R111), the clock fields' ranges (R240) and digits (R241), the alarm text (R244), the barcode
string (R272), the icon bits (R277) and the bitmap record's pixels (R294). -/

namespace Sys2Proof.Machine

/-! ## Column values -/

/-- `ones(n)` (R12) as a column value, for `n` up to 32. -/
def ones (n : Nat) : Column := BitVec.ofNat 32 (2 ^ n - 1)

/-- A column value inverted over the effective height `he` (R205). -/
def invertColumn (he : Nat) (v : Column) : Column := v ^^^ ones he

/-- The value of a blank column of height `h` (R136). -/
def blankColumn (inverted : Bool) (h : Nat) : Column := if inverted then ones h else 0

/-! ## The signal level -/

/-- `sext_8` (R111): -128 to 127. -/
def signalLevel (imm : BitVec 8) : Int := imm.toInt

/-- The legal signal levels (R280). -/
def levelLegal (level : Int) : Bool := decide (-1 ≤ level) && decide (level ≤ 100)

/-! ## Clock fields -/

/-- The range of an hour and a minute (R240, R260). -/
def timeLegal (hours minutes : BitVec 8) : Bool := decide (hours.toNat ≤ 23) && decide (minutes.toNat ≤ 59)

/-- One element of the time (R241, R242): a digit, the colon, or the blank-digit sentinel. -/
inductive TimeElem where
  | digit (d : Nat)
  | colon
  | blank
deriving DecidableEq, Repr

/-- The hour a clock shows (R241): 1 to 12 in 12-hour format. -/
def shownHour (h : Nat) (is12h : Bool) : Nat :=
  if is12h then (if h % 12 = 0 then 12 else h % 12) else h

/-- The tens digit of the hour (R241): blank when it is 0 in 12-hour format. -/
def hourTens (h : Nat) (is12h : Bool) : TimeElem :=
  if is12h = true ∧ shownHour h is12h / 10 = 0 then .blank else .digit (shownHour h is12h / 10)

/-- `time_digits` (R241). -/
def timeDigits (h mi : Nat) (is12h : Bool) : List TimeElem :=
  [hourTens h is12h, .digit (shownHour h is12h % 10), .colon, .digit (mi / 10), .digit (mi % 10)]

/-- The ASCII byte of a decimal digit. -/
def asciiDigit (d : Nat) : Byte := BitVec.ofNat 8 (0x30 + d)

/-- The alarm text (R244): `(HH:MM)`. -/
def alarmText (h mi : Nat) (is12h : Bool) : List Byte :=
  let hh := shownHour h is12h
  [0x28, asciiDigit (hh / 10), asciiDigit (hh % 10), 0x3A, asciiDigit (mi / 10), asciiDigit (mi % 10), 0x29]

/-! ## The barcode string -/

/-- The string up to its first 0x00 byte (R272, R273). -/
def untilNul (bytes : List Byte) : List Byte := bytes.takeWhile fun b => b != 0

/-- The element pattern of a barcode data character (R270); lowercase reads as uppercase (R273), and any other byte
has none. -/
def code39? (b : Byte) : Option (BitVec 9) :=
  match b.toNat with
  | 0x30 => some 0x034
  | 0x31 => some 0x121
  | 0x32 => some 0x061
  | 0x33 => some 0x160
  | 0x34 => some 0x031
  | 0x35 => some 0x130
  | 0x36 => some 0x070
  | 0x37 => some 0x025
  | 0x38 => some 0x124
  | 0x39 => some 0x064
  | 0x41 => some 0x109
  | 0x42 => some 0x049
  | 0x43 => some 0x148
  | 0x44 => some 0x019
  | 0x45 => some 0x118
  | 0x46 => some 0x058
  | 0x61 => some 0x109
  | 0x62 => some 0x049
  | 0x63 => some 0x148
  | 0x64 => some 0x019
  | 0x65 => some 0x118
  | 0x66 => some 0x058
  | _ => none

/-- The pattern of START_STOP (R270). -/
def code39StartStop : BitVec 9 := 0x094

/-- The patterns of the characters of a string, none when one is not a hexadecimal digit (R272). -/
def code39Patterns : List Byte → Option (List (BitVec 9))
  | [] => some []
  | b :: bs =>
    match code39? b, code39Patterns bs with
    | some p, some ps => some (p :: ps)
    | _, _ => none

/-! ## Icon bits -/

/-- The icons of a bitmask's set and mapped bits, bit 0 first (R277). -/
def iconIds (c : Config) (mask : Word) : List (BitVec 8) :=
  (List.range 32).filterMap fun b => if mask.getLsbD b then iconOf c b else none

/-! ## Bitmap records -/

/-- `P`, the bytes per column of a bitmap record of height `h` (R294). -/
def recordPitch (h : Nat) : Nat := ceilDiv h 8

/-- The pixel at `(i, r)` of a bitmap record of height `h` (R294). -/
def recordPixel (h : Nat) (bytes : List Byte) (i r : Nat) : Bool :=
  (bytes.getD (i * recordPitch h + r / 8) 0).getLsbD (7 - r % 8)

/-- A byte from its eight pixels, the top one in the most significant bit (R294). -/
def byteOfPixels (pixel : Nat → Bool) : Byte :=
  BitVec.ofBool (pixel 0) ++ BitVec.ofBool (pixel 1) ++ BitVec.ofBool (pixel 2) ++ BitVec.ofBool (pixel 3)
    ++ BitVec.ofBool (pixel 4) ++ BitVec.ofBool (pixel 5) ++ BitVec.ofBool (pixel 6) ++ BitVec.ofBool (pixel 7)

end Sys2Proof.Machine
end

