-- ==== Sys2Proof/Machine/Ops.lean ====
section
/-! DEFINITION. The operations the commands share: the FrameBuffer's bytes and pixels (R71 to R75), the blitter's
`setpos`, `blit` and `blank_columns` (R131, R133, R136), and how a command ends, with an error or without (R15,
R42, R300). -/

namespace Sys2Proof.Machine

/-! ## The FrameBuffer's bytes -/

/-- The value of an index that no entry lists (R35, R86): what every clear writes. -/
def clearByte : Byte := 0x00

/-- `FbRead` (R14). -/
def Memory.read : Memory → Nat → Byte
  | [], _ => clearByte
  | (a, v) :: rest, i => if a = i then v else Memory.read rest i

/-- `FbWrite` (R14), keeping the canonical form: the entry in its place, none for the value of a clear. -/
def Memory.write : Memory → Nat → Byte → Memory
  | [], i, b => if b = clearByte then [] else [(i, b)]
  | (a, v) :: rest, i, b =>
    if a < i then (a, v) :: Memory.write rest i b
    else if a = i then (if b = clearByte then rest else (i, b) :: rest)
    else if b = clearByte then (a, v) :: rest else (i, b) :: (a, v) :: rest

/-- The canonical form: addresses strictly rising, no entry equal to what an unlisted index reads. -/
def Memory.wf : Memory → Bool
  | [] => true
  | [(_, v)] => v != clearByte
  | (a, v) :: (a', v') :: rest => decide (a < a') && v != clearByte && Memory.wf ((a', v') :: rest)

/-! ## Geometry -/

/-- `bpc` (R34). -/
def bpc (hw : HardwareProfile) : Nat := ceilDiv (hw.heightPx + hw.yOffset) 8

/-- `FB_SIZE` (R34). -/
def fbSize (hw : HardwareProfile) : Nat := hw.widthPx * bpc hw

/-- `W_vis` (R34). -/
def wVis (hw : HardwareProfile) : Nat := hw.widthPx - hw.xOffset

/-- `len(FB)` (R35): 0 while INIT is false. -/
def fbLen (s : State) : Nat := if s.init then fbSize s.hw else 0

/-- The visible rectangle (R74). -/
def visible (hw : HardwareProfile) (c y : Nat) : Bool := decide (c < wVis hw) && decide (y < hw.heightPx)

/-- The FrameBuffer index of a logical pixel (R73). -/
def pixIndex (hw : HardwareProfile) (c y : Nat) : Nat := (c + hw.xOffset) * bpc hw + (y + hw.yOffset) / 8

/-- The bit of that byte (R73). -/
def pixBit (order : PixelBitOrder) (hw : HardwareProfile) (y : Nat) : Nat :=
  match order with
  | .msbTop => 7 - (y + hw.yOffset) % 8
  | .lsbTop => (y + hw.yOffset) % 8

/-! ## Pixels -/

/-- A byte with one bit replaced (R73). -/
def setBit (v : Byte) (bit : Nat) (b : Bool) : Byte :=
  (v &&& ~~~(1#8 <<< bit)) ||| ((if b then 1#8 else 0#8) <<< bit)

/-- `PixRead` (R73). -/
def pixRead (s : State) (c y : Nat) : Bool :=
  (Memory.read s.fb (pixIndex s.hw c y)).getLsbD (pixBit s.cfg.pixelBitOrder s.hw y)

/-- `PixWrite` (R73). -/
def pixWrite (c y : Nat) (b : Bool) (s : State) : State :=
  let i := pixIndex s.hw c y
  { s with fb := Memory.write s.fb i (setBit (Memory.read s.fb i) (pixBit s.cfg.pixelBitOrder s.hw y) b) }

/-- Every byte of the FrameBuffer 0x00 (R35). -/
def clearFb (s : State) : State := { s with fb := [] }

/-! ## The blitter -/

/-- What a command's body answers: its working copy of the state, or the error it raises (R15). -/
abbrev Result (α : Type) := Except ErrorKind α

/-- The Cursor that `setpos` sets (R131), its numbers exact (assumption 12). -/
def cursorAt (hw : HardwareProfile) (h c r : Nat) : Cursor where
  valid := true
  column := c
  rowPx := r
  heightPx := h
  s := (r + hw.yOffset) % 8
  shift := -(((r + hw.yOffset) % 8 : Nat) : Int)
  byteOffset := (c + hw.xOffset) * bpc hw + (r + hw.yOffset) / 8
  bitMask := ones h
  roundedHeight := 8 * ceilDiv ((r + hw.yOffset) % 8 + h) 8

/-- `setpos(h, c, r)` (R131). -/
def setpos (h c r : Nat) (s : State) : Result State :=
  if s.init = false then .error .notInitialized
  else if h < 1 ∨ 32 < h then .error .argumentOutOfRange
  else .ok { s with cur := cursorAt s.hw h c r }

/-- The pixels of one column, from its row `j` on: `n` rows still to write (R133). Row `j` of a column of height `h`
is bit `h - 1 - j` of the value (R132). -/
def writeRows (c r h : Nat) (v : Column) : Nat → Nat → State → State
  | 0, _, s => s
  | n + 1, j, s => writeRows c r h v n (j + 1) (pixWrite c (r + j) (v.getLsbD (h - 1 - j)) s)

/-- `blit(v)` (R133): every pixel is checked before the first is written. -/
def blit (v : Column) (s : State) : Result State :=
  if s.cur.valid = false then .error .noPosition
  else if (List.range s.cur.heightPx).all (fun j => visible s.hw s.cur.column (s.cur.rowPx + j)) = false then
    .error .bufferOverrun
  else
    let t := writeRows s.cur.column s.cur.rowPx s.cur.heightPx v s.cur.heightPx 0 s
    .ok { t with cur := { t.cur with column := t.cur.column + 1, byteOffset := t.cur.byteOffset + bpc t.hw } }

/-- Columns drawn left to right. -/
def blitAll : List Column → State → Result State
  | [], s => .ok s
  | v :: vs, s =>
    match blit v s with
    | .error e => .error e
    | .ok t => blitAll vs t

/-- `blank_columns(count, inverted)` (R136). -/
def blankColumns : Nat → Bool → State → Result State
  | 0, _, s => .ok s
  | n + 1, inverted, s =>
    match blit (blankColumn inverted s.cur.heightPx) s with
    | .error e => .error e
    | .ok t => blankColumns n inverted t

/-! ## Ending a command -/

/-- The working copy a command starts from (R15): its result registers as a command that writes no more of them
leaves them (R46 to R48). -/
def beginCommand (s : State) : State := { s with status := statusOk, result := 0, rdata := [] }

/-- `raise E` (R300): the three result registers are written, and nothing else but the Cursor's `valid`, where
`endCommand` clears it. This is all the core has of an exception: no state is saved, no handler runs (R306). -/
def raiseError (e : ErrorKind) (s : State) : State := { s with status := errorCode e, result := 0, rdata := [] }

/-- The Cursor dropped (R42). -/
def dropCursor (s : State) : State := { s with cur := { s.cur with valid := false } }

/-- The end of a command that drops the Cursor (R42, R300): on success its working copy with the Cursor the state
had before, no longer valid (the positions it set internally go: assumption 4); on an error, `raise`. -/
def endCommand (s : State) (r : Result State) : State :=
  match r with
  | .ok t => { t with cur := { s.cur with valid := false } }
  | .error e => dropCursor (raiseError e s)

/-- The end of SET_POSITION, BLIT_COLUMN and DRAW_BLANK_COLUMNS, which leave the Cursor as their body or, on an
error, as it was (R42, R300). -/
def endBlitter (s : State) (r : Result State) : State :=
  match r with
  | .ok t => t
  | .error e => raiseError e s

/-- A command that requires INIT (R305). -/
def needInit (s : State) (body : State → Result State) : Result State :=
  if s.init = false then .error .notInitialized else body (beginCommand s)

/-- A command that requires INIT and MODE_VALID and draws in the active mode (R305). -/
def withMode (s : State) (body : DisplayMode → State → Result State) : Host.Outcome State Fault Refusal :=
  if (s.init && s.modeValid) = false then .next (endCommand s (.error .notInitialized))
  else
    match mode? s.cfg s.modeId with
    | none => .fault .activeModeMissing
    | some m => .next (endCommand s (body m (beginCommand s)))

end Sys2Proof.Machine
end

