-- ==== Sys2Proof/Machine/Barcode.lean ====
section
/-! DEFINITION. The BarcodeEncoder (R270 to R275): Code-39 symbols and DRAW_BARCODE. -/

namespace Sys2Proof.Machine

/-- One element of a symbol (R271): element `e` is wide when bit `8 - e` is 1, and a bar when `e` is even. -/
def symElement (c : Config) (h : Nat) (pattern : BitVec 9) (e : Nat) : List Column :=
  List.replicate (if pattern.getLsbD (8 - e) then c.barcodeWidePx else c.barcodeNarrowPx)
    (if e % 2 = 0 then ones h else 0)

/-- `sym` (R271): the columns of one symbol of height `h`. -/
def sym (c : Config) (h : Nat) (pattern : BitVec 9) : List Column :=
  (List.range 9).flatMap (symElement c h pattern)

/-- The columns of a barcode (R272): START_STOP, each digit and a 1-pixel gap, START_STOP. -/
def barcodeColumns (c : Config) (h : Nat) (patterns : List (BitVec 9)) : List Column :=
  sym c h code39StartStop ++ patterns.flatMap (fun p => sym c h p ++ [0]) ++ sym c h code39StartStop

/-- The data characters of a barcode string (R272, R273): the last 6 before the first NUL, the characters before
those being all `'0'`. -/
def barcodeData (hexString : List Byte) : Result (List (BitVec 9)) :=
  let t := untilNul hexString
  let excess := t.length - barcodeMaxDigits
  if (t.take excess).all (· == 0x30) = false then .error .barcodeTooLong
  else
    match code39Patterns (t.drop excess) with
    | none => .error .barcodeInvalidDigit
    | some patterns => .ok patterns

/-- `barcode_render` (R272). -/
def barcodeRender (m : DisplayMode) (rowIndex : Nat) (hexString : List Byte) (s : State) : Result State :=
  if m.charRows ≤ rowIndex then .error .layoutError
  else
    match barcodeData hexString with
    | .error e => .error e
    | .ok patterns =>
      let h := fontH m.fontKind
      let cols := barcodeColumns s.cfg h patterns
      if wVis s.hw < cols.length then .error .barcodeTooLong
      else do
        let pad := wVis s.hw - cols.length
        let s ← setpos h 0 (rowIndex * h + m.topRowOffsetPx) s
        let s ← blankColumns (pad / 2) false s
        let s ← blitAll cols s
        blankColumns (pad - pad / 2) false s

/-- DRAW_BARCODE (R272). -/
def execDrawBarcode (rowIndex : BitVec 4) (hexString : List Byte) (s : State) : Host.Outcome State Fault Refusal :=
  withMode s fun m t => barcodeRender m rowIndex.toNat hexString t

end Sys2Proof.Machine
end

