-- ==== Sys2Proof/Machine/BitBlitter.lean ====
section
/-! DEFINITION. The BitBlitter commands (R130 to R136). -/

namespace Sys2Proof.Machine

/-- SET_POSITION (R131). -/
def execSetPosition (heightPx : BitVec 6) (column : BitVec 10) (rowPx : BitVec 8) (s : State) :
    Host.Outcome State Fault Refusal :=
  .next (endBlitter s (setpos heightPx.toNat column.toNat rowPx.toNat (beginCommand s)))

/-- BLIT_COLUMN (R134). -/
def execBlitColumn (value : Word) (s : State) : Host.Outcome State Fault Refusal :=
  .next (endBlitter s (needInit s (blit value)))

/-- DRAW_BLANK_COLUMNS (R136). -/
def execDrawBlankColumns (count : BitVec 16) (inverted : Bool) (s : State) : Host.Outcome State Fault Refusal :=
  .next (endBlitter s (needInit s (blankColumns count.toNat inverted)))

end Sys2Proof.Machine
end

