-- ==== Sys2Proof/Machine/Icons.lean ====
section
/-! DEFINITION. The icon strip and the signal-strength glyph (R276 to R281). -/

namespace Sys2Proof.Machine

/-- `Z` (R277): the side of an icon. -/
def iconSize (kind : IconKind) : Nat := if kind = .i8x8 then 8 else 16

/-- The columns of an icon slot (R277): an icon, or the blank icon. -/
def iconColumns (rom : Rom) (kind : IconKind) (id : Option (BitVec 8)) : List Column :=
  match id with
  | some id => if kind = .i8x8 then romIcon8 rom id else romIcon16 rom id
  | none => if kind = .i8x8 then rom.iconBlank8 else rom.iconBlank16

/-- The columns of the whole strip: always `MAX_ICONS` slots (R277). -/
def stripColumns (c : Config) (kind : IconKind) (mask : Word) : List Column :=
  (List.range c.maxIcons).flatMap fun slot => iconColumns c.rom kind (iconIds c mask)[slot]?

/-- The row of the separator (R278). -/
def separatorRow (m : DisplayMode) : Nat := if m.iconYPx = 0 then 8 else m.iconYPx - 1

/-- The separator's columns, of height 1 (R278): ink on the even ones. -/
def separatorColumns (w : Nat) : List Column := (List.range w).map fun c => if c % 2 = 0 then 1 else 0

/-- `icon_render` (R277). -/
def iconRender (m : DisplayMode) (mask : Word) (s : State) : Result State := do
  let s ← setpos (iconSize m.iconKind) 0 m.iconYPx s
  let s ← blitAll (stripColumns s.cfg m.iconKind mask) s
  if m.iconKind = .i8x8 then
    let s ← setpos 1 0 (separatorRow m) s
    blitAll (separatorColumns (wVis s.hw)) s
  else .ok s

/-- The body of DRAW_ICONS (R276). -/
def iconsBody (mask : Word) (m : DisplayMode) (s : State) : Result State :=
  if m.iconKind = .none then .error .layoutError else iconRender m mask s

/-- DRAW_ICONS (R276). -/
def execDrawIcons (bitmask : Word) (s : State) : Host.Outcome State Fault Refusal :=
  withMode s fun m t => iconsBody bitmask m t

/-- The body of DRAW_SIGNAL_STRENGTH (R280). -/
def signalBody (level : Int) (m : DisplayMode) (s : State) : Result State :=
  if levelLegal level = false then .error .argumentOutOfRange
  else
    match m.signalPos with
    | none => .error .layoutError
    | some p => do
      let s ← setpos s.cfg.rom.signalH p.column p.rowPx s
      blitAll (romSignal s.cfg.rom (signalSelect s.cfg level)) s

/-- DRAW_SIGNAL_STRENGTH (R280). -/
def execDrawSignalStrength (level : BitVec 8) (s : State) : Host.Outcome State Fault Refusal :=
  withMode s fun m t => signalBody (signalLevel level) m t

end Sys2Proof.Machine
end

