-- ==== Sys2Proof/Machine/Clock.lean ====
section
/-! DEFINITION. The clock commands (R240 to R264): the text primitive they draw with (R207), DRAW_CLOCK,
DRAW_SMALL_CLOCK and SET_AMPM_LABELS. -/

namespace Sys2Proof.Machine

/-! ## The draw_text primitive (R207) -/

/-- An item of a text: a glyph, or a blank cell. -/
inductive TextItem where
  | glyph (g : GlyphCode)
  | blank
deriving DecidableEq, Repr

/-- The items of a text from logical column `x` on, `used` columns drawn so far (R207): a glyph that does not fit
whole in the visible width ends the text. Answers the number of columns drawn. -/
def drawItems (k : FontKind) (x : Nat) : List TextItem → Nat → State → Result (State × Nat)
  | [], used, s => .ok (s, used)
  | .blank :: rest, used, s =>
    if wVis s.hw < x + used + fontW k then .ok (s, used)
    else do
      let s ← blankColumns (fontW k) false s
      drawItems k x rest (used + fontW k) s
  | .glyph g :: rest, used, s =>
    if dbl g = true ∧ k = .f8x6 then drawItems k x rest used s
    else if wVis s.hw < x + used + cells g * fontW k then .ok (s, used)
    else do
      let s ← blitAll (glyphColumns s.cfg.rom g k) s
      drawItems k x rest (used + cells g * fontW k) s

/-- `draw_text` (R207). -/
def drawText (k : FontKind) (x y : Nat) (items : List TextItem) (s : State) : Result (State × Nat) := do
  let s ← setpos (fontH k) x y s
  drawItems k x items 0 s

/-- `draw_text` of glyph codes, for its drawing alone. -/
def drawCodes (k : FontKind) (x y : Nat) (codes : List GlyphCode) (s : State) : Result State := do
  let (s, _) ← drawText k x y (codes.map .glyph) s
  .ok s

/-- `draw_string` (R207). -/
def drawString (k : FontKind) (x y : Nat) (bytes : List Byte) (s : State) : Result State :=
  drawCodes k x y (decodeCodes s.cfg.charMap bytes 255 (some k)) s

/-! ## The time block (R242) -/

/-- A digit table. -/
inductive DigitTable where
  | big32 | dig22 | txt32
deriving DecidableEq, Repr

/-- The height of a digit table. -/
def digitHeight : DigitTable → Nat
  | .big32 => 32
  | .dig22 => 22
  | .txt32 => 32

/-- The width of a blank digit. -/
def digitBlankW (c : Config) : DigitTable → Nat
  | .big32 => c.rom.big32W
  | .dig22 => c.rom.dig22W
  | .txt32 => fontW .f32x16

/-- The columns of a character of the `F32x16` text font. -/
def txt32Columns (c : Config) (cp : Nat) : List Column := glyphColumns c.rom (charCode c.charMap cp) .f32x16

/-- `cols(T, d)` of a digit 0 to 9. -/
def digitColumns (c : Config) (t : DigitTable) (d : Nat) : List Column :=
  match t with
  | .big32 => romBig32 c.rom d
  | .dig22 => romDig22 c.rom d
  | .txt32 => txt32Columns c (0x30 + d)

/-- `cols(T, COLON)`. -/
def colonColumns (c : Config) : DigitTable → List Column
  | .big32 => c.rom.big32Colon
  | .dig22 => c.rom.dig22Colon
  | .txt32 => txt32Columns c 0x3A

/-- One element of the time: what is no digit 0 to 9 and no colon is drawn as blank columns. -/
def drawElem (t : DigitTable) (e : TimeElem) (s : State) : Result State :=
  match e with
  | .colon => blitAll (colonColumns s.cfg t) s
  | .blank => blankColumns (digitBlankW s.cfg t) false s
  | .digit d => if d ≤ 9 then blitAll (digitColumns s.cfg t d) s else blankColumns (digitBlankW s.cfg t) false s

/-- The elements side by side. -/
def drawElems (t : DigitTable) : List TimeElem → State → Result State
  | [], s => .ok s
  | e :: es, s => do
    let s ← drawElem t e s
    drawElems t es s

/-- `draw_digits` (R242). -/
def drawDigits (t : DigitTable) (x y : Nat) (elems : List TimeElem) (s : State) : Result State := do
  let s ← setpos (digitHeight t) x y s
  drawElems t elems s

/-! ## DRAW_CLOCK -/

/-- The clock icons (R252). -/
inductive ClockIcon where
  | am | pm | alarm
deriving DecidableEq, Repr

/-- `ROM.CLKICON` (R151). -/
def clockIconColumns (r : Rom) : ClockIcon → List Column
  | .am => r.clkAm
  | .pm => r.clkPm
  | .alarm => r.clkAlarm

/-- `draw_icon` (R250, R252). -/
def drawClockIcon (icon : ClockIcon) (x y : Nat) (s : State) : Result State := do
  let s ← setpos s.cfg.rom.clkIconH x y s
  blitAll (clockIconColumns s.cfg.rom icon) s

/-- The ranges of R240; the alarm's are checked whether or not it is on. -/
def clockLegal (hours minutes seconds alarmHours alarmMinutes : BitVec 8) : Bool :=
  timeLegal hours minutes && decide (seconds.toNat ≤ 59) && timeLegal alarmHours alarmMinutes

/-- The digit table of a layout (R250). -/
def layoutDigits : ClockKind → DigitTable
  | .l0 => .big32
  | .l4 => .big32
  | .l2 => .dig22
  | _ => .txt32

/-- The AM or PM label (R241, R43): AM for hours below 12. -/
def ampmLabel (s : State) (hours : Nat) : List GlyphCode := if hours < 12 then s.amLabel else s.pmLabel

/-- The label of the clock face, in 12-hour format only (R250): an icon in layout L2, text in the others. -/
def drawLabel (m : DisplayMode) (hours : Nat) (is12h : Bool) (s : State) : Result State :=
  if is12h = false then .ok s
  else if m.clockKind = .l2 then
    drawClockIcon (if hours < 12 then .am else .pm) m.clockGeom.labelX m.clockGeom.labelY s
  else drawCodes m.fontKind m.clockGeom.labelX m.clockGeom.labelY (ampmLabel s hours) s

/-- The icon row of layouts L1 and L4 (R253). -/
def drawAlarmRow (m : DisplayMode) (alarmOn : Bool) (s : State) : Result State :=
  if m.iconKind = .none then .ok s
  else iconRender m (if alarmOn then 1#32 <<< s.cfg.clockAlarmIconBit.val else 0) s

/-- The line of layout L3 (R250): the date, a space when both are drawn, the alarm text. -/
def dateAlarmLine (date alarm : List Byte) (alarmOn : Bool) : List Byte :=
  date ++ (if alarmOn = true ∧ 0 < date.length then [0x20] else []) ++ (if alarmOn then alarm else [])

/-- What a layout draws besides the time and its label (R250). -/
def drawLayoutRest (m : DisplayMode) (alarm : List Byte) (alarmOn : Bool) (date : List Byte) (s : State) :
    Result State :=
  match m.clockKind with
  | .none => .ok s
  | .l0 => if alarmOn then drawString m.fontKind m.clockGeom.alarmX m.clockGeom.alarmY alarm s else .ok s
  | .l1 => do
    let s ← if s.cfg.suppressDate = false ∧ 0 < date.length then
        drawString m.fontKind m.clockGeom.dateX m.clockGeom.dateY date s
      else .ok s
    drawAlarmRow m alarmOn s
  | .l2 => if alarmOn then drawClockIcon .alarm m.clockGeom.alarmX m.clockGeom.alarmY s else .ok s
  | .l3 =>
    let line := dateAlarmLine date alarm alarmOn
    if 0 < line.length then drawString .f16x8 m.clockGeom.dateX m.clockGeom.dateY line s else .ok s
  | .l4 => drawAlarmRow m alarmOn s

/-- The body of DRAW_CLOCK (R250). -/
def clockBody (hours minutes seconds : BitVec 8) (is12h alarmOn : Bool) (alarmHours alarmMinutes : BitVec 8)
    (date : List Byte) (m : DisplayMode) (s : State) : Result State :=
  if clockLegal hours minutes seconds alarmHours alarmMinutes = false then .error .argumentOutOfRange
  else if m.clockKind = .none then .error .unsupportedClockLayout
  else do
    let x := if is12h then m.clockGeom.timeX12 else m.clockGeom.timeX24
    let s ← drawDigits (layoutDigits m.clockKind) x m.clockGeom.timeY
      (timeDigits hours.toNat minutes.toNat is12h) (clearFb s)
    let s ← drawLabel m hours.toNat is12h s
    drawLayoutRest m (alarmText alarmHours.toNat alarmMinutes.toNat is12h) alarmOn date s

/-- DRAW_CLOCK (R250). -/
def execDrawClock (hours minutes seconds : BitVec 8) (is12h alarmOn : Bool) (alarmHours alarmMinutes : BitVec 8)
    (date : List Byte) (s : State) : Host.Outcome State Fault Refusal :=
  withMode s fun m t => clockBody hours minutes seconds is12h alarmOn alarmHours alarmMinutes date m t

/-! ## DRAW_SMALL_CLOCK -/

/-- The text item of a time element: a digit or the colon through CHARMAP, or a blank cell (R260). -/
def clockItem (m : CharMap) : TimeElem → TextItem
  | .digit d => .glyph (charCode m (0x30 + d))
  | .colon => .glyph (charCode m 0x3A)
  | .blank => .blank

/-- The items of the small clock (R260). -/
def smallClockItems (hours minutes : Nat) (is12h : Bool) (s : State) : List TextItem :=
  (timeDigits hours minutes is12h).map (clockItem s.cfg.charMap)
    ++ (if is12h then (ampmLabel s hours).map .glyph else [])

/-- The columns that a 24-hour draw erases after a 12-hour one (R261): from the end of the text to the extent, or
to the visible width. -/
def staleColumns (hw : HardwareProfile) (p : SmallClockPos) (used : Nat) : Nat :=
  min (p.column + p.extentPx) (wVis hw) - (p.column + used)

/-- The body of DRAW_SMALL_CLOCK (R260). -/
def smallClockBody (hours minutes : BitVec 8) (is12h : Bool) (m : DisplayMode) (s : State) : Result State :=
  if timeLegal hours minutes = false then .error .argumentOutOfRange
  else
    match m.smallClock with
    | none => .error .unsupportedClockLayout
    | some p => do
      let (t, used) ← drawText m.fontKind p.column p.rowPx (smallClockItems hours.toNat minutes.toNat is12h s) s
      let t ← if is12h = false ∧ s.small12 = true then blankColumns (staleColumns t.hw p used) false t else .ok t
      .ok { t with small12 := is12h }

/-- DRAW_SMALL_CLOCK (R260). -/
def execDrawSmallClock (hours minutes : BitVec 8) (is12h : Bool) (s : State) : Host.Outcome State Fault Refusal :=
  withMode s fun m t => smallClockBody hours minutes is12h m t

/-! ## SET_AMPM_LABELS -/

/-- The label of a string (R262). -/
def labelOf (c : Config) (bytes : List Byte) : List GlyphCode := decodeCodes c.charMap bytes c.ampmCap none

/-- SET_AMPM_LABELS (R262): it needs no INIT and cannot fail. -/
def execSetAmpmLabels (am pm : List Byte) (s : State) : Host.Outcome State Fault Refusal :=
  let t := beginCommand s
  .next (endCommand s (.ok { t with amLabel := labelOf t.cfg am, pmLabel := labelOf t.cfg pm }))

end Sys2Proof.Machine
end

