-- ==== Sys2Proof/Machine/Control.lean ====
section
/-! DEFINITION. The configuration and bitmap-transfer commands (R285 to R297). -/

namespace Sys2Proof.Machine

/-! ## INIT, SELECT_MODE, SET_ZOOM, SET_CONTRAST -/

/-- The body of INIT (R286). -/
def initBody (profileId : BitVec 8) (s : State) : Result State :=
  if s.init = true then .error .alreadyInitialized
  else
    match profile? s.cfg profileId with
    | none => .error .unknownProfile
    | some p =>
      .ok { s with init := true, hw := p, fb := [], modeValid := false, zoomed := false, small12 := false }

/-- INIT (R286). -/
def execInit (profileId : BitVec 8) (s : State) : Host.Outcome State Fault Refusal :=
  .next (endCommand s (initBody profileId (beginCommand s)))

/-- SELECT_MODE (R288). Its rule has no check of the mode against the panel (R10; assumption 2). -/
def execSelectMode (modeId : BitVec 8) (s : State) : Host.Outcome State Fault Refusal :=
  if s.init = false then .next (endCommand s (.error .notInitialized))
  else
    match mode? s.cfg modeId with
    | none => .next (endCommand s (.error .unknownDisplayMode))
    | some _ =>
      let t := clearFb (beginCommand s)
      .next (endCommand s (.ok { t with modeValid := true, modeId := modeId, zoomed := false, small12 := false }))

/-- The end of a SET_ZOOM that changes no mode (R289): RESULT holds the active mode's geometry. -/
def keepMode (s : State) (m : DisplayMode) : Host.Outcome State Fault Refusal :=
  let t := beginCommand s
  .next (endCommand s (.ok { t with result := geometryResult m }))

/-- SET_ZOOM on, in the active mode `m` (R289): a mode switch when not zoomed and the mode has a zoom target. -/
def zoomOn (s : State) (m : DisplayMode) : Host.Outcome State Fault Refusal :=
  match (if s.zoomed then none else m.zoomTarget) with
  | none => keepMode s m
  | some target =>
    match mode? s.cfg target with
    | none => .fault .activeModeMissing
    | some m' =>
      let t := clearFb (beginCommand s)
      .next (endCommand s (.ok { t with
        baseModeId := s.modeId, modeId := target, zoomed := true, small12 := false, result := geometryResult m' }))

/-- SET_ZOOM off, in the active mode `m` (R289): back to the base mode when zoomed. -/
def zoomOff (s : State) (m : DisplayMode) : Host.Outcome State Fault Refusal :=
  if s.zoomed = false then keepMode s m
  else
    match mode? s.cfg s.baseModeId with
    | none => .fault .activeModeMissing
    | some m' =>
      let t := clearFb (beginCommand s)
      .next (endCommand s (.ok { t with
        modeId := s.baseModeId, zoomed := false, small12 := false, result := geometryResult m' }))

/-- SET_ZOOM (R289). -/
def execSetZoom (on : Bool) (s : State) : Host.Outcome State Fault Refusal :=
  if (s.init && s.modeValid) = false then .next (endCommand s (.error .notInitialized))
  else
    match mode? s.cfg s.modeId with
    | none => .fault .activeModeMissing
    | some m => if on then zoomOn s m else zoomOff s m

/-- The body of SET_CONTRAST (R293). -/
def contrastBody (level : BitVec 8) (s : State) : Result State :=
  if 100 < level.toNat then .error .argumentOutOfRange else .ok { s with contrast := level.setWidth 7 }

/-- SET_CONTRAST (R293). -/
def execSetContrast (level : BitVec 8) (s : State) : Host.Outcome State Fault Refusal :=
  .next (endCommand s (needInit s (contrastBody level)))

/-! ## GRAB_SCREEN_REGION -/

/-- A rectangle that does not lie whole in the visible rectangle (R295, R296). -/
def outsideVisible (hw : HardwareProfile) (left top width height : Nat) : Bool :=
  decide (wVis hw < left + width) || decide (hw.heightPx < top + height)

/-- The top of a grabbed record: rounded down to a byte boundary (R295). -/
def grabTop (top : Nat) : Nat := top - top % 8

/-- The height of a grabbed record: grown upward by the rounding (R295). -/
def grabHeight (top height : Nat) : Nat := top + height - grabTop top

/-- Byte `j` of column `i` of a record (R295): its pixels from the top, the bits past the record's height 0. -/
def grabByte (s : State) (left t0 h0 i j : Nat) : Byte :=
  byteOfPixels fun q => decide (8 * j + q < h0) && pixRead s (left + i) (t0 + 8 * j + q)

/-- The column bytes of a record (R294, R295). -/
def grabBytes (s : State) (left t0 width h0 : Nat) : List Byte :=
  (List.range width).flatMap fun i => (List.range (recordPitch h0)).map fun j => grabByte s left t0 h0 i j

/-- The body of GRAB_SCREEN_REGION (R295). -/
def grabBody (left top width height : Word) (s : State) : Result State :=
  if width = 0 ∨ height = 0 then .ok { s with rdata := [left, top, width, height] }
  else if outsideVisible s.hw left.toNat top.toNat width.toNat height.toNat then .error .bufferOverrun
  else
    let t0 := grabTop top.toNat
    let h0 := grabHeight top.toNat height.toNat
    .ok { s with
      rdata := [left, BitVec.ofNat 32 t0, width, BitVec.ofNat 32 h0]
        ++ packBytes (grabBytes s left.toNat t0 width.toNat h0) }

/-- GRAB_SCREEN_REGION (R295). -/
def execGrabScreenRegion (left top width height : Word) (s : State) : Host.Outcome State Fault Refusal :=
  .next (endCommand s (needInit s (grabBody left top width height)))

/-! ## DRAW_BITMAP -/

/-- The pixels of one column of a rectangle, from its row `r` on: `n` rows still to write (R296). -/
def bitmapRows (left top h : Nat) (bytes : List Byte) (i : Nat) : Nat → Nat → State → State
  | 0, _, s => s
  | n + 1, r, s =>
    bitmapRows left top h bytes i n (r + 1) (pixWrite (left + i) (top + r) (recordPixel h bytes i r) s)

/-- The columns of a rectangle, from its column `i` on: `n` columns still to write (R296). -/
def bitmapColumns (left top h : Nat) (bytes : List Byte) : Nat → Nat → State → State
  | 0, _, s => s
  | n + 1, i, s => bitmapColumns left top h bytes n (i + 1) (bitmapRows left top h bytes i h 0 s)

/-- The body of DRAW_BITMAP (R296). -/
def bitmapBody (left top width height : Word) (bytes : List Byte) (s : State) : Result State :=
  if width = 0 ∨ height = 0 then .ok s
  else if outsideVisible s.hw left.toNat top.toNat width.toNat height.toNat then .error .bufferOverrun
  else .ok (bitmapColumns left.toNat top.toNat height.toNat bytes width.toNat 0 s)

/-- DRAW_BITMAP (R296). -/
def execDrawBitmap (left top width height : Word) (bytes : List Byte) (s : State) :
    Host.Outcome State Fault Refusal :=
  .next (endCommand s (needInit s (bitmapBody left top width height bytes)))

end Sys2Proof.Machine
end

