-- ==== Sys2Proof/Machine/TextLayout.lean ====
section
/-! DEFINITION. The text layout commands (R200 to R215): `line_render`, the `draw_text` primitive of the clock
family, DRAW_LINE and DRAW_SCREEN. -/

namespace Sys2Proof.Machine

/-! ## One text line -/

/-- `line_rows` (R202): the top row and the effective height of a text row. -/
def lineRows (m : DisplayMode) (rowIndex : Nat) : Nat × Nat :=
  let y := rowIndex * fontH m.fontKind + m.topRowOffsetPx
  if m.inverseBleed = true ∧ rowIndex ≠ 0 then (y - 1, fontH m.fontKind + 1) else (y, fontH m.fontKind)

/-- `arrow_cell` (R200, R204). -/
def arrowCell (m : DisplayMode) (side : Side) (flag invert : Bool) (s : State) : Result State :=
  if arrowW m.arrowKind = 0 then .ok s
  else if flag && !invert then blitAll (romArrow s.cfg.rom m.arrowKind side m.fontKind) s
  else blankColumns (arrowW m.arrowKind) invert s

/-- Whether a glyph at display column `col` lies in the cursor (R205). -/
def inCursor (cursorColumn cursorWidth col : Nat) : Bool :=
  decide (0 < cursorWidth) && decide (cursorColumn ≤ col) && decide (col < cursorColumn + cursorWidth)

/-- The columns of one glyph of a line, inverted when exactly one of the line and the cursor inverts it (R205). -/
def lineGlyphColumns (rom : Rom) (k : FontKind) (he cursorColumn cursorWidth : Nat) (invert : Bool)
    (glyph : GlyphCode × Nat) : List Column :=
  let cols := glyphColumns rom glyph.1 k
  if invert ^^ inCursor cursorColumn cursorWidth glyph.2 then cols.map (invertColumn he) else cols

/-- `line_render` (R200). -/
def lineRender (m : DisplayMode) (rowIndex : Nat) (text : List Byte) (cursorColumn cursorWidth : Nat)
    (invert arrowLeft arrowRight : Bool) (s : State) : Result State :=
  if m.charRows ≤ rowIndex then .error .layoutError
  else
    let (y, he) := lineRows m rowIndex
    if 32 < he then .error .layoutError
    else do
      let seq := decodeText s.cfg.charMap text m.charCols (some m.fontKind)
      let pad := m.charCols - textWidth seq
      let w := fontW m.fontKind
      let s ← setpos he 0 y s
      let s ← arrowCell m .left arrowLeft invert s
      let s ← blankColumns (pad / 2 * w) invert s
      let s ← blitAll (seq.flatMap (lineGlyphColumns s.cfg.rom m.fontKind he cursorColumn cursorWidth invert)) s
      let s ← blankColumns ((pad - pad / 2) * w) invert s
      arrowCell m .right arrowRight invert s

/-- DRAW_LINE (R200). -/
def execDrawLine (rowIndex : BitVec 4) (text : List Byte) (cursorColumn cursorWidth : BitVec 8)
    (invert arrowLeft arrowRight : Bool) (s : State) : Host.Outcome State Fault Refusal :=
  withMode s fun m t =>
    lineRender m rowIndex.toNat text cursorColumn.toNat cursorWidth.toNat invert arrowLeft arrowRight t

/-! ## DRAW_SCREEN -/

/-- The line of row `r` (R215): an empty text line past the last given one. -/
def screenLine (lines : List ScreenLine) (r : Nat) : ScreenLine := lines.getD r ⟨.text, false, false, []⟩

/-- One row of DRAW_SCREEN (R212, R213): the cursor applies to row `cursorY` only, and not to a barcode. -/
def screenRow (m : DisplayMode) (cursorX cursorY : Nat) (cursorOn : Bool) (cursorWidth : Nat)
    (line : ScreenLine) (r : Nat) (s : State) : Result State :=
  let here := cursorOn && decide (r = cursorY)
  let cc := if here then cursorX else 0
  let cw := if here then cursorWidth else 0
  match line.kind with
  | .text => lineRender m r line.text cc cw false line.arrowLeft line.arrowRight s
  | .invertedText => lineRender m r line.text cc cw true line.arrowLeft line.arrowRight s
  | .barcode => barcodeRender m r line.text s

/-- The errors that leave their own line undrawn and let the others be drawn (R214). -/
def perLineError : ErrorKind → Bool
  | .barcodeTooLong => true
  | .barcodeInvalidDigit => true
  | _ => false

/-- The rows of DRAW_SCREEN in order, with the first per-line error so far (R212, R214). -/
def screenRows (m : DisplayMode) (cursorX cursorY : Nat) (cursorOn : Bool) (cursorWidth : Nat)
    (lines : List ScreenLine) : List Nat → State → Option ErrorKind → Result (State × Option ErrorKind)
  | [], s, first => .ok (s, first)
  | r :: rest, s, first =>
    match screenRow m cursorX cursorY cursorOn cursorWidth (screenLine lines r) r s with
    | .ok t => screenRows m cursorX cursorY cursorOn cursorWidth lines rest t first
    | .error e =>
      if perLineError e then screenRows m cursorX cursorY cursorOn cursorWidth lines rest s (first.or (some e))
      else .error e

/-- The body of DRAW_SCREEN (R212): the working copy is kept even when a barcode line failed, with the first such
error in STATUS (R214). -/
def screenBody (cursorX cursorY : Nat) (cursorOn : Bool) (cursorWidth : Nat) (lines : List ScreenLine)
    (m : DisplayMode) (s : State) : Result State :=
  if m.charRows < lines.length then .error .layoutError
  else
    match screenRows m cursorX cursorY cursorOn cursorWidth lines (List.range m.charRows) s none with
    | .error e => .error e
    | .ok (t, none) => .ok t
    | .ok (t, some e) => .ok (raiseError e t)

/-- DRAW_SCREEN (R212). -/
def execDrawScreen (cursorX : BitVec 8) (cursorY : BitVec 4) (cursorOn : Bool) (cursorWidth : BitVec 8)
    (lines : List ScreenLine) (s : State) : Host.Outcome State Fault Refusal :=
  withMode s fun m t => screenBody cursorX.toNat cursorY.toNat cursorOn cursorWidth.toNat lines m t

end Sys2Proof.Machine
end

