-- ==== Sys2Proof/Machine/Dispatch.lean ====
section
/-! DEFINITION. One arm per command: its meaning. -/

namespace Sys2Proof.Machine

/-- The effect of one decoded command on the state: one atomic step of the core (R80, R360). -/
def exec (i : Instr) (s : State) : Host.Outcome State Fault Refusal :=
  match i with
  | .init profileId => Sys2Proof.Machine.execInit profileId s
  | .selectMode modeId => Sys2Proof.Machine.execSelectMode modeId s
  | .setZoom on => Sys2Proof.Machine.execSetZoom on s
  | .setContrast level => Sys2Proof.Machine.execSetContrast level s
  | .setAmpmLabels am pm => Sys2Proof.Machine.execSetAmpmLabels am pm s
  | .setPosition heightPx column rowPx => Sys2Proof.Machine.execSetPosition heightPx column rowPx s
  | .blitColumn value => Sys2Proof.Machine.execBlitColumn value s
  | .drawBlankColumns count inverted => Sys2Proof.Machine.execDrawBlankColumns count inverted s
  | .drawLine rowIndex text cursorColumn cursorWidth invert arrowLeft arrowRight => Sys2Proof.Machine.execDrawLine rowIndex text cursorColumn cursorWidth invert arrowLeft arrowRight s
  | .drawScreen cursorX cursorY cursorOn cursorWidth lines => Sys2Proof.Machine.execDrawScreen cursorX cursorY cursorOn cursorWidth lines s
  | .drawBarcode rowIndex hexString => Sys2Proof.Machine.execDrawBarcode rowIndex hexString s
  | .drawClock hours minutes seconds is12h alarmOn alarmHours alarmMinutes date => Sys2Proof.Machine.execDrawClock hours minutes seconds is12h alarmOn alarmHours alarmMinutes date s
  | .drawSmallClock hours minutes is12h => Sys2Proof.Machine.execDrawSmallClock hours minutes is12h s
  | .drawIcons bitmask => Sys2Proof.Machine.execDrawIcons bitmask s
  | .drawSignalStrength level => Sys2Proof.Machine.execDrawSignalStrength level s
  | .grabScreenRegion left top width height => Sys2Proof.Machine.execGrabScreenRegion left top width height s
  | .drawBitmap left top width height bytes => Sys2Proof.Machine.execDrawBitmap left top width height bytes s

end Sys2Proof.Machine
end

