-- ==== Sys2Proof/Machine/HostPort.lean ====
section
/-! DEFINITION. The host's side of the interface (R49, R79, R110, R350): a submitted frame, the FrameBuffer read
port and the reset event. -/

namespace Sys2Proof.Machine

/-- An illegal frame (R110): no command, so the Cursor stays too. -/
def illegalFrame (s : State) : State := raiseError .illegalCommand s

/-- A submitted frame (R110, R360): decoded and executed to completion, or illegal. -/
def runFrame (frame : List Word) (s : State) : Host.Outcome State Fault Refusal :=
  match decode frame with
  | .ok i => exec i s
  | .error _ => .next (illegalFrame s)

/-- The FrameBuffer read port (R79): the byte, or nothing at or past `len(FB)`. -/
def hostReadFb (s : State) (i : Nat) : Option Byte := if i < fbLen s then some (Memory.read s.fb i) else none

/-- The whole FrameBuffer as the host sees it (R49, R369). -/
def hostFrameBuffer (s : State) : List Byte := (List.range (fbLen s)).map (Memory.read s.fb)

/-- The observation after a frame (R369). -/
def hostRegisters (s : State) : BitVec 8 × BitVec 32 × List Word := (s.status, s.result, s.rdata)

/-- The reset event (R350, R351): the state after reset under the same configuration (R352), with the host's events
that still wait (assumption 10). -/
def resetEvent (s : State) : State := { resetState s.cfg with inbox := s.inbox }

end Sys2Proof.Machine
end

