-- ==== Sys2Proof/Machine/Step.lean ====
section
/-! DEFINITION. One step of the machine: the core takes the host's next event. One frame is one step (R360). -/

namespace Sys2Proof.Machine

/-- One step. The event taken leaves the inbox whatever comes of it (R31); with no event the core is idle and keeps
its state (R314, R350; assumption 8); a read of the FrameBuffer changes nothing, and past its end it has no result (R79). -/
def step (s : State) : Host.Outcome State Fault Refusal :=
  match s.inbox with
  | [] => .next s
  | .submit frame :: rest => runFrame frame { s with inbox := rest }
  | .readFb i :: rest =>
    match hostReadFb s i with
    | some _ => .next { s with inbox := rest }
    | none => .refused .fbReadOutOfRange
  | .reset :: rest => .next (resetEvent { s with inbox := rest })

/-- The state with an instruction, numbered as `spec/opcode_table.json` numbers its bits, submitted as the next
frame: the host's delivery of a frame (R100) is how an instruction comes to the core
(assumption 7). -/
def State.withFetchWord (s : State) (nbits w : Nat) : State :=
  { s with inbox := .submit (tableFrame nbits w) :: s.inbox }

end Sys2Proof.Machine
end

