-- ==== Sys2Proof/Safety.lean ====
section
/-! DEFINITION. What the statements speak of: the invariants of a safe state (R43, R51, R72), and what it means
that a command has painted exactly one region of the visible rectangle. -/

namespace Sys2Proof.Machine

/-! ## Painting -/

/-- One bit of the FrameBuffer. -/
def bitAt (s : State) (i b : Nat) : Bool := (Memory.read s.fb i).getLsbD b

/-- From `s` to `t` exactly the pixels of `region` were written, each with its `value`; all of them are visible
(R74), every FrameBuffer byte that holds none of them reads as before, and so does every other bit of the bytes
that hold some. -/
structure Painted (s t : State) (region : Nat → Nat → Prop) (value : Nat → Nat → Bool) : Prop where
  visible : ∀ c y, region c y → visible s.hw c y = true
  inside : ∀ c y, region c y → pixRead t c y = value c y
  outsideByte : ∀ i, (∀ c y, region c y → pixIndex s.hw c y ≠ i) → Memory.read t.fb i = Memory.read s.fb i
  outsideBit : ∀ i b, (∀ c y, region c y → ¬ (pixIndex s.hw c y = i ∧ pixBit s.cfg.pixelBitOrder s.hw y = b)) →
    bitAt t i b = bitAt s i b

/-- A rectangle of pixels: `w` columns from `c0`, `h` rows from `y0`. -/
abbrev inRect (c0 y0 w h c y : Nat) : Prop := c0 ≤ c ∧ c < c0 + w ∧ y0 ≤ y ∧ y < y0 + h

/-- The pixel of a run of columns of height `h` drawn from `(c0, y0)` (R132). -/
def columnPixel (cols : List Column) (h c0 y0 c y : Nat) : Bool :=
  (cols.getD (c - c0) 0).getLsbD (h - 1 - (y - y0))

/-! ## Invariants -/

/-- The width in cells of a label (R43). -/
def labelWidth (l : List GlyphCode) : Nat := (l.map cells).sum

/-- R51, invariant 2: an active mode is a mode of the table. -/
def ActiveModeDefined (s : State) : Prop :=
  s.modeValid = true → s.init = true ∧ ∃ m, mode? s.cfg s.modeId = some m

/-- R51, invariant 3: a zoomed mode is the zoom target of the base mode, which is another mode. -/
def ZoomConsistent (s : State) : Prop :=
  s.zoomed = true → s.modeValid = true ∧ s.modeId ≠ s.baseModeId ∧
    ∃ m, mode? s.cfg s.baseModeId = some m ∧ m.zoomTarget = some s.modeId

/-- R51, invariant 4, with the field widths of R40 and the derived fields as R131 computes them. -/
def CursorConsistent (s : State) : Prop :=
  s.cur.valid = true → s.init = true ∧ 1 ≤ s.cur.heightPx ∧ s.cur.heightPx ≤ 32 ∧ s.cur.roundedHeight % 8 = 0 ∧
    s.cur.column ≤ 1024 ∧ s.cur.rowPx ≤ 255 ∧ s.cur = cursorAt s.hw s.cur.heightPx s.cur.column s.cur.rowPx

/-- R72, R86: every bit of the FrameBuffer that is not 0 is a pixel of the visible rectangle. -/
def OnlyVisibleInk (s : State) : Prop :=
  ∀ i b, bitAt s i b = true →
    ∃ c y, visible s.hw c y = true ∧ pixIndex s.hw c y = i ∧ pixBit s.cfg.pixelBitOrder s.hw y = b

/-- The invariants of the core: R51's five, the canonical form of the FrameBuffer, the legal configuration (R9,
R10), the label widths (R43) and the bytes that hold no logical pixel (R72). -/
structure Invariant (s : State) : Prop where
  configLegal : configLegal s.cfg = true
  fbCanonical : Memory.wf s.fb = true
  fbInside : ∀ c ∈ s.fb, c.1 < fbLen s
  panelLegal : s.init = true → profileLegal s.hw = true
  activeMode : ActiveModeDefined s
  zoom : ZoomConsistent s
  cursor : CursorConsistent s
  contrast : s.contrast.toNat ≤ 100
  amLabel : labelWidth s.amLabel ≤ s.cfg.ampmCap
  pmLabel : labelWidth s.pmLabel ≤ s.cfg.ampmCap
  onlyVisibleInk : OnlyVisibleInk s

end Sys2Proof.Machine
end

