-- ==== Sys2Proof/Pictures.lean ====
section
/-! DEFINITION. What the statements about drawing commands speak of: how a command ends, pieces of a picture (a run
of columns at a position), and the pieces that each drawing command puts on the visible rectangle, laid out from the
spec's rules and not from the meanings. The tables that both look up (fonts, arrows, icons, digits, patterns) are the
same ones. -/

namespace Sys2Proof.Machine

/-! ## How a command ends -/

/-- After a command that succeeded and, besides the FrameBuffer, wrote its result registers and dropped the Cursor
only (R15, R42, R46 to R48; that the Cursor's other fields stay is assumption 4). -/
def drawn (s : State) (fb : Memory) : State :=
  { s with fb := fb, cur := { s.cur with valid := false }, status := 0x00, result := 0, rdata := [] }

/-- After a command that failed with a STATUS code (R300). -/
def failed (s : State) (code : BitVec 8) : State :=
  { s with cur := { s.cur with valid := false }, status := code, result := 0, rdata := [] }

/-- After a failed SET_POSITION, BLIT_COLUMN or DRAW_BLANK_COLUMNS, and after an illegal frame (R110, R300): the
Cursor stays. -/
def failedKeepingCursor (s : State) (code : BitVec 8) : State := { s with status := code, result := 0, rdata := [] }

/-- A state that keeps the core's invariants and whose active mode is `m` (R305). -/
structure Active (s : State) (m : DisplayMode) : Prop where
  inv : Invariant s
  init : s.init = true
  modeValid : s.modeValid = true
  mode : mode? s.cfg s.modeId = some m

/-! ## Pieces -/

/-- Columns of height `h` drawn from logical `(x, y)` rightward. -/
structure Piece where
  x : Nat
  y : Nat
  h : Nat
  cols : List Column
deriving DecidableEq, Repr

/-- The pixels of a piece. -/
abbrev Piece.covers (p : Piece) (c y : Nat) : Prop := inRect p.x p.y p.cols.length p.h c y

/-- The value of a pixel of a piece (R132). -/
def Piece.pixel (p : Piece) (c y : Nat) : Bool := columnPixel p.cols p.h p.x p.y c y

/-- Every pixel of the piece is visible (R74); a piece without columns writes none. -/
def Piece.fits (hw : HardwareProfile) (p : Piece) : Prop :=
  p.cols = [] ∨ (p.x + p.cols.length ≤ wVis hw ∧ p.y + p.h ≤ hw.heightPx)

/-- The pixels of a list of pieces. -/
def covered (ps : List Piece) (c y : Nat) : Prop := ∃ p ∈ ps, p.covers c y

/-- The pixels that a list of pieces leaves: of the pieces that cover a pixel the last one counts (R81). -/
def picture (base : Nat → Nat → Bool) : List Piece → Nat → Nat → Bool
  | [], c, y => base c y
  | p :: ps, c, y => picture (fun c y => if p.covers c y then p.pixel c y else base c y) ps c y

/-- From `s` to `t` exactly the pixels of the pieces were written, in the order of the list. -/
def Shows (s t : State) (ps : List Piece) : Prop := Painted s t (covered ps) (picture (pixRead s) ps)

/-! ## Text lines (R200 to R206) -/

/-- The top row of a text line (R202). -/
def lineTop (m : DisplayMode) (row : Nat) : Nat :=
  if m.inverseBleed = true ∧ 0 < row then row * fontH m.fontKind + m.topRowOffsetPx - 1
  else row * fontH m.fontKind + m.topRowOffsetPx

/-- The effective height of a text line (R202). -/
def lineHeight (m : DisplayMode) (row : Nat) : Nat :=
  if m.inverseBleed = true ∧ 0 < row then fontH m.fontKind + 1 else fontH m.fontKind

/-- `n` blank columns of a line of height `he` (R136). -/
def blanks (n he : Nat) (inverted : Bool) : List Column := List.replicate n (if inverted then ones he else 0)

/-- An arrow cell (R204). -/
def arrowColumns (c : Config) (m : DisplayMode) (side : Side) (flag invert : Bool) (he : Nat) : List Column :=
  if flag = true ∧ invert = false then romArrow c.rom m.arrowKind side m.fontKind
  else blanks (arrowW m.arrowKind) he invert

/-- A decoded glyph at display column `col` (R205). -/
def cursorColumns (c : Config) (k : FontKind) (he cursorColumn cursorWidth : Nat) (invert : Bool) (g : GlyphCode)
    (col : Nat) : List Column :=
  (glyphColumns c.rom g k).map fun v =>
    if invert ^^ decide (0 < cursorWidth ∧ cursorColumn ≤ col ∧ col < cursorColumn + cursorWidth) then v ^^^ ones he
    else v

/-- The columns of a text line, from its left edge (R203, R206). -/
def lineColumns (c : Config) (m : DisplayMode) (row : Nat) (text : List Byte) (cursorColumn cursorWidth : Nat)
    (invert arrowLeft arrowRight : Bool) : List Column :=
  let he := lineHeight m row
  let seq := decodeText c.charMap text m.charCols (some m.fontKind)
  let pad := m.charCols - textWidth seq
  arrowColumns c m .left arrowLeft invert he
    ++ blanks (pad / 2 * fontW m.fontKind) he invert
    ++ seq.flatMap (fun g => cursorColumns c m.fontKind he cursorColumn cursorWidth invert g.1 g.2)
    ++ blanks ((pad - pad / 2) * fontW m.fontKind) he invert
    ++ arrowColumns c m .right arrowRight invert he

/-- A text line: one piece at the left edge (R206). -/
def linePiece (c : Config) (m : DisplayMode) (row : Nat) (text : List Byte) (cursorColumn cursorWidth : Nat)
    (invert arrowLeft arrowRight : Bool) : Piece :=
  ⟨0, lineTop m row, lineHeight m row,
    lineColumns c m row text cursorColumn cursorWidth invert arrowLeft arrowRight⟩

/-- The width of a text line, whatever it holds (R200, R206). -/
def lineWidth (m : DisplayMode) : Nat := 2 * arrowW m.arrowKind + m.charCols * fontW m.fontKind

/-! ## Barcodes (R271 to R273) -/

/-- The string of a barcode with the patterns of its kept characters (R272, R273): up to its first NUL it is a
string of `'0'` characters, dropped, and then the kept ones: at most 6, and exactly 6 when some are dropped. -/
def BarcodeText (hexString : List Byte) (patterns : List (BitVec 9)) : Prop :=
  ∃ zeros kept, untilNul hexString = zeros ++ kept ∧ (∀ b ∈ zeros, b = 0x30) ∧
    (kept.length = barcodeMaxDigits ∨ (zeros = [] ∧ kept.length ≤ barcodeMaxDigits)) ∧
    code39Patterns kept = some patterns

/-- `sw`, the width of a symbol (R271). -/
def symbolWidth (c : Config) : Nat := 6 * c.barcodeNarrowPx + 3 * c.barcodeWidePx

/-- The width of a barcode of `n` characters (R272). -/
def barcodeWidth (c : Config) (n : Nat) : Nat := 2 * symbolWidth c + n * (symbolWidth c + 1)

/-- A barcode row: the barcode centered in the visible width, the extra blank column on the right (R272). -/
def barcodePiece (c : Config) (hw : HardwareProfile) (m : DisplayMode) (row : Nat) (patterns : List (BitVec 9)) :
    Piece :=
  let cols := barcodeColumns c (fontH m.fontKind) patterns
  let pad := wVis hw - cols.length
  ⟨0, row * fontH m.fontKind + m.topRowOffsetPx, fontH m.fontKind,
    List.replicate (pad / 2) 0 ++ cols ++ List.replicate (pad - pad / 2) 0⟩

/-! ## Screens (R212 to R215) -/

/-- The piece that a row of DRAW_SCREEN draws, when it draws one. -/
def RowShows (c : Config) (hw : HardwareProfile) (m : DisplayMode) (cursorX cursorY : Nat) (cursorOn : Bool)
    (cursorWidth : Nat) (line : ScreenLine) (row : Nat) (p : Piece) : Prop :=
  let here := cursorOn && decide (row = cursorY)
  match line.kind with
  | .barcode =>
    ∃ patterns, BarcodeText line.text patterns ∧ barcodeWidth c patterns.length ≤ wVis hw ∧
      p = barcodePiece c hw m row patterns
  | kind =>
    lineHeight m row ≤ 32 ∧
      p = linePiece c m row line.text (if here then cursorX else 0) (if here then cursorWidth else 0)
        (decide (kind = .invertedText)) line.arrowLeft line.arrowRight

/-- The command that draws a row of DRAW_SCREEN by itself (R212, R213). -/
def rowCommand (cursorX : BitVec 8) (cursorY : BitVec 4) (cursorOn : Bool) (cursorWidth : BitVec 8)
    (line : ScreenLine) (row : Nat) : Instr :=
  let here := cursorOn && decide (row = cursorY.toNat)
  match line.kind with
  | .barcode => .drawBarcode (BitVec.ofNat 4 row) line.text
  | kind =>
    .drawLine (BitVec.ofNat 4 row) line.text (if here then cursorX else 0) (if here then cursorWidth else 0)
      (decide (kind = .invertedText)) line.arrowLeft line.arrowRight

/-- The rows of a screen drawn one command after another, from `s0` (R214): a barcode error is kept in `code`, the
first one counts, and the rows after it are drawn; any other error rejects the whole screen. -/
def drawRows (s0 : State) : List Instr → BitVec 8 → State → Host.Outcome State Fault Refusal
  | [], code, s => .next { drawn s0 s.fb with status := code }
  | i :: rest, code, s =>
    match exec i s with
    | .next t =>
      if t.status = 0x00 ∨ t.status = 0x03 ∨ t.status = 0x04 then
        drawRows s0 rest (if code = 0x00 then t.status else code) t
      else .next (failed s0 t.status)
    | .fault f => .fault f
    | .refused r => .refused r

/-! ## Text without layout (R207) -/

/-- The columns of a text item. -/
def itemColumns (c : Config) (k : FontKind) : TextItem → List Column
  | .glyph g => glyphColumns c.rom g k
  | .blank => List.replicate (fontW k) 0

/-- Whether an item is skipped: a double-width glyph in the 8-pixel font. -/
def itemSkipped (k : FontKind) : TextItem → Bool
  | .glyph g => dbl g && decide (k = .f8x6)
  | .blank => false

/-- The items that are drawn when `room` columns are left: those that fit whole, up to the first that does not. -/
def itemsThatFit (c : Config) (k : FontKind) : Nat → List TextItem → List TextItem
  | _, [] => []
  | room, i :: rest =>
    if itemSkipped k i then itemsThatFit c k room rest
    else if room < (itemColumns c k i).length then []
    else i :: itemsThatFit c k (room - (itemColumns c k i).length) rest

/-- A text from `(x, y)`, truncated at the right edge. -/
def textPiece (c : Config) (hw : HardwareProfile) (k : FontKind) (x y : Nat) (items : List TextItem) : Piece :=
  ⟨x, y, fontH k, (itemsThatFit c k (wVis hw - x) items).flatMap (itemColumns c k)⟩

/-- A string from `(x, y)` (R207). -/
def stringPiece (c : Config) (hw : HardwareProfile) (k : FontKind) (x y : Nat) (bytes : List Byte) : Piece :=
  textPiece c hw k x y ((decodeCodes c.charMap bytes 255 (some k)).map .glyph)

/-! ## Icons (R277, R278) -/

/-- The strip of `MAX_ICONS` slots at the left edge. -/
def stripPiece (c : Config) (m : DisplayMode) (mask : Word) : Piece :=
  ⟨0, m.iconYPx, iconSize m.iconKind, (List.range c.maxIcons).flatMap fun slot =>
    iconColumns c.rom m.iconKind (iconIds c mask)[slot]?⟩

/-- The separator of the 8-pixel icons: one row over the whole visible width. -/
def separatorPiece (hw : HardwareProfile) (m : DisplayMode) : Piece :=
  ⟨0, if m.iconYPx = 0 then 8 else m.iconYPx - 1, 1,
    (List.range (wVis hw)).map fun c => if c % 2 = 0 then 1 else 0⟩

/-- The icon row. -/
def iconPieces (c : Config) (hw : HardwareProfile) (m : DisplayMode) (mask : Word) : List Piece :=
  if m.iconKind = .i8x8 then [stripPiece c m mask, separatorPiece hw m] else [stripPiece c m mask]

/-! ## Clocks (R241 to R261) -/

/-- The columns of a time element (R242). -/
def elemColumns (c : Config) (t : DigitTable) : TimeElem → List Column
  | .digit d => digitColumns c t d
  | .colon => colonColumns c t
  | .blank => List.replicate (digitBlankW c t) 0

/-- The time of a clock face (R250). -/
def timePiece (c : Config) (m : DisplayMode) (hours minutes : Nat) (is12h : Bool) : Piece :=
  let table : DigitTable :=
    if m.clockKind = .l0 ∨ m.clockKind = .l4 then .big32 else if m.clockKind = .l2 then .dig22 else .txt32
  ⟨if is12h then m.clockGeom.timeX12 else m.clockGeom.timeX24, m.clockGeom.timeY,
    if m.clockKind = .l2 then 22 else 32, (timeDigits hours minutes is12h).flatMap (elemColumns c table)⟩

/-- The AM or PM mark of a clock face, in 12-hour format (R250, R252, R254). -/
def labelPieces (s : State) (m : DisplayMode) (hours : Nat) (is12h : Bool) : List Piece :=
  if is12h = false then []
  else if m.clockKind = .l2 then
    [⟨m.clockGeom.labelX, m.clockGeom.labelY, s.cfg.rom.clkIconH,
      if hours < 12 then s.cfg.rom.clkAm else s.cfg.rom.clkPm⟩]
  else
    [textPiece s.cfg s.hw m.fontKind m.clockGeom.labelX m.clockGeom.labelY
      ((if hours < 12 then s.amLabel else s.pmLabel).map .glyph)]

/-- The rest of a clock face (R250, R253, R254). -/
def restPieces (c : Config) (hw : HardwareProfile) (m : DisplayMode) (alarmOn : Bool) (alarm date : List Byte) :
    List Piece :=
  let g := m.clockGeom
  let iconRow :=
    if m.iconKind = .none then []
    else iconPieces c hw m (if alarmOn then 1#32 <<< c.clockAlarmIconBit.val else 0)
  match m.clockKind with
  | .none => []
  | .l0 => if alarmOn then [stringPiece c hw m.fontKind g.alarmX g.alarmY alarm] else []
  | .l1 =>
    (if c.suppressDate = false ∧ date ≠ [] then [stringPiece c hw m.fontKind g.dateX g.dateY date] else []) ++ iconRow
  | .l2 => if alarmOn then [⟨g.alarmX, g.alarmY, c.rom.clkIconH, c.rom.clkAlarm⟩] else []
  | .l3 =>
    if date = [] ∧ alarmOn = false then []
    else
      [stringPiece c hw .f16x8 g.dateX g.dateY
        (if alarmOn then (if date = [] then alarm else date ++ [0x20] ++ alarm) else date)]
  | .l4 => iconRow

/-- The pieces of a clock face (R250). -/
def clockPieces (s : State) (m : DisplayMode) (hours minutes : Nat) (is12h alarmOn : Bool)
    (alarmHours alarmMinutes : Nat) (date : List Byte) : List Piece :=
  [timePiece s.cfg m hours minutes is12h] ++ labelPieces s m hours is12h
    ++ restPieces s.cfg s.hw m alarmOn (alarmText alarmHours alarmMinutes is12h) date

/-- The clock fields in their ranges (R240). -/
def ClockFieldsLegal (hours minutes seconds alarmHours alarmMinutes : BitVec 8) : Prop :=
  hours.toNat ≤ 23 ∧ minutes.toNat ≤ 59 ∧ seconds.toNat ≤ 59 ∧ alarmHours.toNat ≤ 23 ∧ alarmMinutes.toNat ≤ 59

/-- The text of the small clock (R260). -/
def smallClockPiece (s : State) (m : DisplayMode) (p : SmallClockPos) (hours minutes : Nat) (is12h : Bool) : Piece :=
  let item : TimeElem → TextItem := fun e =>
    match e with
    | .digit d => .glyph (charCode s.cfg.charMap (0x30 + d))
    | .colon => .glyph (charCode s.cfg.charMap 0x3A)
    | .blank => .blank
  textPiece s.cfg s.hw m.fontKind p.column p.rowPx
    ((timeDigits hours minutes is12h).map item
      ++ (if is12h then (if hours < 12 then s.amLabel else s.pmLabel).map .glyph else []))

/-- The small clock with what it erases (R260, R261): after a 12-hour draw a 24-hour one blanks the columns from the
end of its text to its extent, or to the right edge. -/
def smallClockPieces (s : State) (m : DisplayMode) (p : SmallClockPos) (hours minutes : Nat) (is12h : Bool) :
    List Piece :=
  let text := smallClockPiece s m p hours minutes is12h
  let fromCol := p.column + text.cols.length
  if is12h = false ∧ s.small12 = true then
    [text, ⟨fromCol, p.rowPx, fontH m.fontKind,
      List.replicate (min (p.column + p.extentPx) (wVis s.hw) - fromCol) 0⟩]
  else [text]

/-! ## UTF-8 (R153, R154) -/

/-- A Unicode scalar value (R152). -/
def isScalar (cp : Nat) : Prop := cp < 0xD800 ∨ (0xE000 ≤ cp ∧ cp < 0x110000)

/-- The UTF-8 sequence of a scalar value. -/
def utf8Bytes (cp : Nat) : List Byte :=
  if cp < 0x80 then [BitVec.ofNat 8 cp]
  else if cp < 0x800 then [BitVec.ofNat 8 (0xC0 + cp / 64), BitVec.ofNat 8 (0x80 + cp % 64)]
  else if cp < 0x10000 then
    [BitVec.ofNat 8 (0xE0 + cp / 4096), BitVec.ofNat 8 (0x80 + cp / 64 % 64), BitVec.ofNat 8 (0x80 + cp % 64)]
  else
    [BitVec.ofNat 8 (0xF0 + cp / 262144), BitVec.ofNat 8 (0x80 + cp / 4096 % 64),
      BitVec.ofNat 8 (0x80 + cp / 64 % 64), BitVec.ofNat 8 (0x80 + cp % 64)]

/-- The layout of a text of scalar values in `limit` cells, `w` of them used (R154, R155). -/
def layoutChars (m : CharMap) (limit : Nat) (k : Option FontKind) : Nat → List Nat → List (GlyphCode × Nat)
  | _, [] => []
  | w, cp :: rest =>
    let g := charCode m cp
    if w = limit then []
    else if dbl g = true ∧ k = some .f8x6 then layoutChars m limit k w rest
    else if limit < w + cells g then []
    else (g, w) :: layoutChars m limit k (w + cells g) rest

/-! ## The blitter's bytes (R135) -/

/-- The byte-level blit (R135), with the top pixel of a page in the most significant bit: the FrameBuffer after it. -/
def byteBlit (cur : Cursor) (v : Column) (fb : Memory) : Memory :=
  let span := cur.roundedHeight
  let a := span - cur.s - cur.heightPx
  let data := (v &&& cur.bitMask).toNat * 2 ^ a
  let mask := cur.bitMask.toNat * 2 ^ a
  (List.range (span / 8)).foldl
    (fun fb k =>
      let i := cur.byteOffset + k
      let dk := BitVec.ofNat 8 (data / 2 ^ (span - 8 - 8 * k))
      let mk := BitVec.ofNat 8 (mask / 2 ^ (span - 8 - 8 * k))
      Memory.write fb i ((Memory.read fb i &&& ~~~mk) ||| (dk &&& mk)))
    fb

/-! ## The words of a frame (R114) -/

/-- The length that a command's format implies (R114). -/
def impliedLength : Instr → Nat
  | .setAmpmLabels am pm => 3 + ceilDiv am.length 4 + ceilDiv pm.length 4
  | .drawLine _ text _ _ _ _ _ => 2 + ceilDiv text.length 4
  | .drawBarcode _ hexString => 2 + ceilDiv hexString.length 4
  | .drawScreen _ _ _ _ lines => 2 + (lines.map fun l => 2 + ceilDiv l.text.length 4).sum
  | .drawClock _ _ _ _ _ _ _ date => 4 + ceilDiv date.length 4
  | .blitColumn _ | .drawSmallClock _ _ _ | .drawIcons _ => 2
  | .grabScreenRegion _ _ _ _ => 5
  | .drawBitmap _ _ width height _ => 5 + ceilDiv (width.toNat * ceilDiv height.toNat 8) 4
  | .init _ | .selectMode _ | .setZoom _ | .setContrast _ | .setPosition _ _ _ | .drawBlankColumns _ _
  | .drawSignalStrength _ => 1

/-! ## Kinds of commands -/

/-- SET_POSITION, BLIT_COLUMN and DRAW_BLANK_COLUMNS: the commands that keep the Cursor (R42). -/
def isBlitter : Instr → Bool
  | .setPosition _ _ _ => true
  | .blitColumn _ => true
  | .drawBlankColumns _ _ => true
  | _ => false

/-- The commands that need INIT (R305). -/
def needsInit : Instr → Bool
  | .init _ => false
  | .setAmpmLabels _ _ => false
  | _ => true

/-- The commands that need MODE_VALID (R305). -/
def needsMode : Instr → Bool
  | .setZoom _ => true
  | .drawLine _ _ _ _ _ _ _ => true
  | .drawScreen _ _ _ _ _ => true
  | .drawBarcode _ _ => true
  | .drawClock _ _ _ _ _ _ _ _ => true
  | .drawSmallClock _ _ _ => true
  | .drawIcons _ => true
  | .drawSignalStrength _ => true
  | _ => false

/-- The STATUS codes that the table of R301 lists for each command. -/
def statusCodes : Instr → List (BitVec 8)
  | .init _ => [0x00, 0x14, 0x15]
  | .selectMode _ => [0x00, 0x07, 0x11]
  | .setZoom _ => [0x00, 0x11]
  | .setContrast _ => [0x00, 0x11, 0x12]
  | .setAmpmLabels _ _ => [0x00]
  | .setPosition _ _ _ => [0x00, 0x11, 0x12]
  | .blitColumn _ => [0x00, 0x06, 0x11, 0x13]
  | .drawBlankColumns _ _ => [0x00, 0x06, 0x11, 0x13]
  | .drawLine _ _ _ _ _ _ _ => [0x00, 0x06, 0x08, 0x11]
  | .drawScreen _ _ _ _ _ => [0x00, 0x03, 0x04, 0x06, 0x08, 0x11]
  | .drawBarcode _ _ => [0x00, 0x03, 0x04, 0x06, 0x08, 0x11]
  | .drawClock _ _ _ _ _ _ _ _ => [0x00, 0x05, 0x06, 0x11, 0x12]
  | .drawSmallClock _ _ _ => [0x00, 0x05, 0x06, 0x11, 0x12]
  | .drawIcons _ => [0x00, 0x06, 0x08, 0x11]
  | .drawSignalStrength _ => [0x00, 0x06, 0x08, 0x11, 0x12]
  | .grabScreenRegion _ _ _ _ => [0x00, 0x06, 0x11]
  | .drawBitmap _ _ _ _ _ => [0x00, 0x06, 0x11]

/-- A state with the fields that only the transmit side reads set to one value each (R76). -/
def forTransmit (s : State) : State :=
  { s with contrast := 0, hw := { s.hw with rowLookup := [], flipBits := false, greyscale := false, hasContrast := false } }

/-- An outcome with a function applied to its next state. -/
def mapNext (f : State → State) : Host.Outcome State Fault Refusal → Host.Outcome State Fault Refusal
  | .next s => .next (f s)
  | .fault e => .fault e
  | .refused r => .refused r

end Sys2Proof.Machine
end

