-- ==== Sys2Proof/Certificates/Slice0/Obligations.lean ====
section
/-! DEFINITION. The statements for the provers: what each command and the machine do, from the rules of spec/. -/

open Sys2Proof Sys2Proof.Machine

/-! ## Encoding (R100 to R117) -/

/-- R100 to R110: the decoder reads every well-formed command back from its frame, every operand at every value. -/
def Obligations.DecodeEncode : Prop :=
  ∀ i : Instr, i.WellFormed = true → decode (encode i) = .ok i

/-- R104, R110, R113: a frame that decodes is the one frame of a well-formed command: no reserved bit, no pad byte and
no word of a legal frame is free. -/
def Obligations.EncodeDecode : Prop :=
  ∀ (f : List Word) (i : Instr), decode f = .ok i → i.WellFormed = true ∧ encode i = f

/-- R117: the worked encodings, in both directions. And the frames of the seven commands whose encoding no statement
of their own gives, for every operand: opcode and header fields (R106, R112), operand words (R107, R109) and strings
(R108). A header or operand word is written from bit 31 down; `PackedStrings` says what the words of a string are. -/
def Obligations.WorkedEncodings : Prop :=
  (encode (.setPosition 8 0 3) = [0x10200003] ∧ decode [0x10200003] = .ok (.setPosition 8 0 3)) ∧
  (encode (.blitColumn 0xA5) = [0x11000000, 0x000000A5] ∧
    decode [0x11000000, 0x000000A5] = .ok (.blitColumn 0xA5)) ∧
  (encode (.drawBlankColumns 4 true) = [0x12010004] ∧ decode [0x12010004] = .ok (.drawBlankColumns 4 true)) ∧
  (encode (.drawLine 1 [0x41, 0x42] 0 0 true false false) = [0x20120000, 0x00000002, 0x00004241] ∧
    decode [0x20120000, 0x00000002, 0x00004241] = .ok (.drawLine 1 [0x41, 0x42] 0 0 true false false)) ∧
  (encode (.drawSignalStrength (BitVec.ofInt 8 (-1))) = [0x260000FF] ∧
    decode [0x260000FF] = .ok (.drawSignalStrength (BitVec.ofInt 8 (-1))) ∧
    signalLevel (BitVec.ofInt 8 (-1)) = -1) ∧
  (∀ (row : BitVec 4) (text : List Byte) (cursorColumn cursorWidth : BitVec 8) (invert arrowLeft arrowRight : Bool),
    encode (.drawLine row text cursorColumn cursorWidth invert arrowLeft arrowRight) =
      (0x20#8 ++ row ++ BitVec.ofBool arrowRight ++ BitVec.ofBool arrowLeft ++ BitVec.ofBool invert ++ 0#1
        ++ cursorColumn ++ cursorWidth) :: encodeStr text) ∧
  (∀ (cursorX : BitVec 8) (cursorY : BitVec 4) (cursorOn : Bool) (cursorWidth : BitVec 8) (lines : List ScreenLine),
    encode (.drawScreen cursorX cursorY cursorOn cursorWidth lines) =
      (0x21#8 ++ cursorX ++ cursorY ++ BitVec.ofBool cursorOn ++ 0#3 ++ cursorWidth) ::
        BitVec.ofNat 32 lines.length ::
        lines.flatMap fun l =>
          (0#28 ++ BitVec.ofBool l.arrowRight ++ BitVec.ofBool l.arrowLeft
            ++ (match l.kind with | .text => 0#2 | .invertedText => 1#2 | .barcode => 2#2)) :: encodeStr l.text) ∧
  (∀ (row : BitVec 4) (hex : List Byte), encode (.drawBarcode row hex) = (0x22#8 ++ row ++ 0#20) :: encodeStr hex) ∧
  (∀ (hours minutes seconds : BitVec 8) (is12h alarmOn : Bool) (alarmHours alarmMinutes : BitVec 8) (date : List Byte),
    encode (.drawClock hours minutes seconds is12h alarmOn alarmHours alarmMinutes date) =
      0x23000000 :: (0#6 ++ BitVec.ofBool alarmOn ++ BitVec.ofBool is12h ++ seconds ++ minutes ++ hours) ::
        (0#16 ++ alarmMinutes ++ alarmHours) :: encodeStr date) ∧
  (∀ (hours minutes : BitVec 8) (is12h : Bool),
    encode (.drawSmallClock hours minutes is12h) =
      [0x24000000, 0#15 ++ BitVec.ofBool is12h ++ minutes ++ hours]) ∧
  (∀ mask : Word, encode (.drawIcons mask) = [0x25000000, mask]) ∧
  (∀ level : BitVec 8, encode (.drawSignalStrength level) = [0x26#8 ++ 0#16 ++ level])

/-- R103, R104: the words of a string are its length and its packed bytes: as many words as hold them, byte `i` in
word `i div 4` at the bits from `8 * (i mod 4)` up, and 0 in the bytes past the last. -/
def Obligations.PackedStrings : Prop :=
  ∀ bytes : List Byte,
    encodeStr bytes = BitVec.ofNat 32 bytes.length :: packBytes bytes ∧
    (packBytes bytes).length = ceilDiv bytes.length 4 ∧
    ∀ i, i < 4 * ceilDiv bytes.length 4 →
      ((packBytes bytes).getD (i / 4) 0).extractLsb' (8 * (i % 4)) 8 = bytes.getD i 0

/-- R110, R112: a header selects at most one row of the opcode map, a frame decodes only when its header selects a
row, and a frame whose header selects none is illegal. -/
def Obligations.HeaderSelectsOneRow : Prop :=
  (∀ (h : Word) (r r' : OpcodeRow), r ∈ opcodeTable → r' ∈ opcodeTable →
    h &&& r.mask = r.value → h &&& r'.mask = r'.value → r = r') ∧
  (∀ (h : Word) (payload : List Word) (i : Instr), decode (h :: payload) = .ok i →
    ∃ r ∈ opcodeTable, h &&& r.mask = r.value) ∧
  (∀ (h : Word) (payload : List Word), (∀ r ∈ opcodeTable, h &&& r.mask ≠ r.value) →
    ∃ e, decode (h :: payload) = .error e)

/-- R114: a frame that decodes has the length that its command's format implies. -/
def Obligations.FrameLength : Prop :=
  ∀ (f : List Word) (i : Instr), decode f = .ok i → f.length = impliedLength i

/-! ## The machine (R31, R42, R46 to R51, R76, R79, R300 to R305, R350 to R369) -/

/-- R31, R100, R360: a step takes the next event of the inbox; a frame that decodes runs as its command, whatever is
in the FrameBuffer, and the frame placed by `withFetchWord` is the next one. The inbox is the model's own field
(assumption 7). -/
def Obligations.StepRunsDecoded : Prop :=
  (∀ (s : State) (f : List Word) (rest : List HostEvent) (i : Instr),
    s.inbox = .submit f :: rest → decode f = .ok i → step s = exec i { s with inbox := rest }) ∧
  (∀ (s : State) (nbits w : Nat) (i : Instr),
    decodeTableWord nbits w = some i → step (s.withFetchWord nbits w) = exec i s)

/-- R110: an illegal frame writes the result registers with code 0x10 and changes nothing else. -/
def Obligations.IllegalFrame : Prop :=
  ∀ (s : State) (f : List Word) (rest : List HostEvent) (e : DecodeError),
    s.inbox = .submit f :: rest → decode f = .error e →
      step s = .next { s with inbox := rest, status := 0x10, result := 0, rdata := [] }

/-- R79, R314, R350: a host read changes nothing and is refused at and past `len(FB)`; the reset event gives the reset
state; with no event the core keeps its state. That the events wait in an inbox, which a reset keeps, and that a step
without an event is one that changes nothing, are the model's own choices (assumptions 7, 8 and 10). -/
def Obligations.HostEvents : Prop :=
  ∀ (s : State) (rest : List HostEvent),
    (∀ i, s.inbox = .readFb i :: rest → i < fbLen s → step s = .next { s with inbox := rest }) ∧
    (∀ i, s.inbox = .readFb i :: rest → fbLen s ≤ i → step s = .refused .fbReadOutOfRange) ∧
    (s.inbox = .reset :: rest → step s = .next { resetState s.cfg with inbox := rest }) ∧
    (s.inbox = [] → step s = .next s)

/-- R351: the value after reset of every field for which the rule gives one, under every configuration; the fields it
leaves unspecified are not spoken of. -/
def Obligations.ResetValues : Prop :=
  (∀ c : Config,
    (resetState c).init = false ∧ hostFrameBuffer (resetState c) = [] ∧ (resetState c).modeValid = false ∧
    (resetState c).zoomed = false ∧ (resetState c).cur.valid = false ∧
    (resetState c).amLabel = (decodeText c.charMap [0x41, 0x4D] c.ampmCap none).map Prod.fst ∧
    (resetState c).pmLabel = (decodeText c.charMap [0x50, 0x4D] c.ampmCap none).map Prod.fst ∧
    (resetState c).contrast = 50 ∧ (resetState c).small12 = false ∧ (resetState c).status = 0x00 ∧
    (resetState c).result = 0 ∧ (resetState c).rdata = []) ∧
  State.reset = resetState params

/-- R352: the reset state keeps every invariant. -/
def Obligations.ResetInvariant : Prop := Invariant State.reset

/-- R51, R72, R86: every step keeps the invariants of the core. -/
def Obligations.StepKeepsInvariant : Prop :=
  ∀ s t : State, Invariant s → step s = .next t → Invariant t

/-- R31, R360, R369: a step always ends in a next state, which has taken exactly the one event and the same
configuration; only a host read past the FrameBuffer has none. The inbox is the model's own field, and a step without an event is one
that changes nothing (assumptions 7 and 8). -/
def Obligations.StepProgress : Prop :=
  ∀ s : State, Invariant s → (∀ i, s.inbox.head? = some (.readFb i) → i < fbLen s) →
    ∃ t, step s = .next t ∧ t.inbox = s.inbox.tail ∧ t.cfg = s.cfg

/-- R300: a command that ends with an error changes the result registers and, but for the three blitter commands,
drops the Cursor, and nothing else; DRAW_SCREEN's per-line errors (R214) are the exception. -/
def Obligations.ErrorChangesNothing : Prop :=
  ∀ (i : Instr) (s t : State), exec i s = .next t → t.status ≠ 0x00 →
    (∀ cursorX cursorY cursorOn cursorWidth lines, i = .drawScreen cursorX cursorY cursorOn cursorWidth lines →
      t.status ≠ 0x03 ∧ t.status ≠ 0x04) →
    t = if isBlitter i then failedKeepingCursor s t.status else failed s t.status

/-- R301, R302: a command ends with a STATUS code that the table of codes lists for it. -/
def Obligations.StatusCodes : Prop :=
  ∀ (i : Instr) (s t : State), exec i s = .next t → t.status ∈ statusCodes i

/-- R305: a command whose requirement is not met ends with its error, and changes nothing else. -/
def Obligations.Requirements : Prop :=
  ∀ (i : Instr) (s : State),
    ((needsInit i = true ∧ s.init = false) ∨ (needsMode i = true ∧ s.modeValid = false) →
      exec i s = .next (if isBlitter i then failedKeepingCursor s 0x11 else failed s 0x11)) ∧
    (∀ id, i = .init id → s.init = true → exec i s = .next (failed s 0x15)) ∧
    (∀ v, i = .blitColumn v → s.init = true → s.cur.valid = false → exec i s = .next (failedKeepingCursor s 0x13)) ∧
    (∀ n inverted, i = .drawBlankColumns n inverted → 0 < n.toNat → s.init = true → s.cur.valid = false →
      exec i s = .next (failedKeepingCursor s 0x13))

/-- R287: no command changes the HardwareProfile of an initialized core or returns it to the uninitialized state; the
reset event does. -/
def Obligations.ProfileFixed : Prop :=
  (∀ (i : Instr) (s t : State), exec i s = .next t → s.init = true → t.init = true ∧ t.hw = s.hw) ∧
  (∀ (s : State) (rest : List HostEvent), s.inbox = .reset :: rest → ∃ t, step s = .next t ∧ t.init = false)

/-- R42: after every command but the three blitter commands the Cursor is not valid, whether it succeeds or fails; a
failed blitter command and an illegal frame leave it as it was. -/
def Obligations.CursorDropped : Prop :=
  (∀ (i : Instr) (s t : State), exec i s = .next t →
    (isBlitter i = false → t.cur.valid = false) ∧ (isBlitter i = true → t.status ≠ 0x00 → t.cur = s.cur)) ∧
  (∀ (s : State) (f : List Word) (e : DecodeError), decode f = .error e →
    ∃ t, runFrame f s = .next t ∧ t.cur = s.cur)

/-- R47, R48: only a SET_ZOOM that succeeds writes RESULT, and only a GRAB_SCREEN_REGION that succeeds writes RDATA;
after any other command they are 0 and empty. -/
def Obligations.ResultRegisters : Prop :=
  ∀ (i : Instr) (s t : State), exec i s = .next t →
    ((t.status ≠ 0x00 ∨ ∀ on, i ≠ .setZoom on) → t.result = 0) ∧
    ((t.status ≠ 0x00 ∨ ∀ left top width height, i ≠ .grabScreenRegion left top width height) → t.rdata = [])

/-- R35, R36, R39, R43 to R45: which commands write which state; every other command keeps it. That the parameters
of R8 and the frames of R31 still to come stand in State, as the fields `cfg` and `inbox` that no command changes, is
the model's own choice (assumptions 1 and 7). -/
def Obligations.StateWriters : Prop :=
  ∀ (i : Instr) (s t : State), exec i s = .next t →
    (t.cfg = s.cfg ∧ t.inbox = s.inbox) ∧
    ((∀ id, i ≠ .init id) → t.init = s.init ∧ t.hw = s.hw) ∧
    ((∀ id, i ≠ .init id) → (∀ id, i ≠ .selectMode id) → (∀ on, i ≠ .setZoom on) →
      t.modeValid = s.modeValid ∧ t.modeId = s.modeId ∧ t.zoomed = s.zoomed ∧ t.baseModeId = s.baseModeId ∧
      ((∀ h m is12h, i ≠ .drawSmallClock h m is12h) → t.small12 = s.small12)) ∧
    ((∀ am pm, i ≠ .setAmpmLabels am pm) → t.amLabel = s.amLabel ∧ t.pmLabel = s.pmLabel) ∧
    ((∀ level, i ≠ .setContrast level) → t.contrast = s.contrast) ∧
    ((∃ am pm, i = .setAmpmLabels am pm) ∨ (∃ level, i = .setContrast level) ∨
      (∃ h c r, i = .setPosition h c r) ∨ (∃ l p w h, i = .grabScreenRegion l p w h) → t.fb = s.fb)

/-- R76: no command reads the transmit-side fields or the contrast: from two states that differ in them only, every
command ends alike, up to those fields. -/
def Obligations.TransmitFieldsIgnored : Prop :=
  ∀ (i : Instr) (s s' : State), forTransmit s = forTransmit s' →
    mapNext forTransmit (exec i s) = mapNext forTransmit (exec i s')

/-! ## The blitter (R75, R131 to R138) -/

/-- R131: SET_POSITION, in every state and for every operand. -/
def Obligations.SetPosition : Prop :=
  ∀ (h : BitVec 6) (c : BitVec 10) (r : BitVec 8) (s : State),
    encode (.setPosition h c r) = [0x10#8 ++ h ++ c ++ r] ∧
    (s.init = false → exec (.setPosition h c r) s = .next (failedKeepingCursor s 0x11)) ∧
    (s.init = true → h.toNat < 1 ∨ 32 < h.toNat → exec (.setPosition h c r) s = .next (failedKeepingCursor s 0x12)) ∧
    (s.init = true → 1 ≤ h.toNat → h.toNat ≤ 32 →
      exec (.setPosition h c r) s = .next { s with
        cur :=
          { valid := true
            column := c.toNat
            rowPx := r.toNat
            heightPx := h.toNat
            s := (r.toNat + s.hw.yOffset) % 8
            shift := -(((r.toNat + s.hw.yOffset) % 8 : Nat) : Int)
            byteOffset :=
              (c.toNat + s.hw.xOffset) * ceilDiv (s.hw.heightPx + s.hw.yOffset) 8 + (r.toNat + s.hw.yOffset) / 8
            bitMask := BitVec.ofNat 32 (2 ^ h.toNat - 1)
            roundedHeight := 8 * ceilDiv ((r.toNat + s.hw.yOffset) % 8 + h.toNat) 8 }
        status := 0x00, result := 0, rdata := [] })

/-- R132 to R134: BLIT_COLUMN writes the pixels of its column and advances the Cursor, or ends with the error of the
first requirement that fails. -/
def Obligations.BlitColumn : Prop :=
  ∀ (v : Word) (s : State), Invariant s →
    encode (.blitColumn v) = [0x11000000, v] ∧
    (s.init = false → exec (.blitColumn v) s = .next (failedKeepingCursor s 0x11)) ∧
    (s.init = true → s.cur.valid = false → exec (.blitColumn v) s = .next (failedKeepingCursor s 0x13)) ∧
    (s.cur.valid = true →
      ¬ (s.cur.column < wVis s.hw ∧ s.cur.rowPx + s.cur.heightPx ≤ s.hw.heightPx) →
      exec (.blitColumn v) s = .next (failedKeepingCursor s 0x06)) ∧
    (s.cur.valid = true → s.cur.column < wVis s.hw → s.cur.rowPx + s.cur.heightPx ≤ s.hw.heightPx →
      ∃ t, exec (.blitColumn v) s = .next t ∧
        t = { s with
          fb := t.fb
          cur := { s.cur with column := s.cur.column + 1, byteOffset := s.cur.byteOffset + bpc s.hw }
          status := 0x00, result := 0, rdata := [] } ∧
        Painted s t (inRect s.cur.column s.cur.rowPx 1 s.cur.heightPx)
          (fun _ y => v.getLsbD (s.cur.heightPx - 1 - (y - s.cur.rowPx))))

/-- R136: DRAW_BLANK_COLUMNS writes all its columns, or none. -/
def Obligations.DrawBlankColumns : Prop :=
  ∀ (n : BitVec 16) (inverted : Bool) (s : State), Invariant s →
    encode (.drawBlankColumns n inverted) = [0x12#8 ++ 0#7 ++ BitVec.ofBool inverted ++ n] ∧
    (s.init = false → exec (.drawBlankColumns n inverted) s = .next (failedKeepingCursor s 0x11)) ∧
    (s.init = true → 0 < n.toNat → s.cur.valid = false →
      exec (.drawBlankColumns n inverted) s = .next (failedKeepingCursor s 0x13)) ∧
    (s.cur.valid = true → 0 < n.toNat →
      ¬ (s.cur.column + n.toNat ≤ wVis s.hw ∧ s.cur.rowPx + s.cur.heightPx ≤ s.hw.heightPx) →
      exec (.drawBlankColumns n inverted) s = .next (failedKeepingCursor s 0x06)) ∧
    (s.init = true → n.toNat = 0 → exec (.drawBlankColumns n inverted) s = .next
      { s with status := 0x00, result := 0, rdata := [] }) ∧
    (s.cur.valid = true → s.cur.column + n.toNat ≤ wVis s.hw → s.cur.rowPx + s.cur.heightPx ≤ s.hw.heightPx →
      ∃ t, exec (.drawBlankColumns n inverted) s = .next t ∧
        t = { s with
          fb := t.fb
          cur := { s.cur with
            column := s.cur.column + n.toNat, byteOffset := s.cur.byteOffset + n.toNat * bpc s.hw }
          status := 0x00, result := 0, rdata := [] } ∧
        Painted s t (inRect s.cur.column s.cur.rowPx n.toNat s.cur.heightPx) (fun _ _ => inverted))

/-- R135: when the check of the blit passes, the byte-level algorithm of masks and shifts leaves the same FrameBuffer
as the per-pixel one. -/
def Obligations.ByteLevelBlit : Prop :=
  ∀ (v : Column) (s : State), Invariant s → s.cur.valid = true →
    s.cur.column < wVis s.hw → s.cur.rowPx + s.cur.heightPx ≤ s.hw.heightPx →
    ∃ t, blit v s = .ok t ∧ t.fb = byteBlit s.cur v s.fb

/-- R137: the Cursor after a `setpos` and any number of blits, and where blit `i` painted. -/
def Obligations.CursorAfterBlits : Prop :=
  ∀ (h c r : Nat) (vs : List Column) (s u t : State), Memory.wf s.fb = true →
    setpos h c r s = .ok u → blitAll vs u = .ok t →
    t.cur.column = c + vs.length ∧
    t.cur.byteOffset = (c + vs.length + s.hw.xOffset) * bpc s.hw + (r + s.hw.yOffset) / 8 ∧
    ∀ i j, i < vs.length → j < h → pixRead t (c + i) (r + j) = (vs.getD i 0).getLsbD (h - 1 - j)

/-- R138: shift correctness of an 8-bit value at a row that is not page-aligned. -/
def Obligations.ShiftCorrectness : Prop :=
  ∀ (v : Byte) (s t : State), Invariant s → s.cur.valid = true → s.cur.heightPx = 8 → s.cur.s ≠ 0 →
    blit (v.setWidth 32) s = .ok t →
    let b0 := Memory.read t.fb s.cur.byteOffset
    let b1 := Memory.read t.fb (s.cur.byteOffset + 1)
    ((b0 &&& BitVec.ofNat 8 (2 ^ (8 - s.cur.s) - 1)) <<< s.cur.s) ||| (b1 >>> (8 - s.cur.s)) = v ∧
    b0 >>> (8 - s.cur.s) = Memory.read s.fb s.cur.byteOffset >>> (8 - s.cur.s) ∧
    b1 &&& BitVec.ofNat 8 (2 ^ (8 - s.cur.s) - 1) =
      Memory.read s.fb (s.cur.byteOffset + 1) &&& BitVec.ofNat 8 (2 ^ (8 - s.cur.s) - 1) ∧
    ∀ i, i ≠ s.cur.byteOffset → i ≠ s.cur.byteOffset + 1 → Memory.read t.fb i = Memory.read s.fb i

/-- R75: every visible pixel lies in the FrameBuffer, and two of them never share a bit. -/
def Obligations.VisiblePixels : Prop :=
  ∀ (o : PixelBitOrder) (hw : HardwareProfile) (c y : Nat), visible hw c y = true →
    pixIndex hw c y < fbSize hw ∧ pixBit o hw y < 8 ∧
    ∀ c' y', visible hw c' y' = true → (pixIndex hw c y, pixBit o hw y) = (pixIndex hw c' y', pixBit o hw y') →
      c = c' ∧ y = y'

/-! ## Text decoding (R153 to R157) -/

/-- R153 to R155: a string that is the UTF-8 of characters other than NUL, followed by bytes that begin no such
sequence (nothing, a NUL, or malformed bytes), decodes to the layout of those characters. -/
def Obligations.DecodeUtf8 : Prop :=
  ∀ (m : CharMap) (limit : Nat) (k : Option FontKind) (chars : List Nat) (tail : List Byte),
    (∀ cp ∈ chars, isScalar cp ∧ cp ≠ 0) →
    (∀ cp rest, isScalar cp → cp ≠ 0 → tail ≠ utf8Bytes cp ++ rest) →
    decodeText m (chars.flatMap utf8Bytes ++ tail) limit k = layoutChars m limit k 0 chars

/-- R154, R155, R157: a decoded text never exceeds its limit, each glyph stands where the ones before it end, and the
8-pixel font gets no double-width glyph. -/
def Obligations.DecodeWidth : Prop :=
  ∀ (m : CharMap) (bytes : List Byte) (limit : Nat) (k : Option FontKind),
    textWidth (decodeText m bytes limit k) ≤ limit ∧
    (∀ before g col after, decodeText m bytes limit k = before ++ (g, col) :: after → col = textWidth before) ∧
    (k = some .f8x6 → ∀ g col, (g, col) ∈ decodeText m bytes limit k → dbl g = false)

/-! ## Text lines and screens (R200 to R215) -/

/-- R200 to R206: DRAW_LINE draws its line, whatever the text's bytes are, and changes nothing else. That the
Cursor's fields but `valid` stay as they were is the model's reading of R42 (assumption 4). -/
def Obligations.DrawLineDraws : Prop :=
  ∀ (row : BitVec 4) (text : List Byte) (cc cw : BitVec 8) (invert aL aR : Bool) (s : State) (m : DisplayMode),
    Active s m → row.toNat < m.charRows → lineHeight m row.toNat ≤ 32 →
    lineWidth m = 0 ∨ (lineWidth m ≤ wVis s.hw ∧ lineTop m row.toNat + lineHeight m row.toNat ≤ s.hw.heightPx) →
    (linePiece s.cfg m row.toNat text cc.toNat cw.toNat invert aL aR).cols.length = lineWidth m ∧
    ∃ t, exec (.drawLine row text cc cw invert aL aR) s = .next t ∧ t = drawn s t.fb ∧
      Shows s t [linePiece s.cfg m row.toNat text cc.toNat cw.toNat invert aL aR]

/-- R201, R202, R209: what DRAW_LINE rejects, in this order: a row the mode does not have, an effective height above
32, a line that is not wholly visible. -/
def Obligations.DrawLineRejects : Prop :=
  ∀ (row : BitVec 4) (text : List Byte) (cc cw : BitVec 8) (invert aL aR : Bool) (s : State) (m : DisplayMode),
    Active s m →
    (m.charRows ≤ row.toNat → exec (.drawLine row text cc cw invert aL aR) s = .next (failed s 0x08)) ∧
    (32 < lineHeight m row.toNat → exec (.drawLine row text cc cw invert aL aR) s = .next (failed s 0x08)) ∧
    (row.toNat < m.charRows → lineHeight m row.toNat ≤ 32 → 0 < lineWidth m →
      ¬ (lineWidth m ≤ wVis s.hw ∧ lineTop m row.toNat + lineHeight m row.toNat ≤ s.hw.heightPx) →
      exec (.drawLine row text cc cw invert aL aR) s = .next (failed s 0x06))

/-- R212, R213, R215: DRAW_SCREEN draws every text row of the mode, the rows past the given lines as empty lines, a
later row over an earlier one, and changes nothing else: every row draws here, and `DrawScreenByRows` says what a
barcode row that fails does. That the Cursor's fields but `valid` stay as they were is the model's reading of R42
(assumption 4). -/
def Obligations.DrawScreenDraws : Prop :=
  ∀ (cx : BitVec 8) (cy : BitVec 4) (on : Bool) (cw : BitVec 8) (lines : List ScreenLine) (s : State)
    (m : DisplayMode) (ps : List Piece),
    Active s m → lines.length ≤ m.charRows → ps.length = m.charRows →
    (∀ r p, ps[r]? = some p →
      RowShows s.cfg s.hw m cx.toNat cy.toNat on cw.toNat (lines.getD r ⟨.text, false, false, []⟩) r p ∧
      p.fits s.hw) →
    ∃ t, exec (.drawScreen cx cy on cw lines) s = .next t ∧ t = drawn s t.fb ∧ Shows s t ps

/-- R212 to R215, R304: DRAW_SCREEN is the drawing of its rows one command after another, per-line barcode errors
reported at the end and any other error rejecting it whole; more lines than rows are rejected. That the Cursor's
fields but `valid` end as they were before the screen is the model's reading of R42 (assumption 4). -/
def Obligations.DrawScreenByRows : Prop :=
  ∀ (cx : BitVec 8) (cy : BitVec 4) (on : Bool) (cw : BitVec 8) (lines : List ScreenLine) (s : State)
    (m : DisplayMode), Active s m →
    (m.charRows < lines.length → exec (.drawScreen cx cy on cw lines) s = .next (failed s 0x08)) ∧
    (lines.length ≤ m.charRows →
      exec (.drawScreen cx cy on cw lines) s =
        drawRows s
          ((List.range m.charRows).map fun r => rowCommand cx cy on cw (lines.getD r ⟨.text, false, false, []⟩) r)
          0x00 s)

/-! ## Barcodes (R270 to R275) -/

/-- R270, R273: the pattern of each of the sixteen characters and of START_STOP; each has exactly three wide elements,
no two of the seventeen are the same, and a lowercase letter has the pattern of its uppercase one. -/
def Obligations.Code39Table : Prop :=
  let chars : List Byte := [0x30, 0x31, 0x32, 0x33, 0x34, 0x35, 0x36, 0x37, 0x38, 0x39, 0x41, 0x42, 0x43, 0x44, 0x45, 0x46]
  let patterns := code39StartStop :: chars.filterMap code39?
  chars.map code39? =
    [some 0x034, some 0x121, some 0x061, some 0x160, some 0x031, some 0x130, some 0x070, some 0x025,
      some 0x124, some 0x064, some 0x109, some 0x049, some 0x148, some 0x019, some 0x118, some 0x058] ∧
  code39StartStop = 0x094 ∧ patterns.length = 17 ∧ patterns.Nodup ∧
    (∀ p ∈ patterns, ((List.range 9).filter fun e => p.getLsbD e).length = 3) ∧
    (∀ b ∈ chars, 0x41 ≤ b.toNat → code39? (b + 0x20) = code39? b)

/-- R271 to R273: DRAW_BARCODE draws its symbols, centered over the whole visible width, and changes nothing else.
That the Cursor's fields but `valid` stay as they were is the model's reading of R42 (assumption 4). -/
def Obligations.DrawBarcodeDraws : Prop :=
  ∀ (row : BitVec 4) (hex : List Byte) (s : State) (m : DisplayMode) (patterns : List (BitVec 9)),
    Active s m → row.toNat < m.charRows → BarcodeText hex patterns →
    barcodeWidth s.cfg patterns.length ≤ wVis s.hw →
    row.toNat * fontH m.fontKind + m.topRowOffsetPx + fontH m.fontKind ≤ s.hw.heightPx →
    (barcodeColumns s.cfg (fontH m.fontKind) patterns).length = barcodeWidth s.cfg patterns.length ∧
    ∃ t, exec (.drawBarcode row hex) s = .next t ∧ t = drawn s t.fb ∧
      Shows s t [barcodePiece s.cfg s.hw m row.toNat patterns]

/-- R272, R304: what DRAW_BARCODE rejects, in this order: the row, an excess character that is not `'0'`, a kept
character without a pattern, a symbol wider than the visible width, a row that is not wholly visible. -/
def Obligations.DrawBarcodeRejects : Prop :=
  ∀ (row : BitVec 4) (hex : List Byte) (s : State) (m : DisplayMode), Active s m →
    (m.charRows ≤ row.toNat → exec (.drawBarcode row hex) s = .next (failed s 0x08)) ∧
    (∀ excess kept b, row.toNat < m.charRows → untilNul hex = excess ++ kept → kept.length = 6 →
      b ∈ excess → b ≠ 0x30 → exec (.drawBarcode row hex) s = .next (failed s 0x03)) ∧
    (∀ zeros kept b, row.toNat < m.charRows → untilNul hex = zeros ++ kept → (∀ z ∈ zeros, z = 0x30) →
      kept.length = 6 ∨ (zeros = [] ∧ kept.length ≤ 6) → b ∈ kept → code39? b = none →
      exec (.drawBarcode row hex) s = .next (failed s 0x04)) ∧
    (∀ patterns, row.toNat < m.charRows → BarcodeText hex patterns →
      wVis s.hw < barcodeWidth s.cfg patterns.length → exec (.drawBarcode row hex) s = .next (failed s 0x03)) ∧
    (∀ patterns, row.toNat < m.charRows → BarcodeText hex patterns →
      barcodeWidth s.cfg patterns.length ≤ wVis s.hw →
      s.hw.heightPx < row.toNat * fontH m.fontKind + m.topRowOffsetPx + fontH m.fontKind →
      exec (.drawBarcode row hex) s = .next (failed s 0x06))

/-- R275: leading `'0'` characters before six characters change nothing. A barcode string ends at its first NUL
(R273), so the six characters are not NUL. -/
def Obligations.LeadingZeros : Prop :=
  ∀ (row : BitVec 4) (zeros t : List Byte) (s : State),
    (∀ b ∈ zeros, b = 0x30) → t.length = 6 → (∀ b ∈ t, b ≠ 0) →
    exec (.drawBarcode row (zeros ++ t)) s = exec (.drawBarcode row t) s

/-- R271, R274: the columns of a barcode give its patterns back: symbol `n` stands after START and the `n` symbols
and gaps before it, its nine elements alternate ink and background, and their widths are its pattern; so two barcodes
with the same columns have the same patterns, and so the same characters up to letter case (R273). -/
def Obligations.BarcodeReadsBack : Prop :=
  ∀ (c : Config) (h : Nat), configLegal c = true → 1 ≤ h → h ≤ 32 →
    (∀ (before after : List (BitVec 9)) (p : BitVec 9) (bytes : List Byte),
      code39Patterns bytes = some (before ++ p :: after) →
      ((barcodeColumns c h (before ++ p :: after)).drop
          (symbolWidth c + before.length * (symbolWidth c + 1))).take (symbolWidth c + 1) =
        ((List.range 9).flatMap fun e =>
          List.replicate (if p.getLsbD (8 - e) then c.barcodeWidePx else c.barcodeNarrowPx)
            (if e % 2 = 0 then ones h else 0)) ++ [0]) ∧
    (∀ (bs bs' : List Byte) (ps ps' : List (BitVec 9)), code39Patterns bs = some ps → code39Patterns bs' = some ps' →
      barcodeColumns c h ps = barcodeColumns c h ps' → ps = ps')

/-! ## Clocks (R240 to R264) -/

/-- R263: the clock round-trip. -/
def Obligations.TimeDigits : Prop :=
  (∀ mi, (timeDigits 0 mi true).take 2 = [.digit 1, .digit 2] ∧ (timeDigits 12 mi true).take 2 = [.digit 1, .digit 2] ∧
    (timeDigits 13 mi true).take 2 = [.blank, .digit 1]) ∧
  (∀ h is12h, (timeDigits h 59 is12h).drop 3 = [.digit 5, .digit 9] ∧
    (timeDigits h 5 is12h).drop 3 = [.digit 0, .digit 5])

/-- R250 to R254: DRAW_CLOCK clears the screen, draws the pieces of the mode's layout in their order, and changes
nothing else. That the Cursor's fields but `valid` stay as they were is the model's reading of R42 (assumption 4). -/
def Obligations.DrawClockDraws : Prop :=
  ∀ (h mi sec : BitVec 8) (is12h on : Bool) (ah am : BitVec 8) (date : List Byte) (s : State) (m : DisplayMode),
    Active s m → ClockFieldsLegal h mi sec ah am → m.clockKind ≠ .none →
    (∀ p ∈ clockPieces s m h.toNat mi.toNat is12h on ah.toNat am.toNat date, p.fits s.hw) →
    ∃ t, exec (.drawClock h mi sec is12h on ah am date) s = .next t ∧ t = drawn s t.fb ∧
      Shows (clearFb s) t (clockPieces s m h.toNat mi.toNat is12h on ah.toNat am.toNat date)

/-- R240, R250, R304: what DRAW_CLOCK rejects, in this order: a field out of its range, a mode without a clock
layout, a piece that is not wholly visible; the screen is then not cleared. -/
def Obligations.DrawClockRejects : Prop :=
  ∀ (h mi sec : BitVec 8) (is12h on : Bool) (ah am : BitVec 8) (date : List Byte) (s : State) (m : DisplayMode),
    Active s m →
    (¬ ClockFieldsLegal h mi sec ah am → exec (.drawClock h mi sec is12h on ah am date) s = .next (failed s 0x12)) ∧
    (ClockFieldsLegal h mi sec ah am → m.clockKind = .none →
      exec (.drawClock h mi sec is12h on ah am date) s = .next (failed s 0x05)) ∧
    (ClockFieldsLegal h mi sec ah am → m.clockKind ≠ .none →
      (∃ p ∈ clockPieces s m h.toNat mi.toNat is12h on ah.toNat am.toNat date, ¬ p.fits s.hw) →
      exec (.drawClock h mi sec is12h on ah am date) s = .next (failed s 0x06))

/-- R264: the FrameBuffer after a successful DRAW_CLOCK does not depend on the one before it, nor on the Cursor and
the results. -/
def Obligations.ClockForgetsScreen : Prop :=
  ∀ (h mi sec : BitVec 8) (is12h on : Bool) (ah am : BitVec 8) (date : List Byte) (s t : State) (fb : Memory)
    (cur : Cursor) (status : BitVec 8) (result : BitVec 32) (rdata : List Word),
    exec (.drawClock h mi sec is12h on ah am date) s = .next t → t.status = 0x00 →
    ∃ t', exec (.drawClock h mi sec is12h on ah am date)
        { s with fb := fb, cur := cur, status := status, result := result, rdata := rdata } = .next t' ∧
      t'.status = 0x00 ∧ t'.fb = t.fb

/-- R260, R261: DRAW_SMALL_CLOCK draws its text, erases the stale columns of a 12-hour draw, notes the format, and
changes nothing else. That the Cursor's fields but `valid` stay as they were is the model's reading of R42
(assumption 4). -/
def Obligations.DrawSmallClockDraws : Prop :=
  ∀ (h mi : BitVec 8) (is12h : Bool) (s : State) (m : DisplayMode) (pos : SmallClockPos),
    Active s m → h.toNat ≤ 23 → mi.toNat ≤ 59 → m.smallClock = some pos →
    (∀ p ∈ smallClockPieces s m pos h.toNat mi.toNat is12h, p.fits s.hw) →
    ∃ t, exec (.drawSmallClock h mi is12h) s = .next t ∧ t = { drawn s t.fb with small12 := is12h } ∧
      Shows s t (smallClockPieces s m pos h.toNat mi.toNat is12h)

/-- R260, R304: what DRAW_SMALL_CLOCK rejects, in this order: an hour or minute out of range, a mode without a small
clock, a draw that is not wholly visible. -/
def Obligations.DrawSmallClockRejects : Prop :=
  ∀ (h mi : BitVec 8) (is12h : Bool) (s : State) (m : DisplayMode), Active s m →
    (23 < h.toNat ∨ 59 < mi.toNat → exec (.drawSmallClock h mi is12h) s = .next (failed s 0x12)) ∧
    (h.toNat ≤ 23 → mi.toNat ≤ 59 → m.smallClock = none →
      exec (.drawSmallClock h mi is12h) s = .next (failed s 0x05)) ∧
    (∀ pos, h.toNat ≤ 23 → mi.toNat ≤ 59 → m.smallClock = some pos →
      (∃ p ∈ smallClockPieces s m pos h.toNat mi.toNat is12h, ¬ p.fits s.hw) →
      exec (.drawSmallClock h mi is12h) s = .next (failed s 0x06))

/-- R262: SET_AMPM_LABELS, in every state and for every pair of strings. -/
def Obligations.SetAmpmLabels : Prop :=
  ∀ (am pm : List Byte) (s : State),
    encode (.setAmpmLabels am pm) = 0x05000000 :: (encodeStr am ++ encodeStr pm) ∧
    exec (.setAmpmLabels am pm) s = .next { drawn s s.fb with
      amLabel := (decodeText s.cfg.charMap am s.cfg.ampmCap none).map Prod.fst
      pmLabel := (decodeText s.cfg.charMap pm s.cfg.ampmCap none).map Prod.fst }

/-! ## Icons and the signal glyph (R276 to R281) -/

/-- R276 to R278: DRAW_ICONS draws the strip and, with 8-pixel icons, the separator, and changes nothing else. That
the Cursor's fields but `valid` stay as they were is the model's reading of R42 (assumption 4). -/
def Obligations.DrawIconsDraws : Prop :=
  ∀ (mask : Word) (s : State) (m : DisplayMode), Active s m → m.iconKind ≠ .none →
    (∀ p ∈ iconPieces s.cfg s.hw m mask, p.fits s.hw) →
    ∃ t, exec (.drawIcons mask) s = .next t ∧ t = drawn s t.fb ∧ Shows s t (iconPieces s.cfg s.hw m mask)

/-- R277, R279: which icon stands in which slot of the strip: the icon of a set and mapped bit in the slot whose
number is the count of set and mapped bits below it, a blank icon in every slot past them; each slot is as wide as
an icon is high. -/
def Obligations.IconSlots : Prop :=
  ∀ (c : Config) (m : DisplayMode) (mask : Word) (slot : Nat),
    configLegal c = true → m.iconKind ≠ .none → slot < c.maxIcons →
    let size := iconSize m.iconKind
    let mapped : Nat → Bool := fun b => mask.getLsbD b && (iconOf c b).isSome
    let below : Nat → Nat := fun b => ((List.range b).filter mapped).length
    let shown := ((stripPiece c m mask).cols.drop (slot * size)).take size
    (stripPiece c m mask).cols.length = c.maxIcons * size ∧
    (∀ b id, b < 32 → mask.getLsbD b = true → iconOf c b = some id → below b = slot →
      shown = if m.iconKind = .i8x8 then romIcon8 c.rom id else romIcon16 c.rom id) ∧
    (below 32 ≤ slot → shown = if m.iconKind = .i8x8 then c.rom.iconBlank8 else c.rom.iconBlank16)

/-- R276, R304: what DRAW_ICONS rejects: a mode without icons, an icon row that is not wholly visible. -/
def Obligations.DrawIconsRejects : Prop :=
  ∀ (mask : Word) (s : State) (m : DisplayMode), Active s m →
    (m.iconKind = .none → exec (.drawIcons mask) s = .next (failed s 0x08)) ∧
    (m.iconKind ≠ .none → (∃ p ∈ iconPieces s.cfg s.hw m mask, ¬ p.fits s.hw) →
      exec (.drawIcons mask) s = .next (failed s 0x06))

/-- R111, R280, R281: DRAW_SIGNAL_STRENGTH draws the glyph of its level and changes nothing else, or ends with the
error of the first check that fails. That a success leaves the Cursor's fields but `valid` as they were is the
model's reading of R42 (assumption 4). -/
def Obligations.DrawSignalStrength : Prop :=
  ∀ (level : BitVec 8) (s : State) (m : DisplayMode), Active s m →
    (level.toInt < -1 ∨ 100 < level.toInt → exec (.drawSignalStrength level) s = .next (failed s 0x12)) ∧
    (-1 ≤ level.toInt → level.toInt ≤ 100 → m.signalPos = none →
      exec (.drawSignalStrength level) s = .next (failed s 0x08)) ∧
    (∀ pos, -1 ≤ level.toInt → level.toInt ≤ 100 → m.signalPos = some pos →
      let p : Piece := ⟨pos.column, pos.rowPx, s.cfg.rom.signalH, romSignal s.cfg.rom (signalSelect s.cfg level.toInt)⟩
      p.cols.length = s.cfg.rom.signalW ∧
      (¬ p.fits s.hw → exec (.drawSignalStrength level) s = .next (failed s 0x06)) ∧
      (p.fits s.hw →
        ∃ t, exec (.drawSignalStrength level) s = .next t ∧ t = drawn s t.fb ∧ Shows s t [p]))

/-! ## Configuration (R285 to R293) -/

/-- R286: INIT, in every state and for every id. -/
def Obligations.InitSelectsProfile : Prop :=
  ∀ (id : BitVec 8) (s : State),
    encode (.init id) = [0x01#8 ++ 0#16 ++ id] ∧
    (s.init = true → exec (.init id) s = .next (failed s 0x15)) ∧
    (s.init = false → profile? s.cfg id = none → exec (.init id) s = .next (failed s 0x14)) ∧
    (∀ p, s.init = false → profile? s.cfg id = some p →
      ∃ t, exec (.init id) s = .next t ∧
        t = { drawn s t.fb with init := true, hw := p, modeValid := false, zoomed := false, small12 := false } ∧
        hostFrameBuffer t = List.replicate (p.widthPx * ceilDiv (p.heightPx + p.yOffset) 8) 0x00)

/-- R288: SELECT_MODE, in every state and for every id. -/
def Obligations.SelectMode : Prop :=
  ∀ (id : BitVec 8) (s : State),
    encode (.selectMode id) = [0x02#8 ++ 0#16 ++ id] ∧
    (s.init = false → exec (.selectMode id) s = .next (failed s 0x11)) ∧
    (s.init = true → mode? s.cfg id = none → exec (.selectMode id) s = .next (failed s 0x07)) ∧
    (∀ m, s.init = true → mode? s.cfg id = some m →
      ∃ t, exec (.selectMode id) s = .next t ∧
        t = { drawn s t.fb with modeValid := true, modeId := id, zoomed := false, small12 := false } ∧
        hostFrameBuffer t = List.replicate (fbLen s) 0x00)

/-- R289, R290: SET_ZOOM: what changes the mode, what it then clears, and the geometry in RESULT. -/
def Obligations.SetZoom : Prop :=
  ∀ (on : Bool) (s : State),
    encode (.setZoom on) = [0x03#8 ++ 0#23 ++ BitVec.ofBool on] ∧
    (s.init = false ∨ s.modeValid = false → exec (.setZoom on) s = .next (failed s 0x11)) ∧
    (∀ m, Active s m →
      (on = true → s.zoomed = true ∨ m.zoomTarget = none →
        exec (.setZoom on) s = .next { drawn s s.fb with result := BitVec.ofNat 32 (256 * m.charRows + m.charCols) }) ∧
      (∀ target, on = true → s.zoomed = false → m.zoomTarget = some target →
        ∃ m' t, mode? s.cfg target = some m' ∧ exec (.setZoom on) s = .next t ∧
          t = { drawn s t.fb with
            baseModeId := s.modeId, modeId := target, zoomed := true, small12 := false
            result := BitVec.ofNat 32 (256 * m'.charRows + m'.charCols) } ∧
          hostFrameBuffer t = List.replicate (fbLen s) 0x00) ∧
      (on = false → s.zoomed = true →
        ∃ m' t, mode? s.cfg s.baseModeId = some m' ∧ exec (.setZoom on) s = .next t ∧
          t = { drawn s t.fb with
            modeId := s.baseModeId, zoomed := false, small12 := false
            result := BitVec.ofNat 32 (256 * m'.charRows + m'.charCols) } ∧
          hostFrameBuffer t = List.replicate (fbLen s) 0x00) ∧
      (on = false → s.zoomed = false →
        exec (.setZoom on) s = .next { drawn s s.fb with result := BitVec.ofNat 32 (256 * m.charRows + m.charCols) }))

/-- R290: SET_ZOOM succeeds in an active mode, and the fields of its RESULT, whatever it changed: the rows and the columns of the mode active after it. -/
def Obligations.ZoomResult : Prop :=
  ∀ (on : Bool) (s : State) (m : DisplayMode), Active s m →
    ∃ t m', exec (.setZoom on) s = .next t ∧ t.status = 0x00 ∧ mode? t.cfg t.modeId = some m' ∧
      (t.result.extractLsb' 8 8).toNat = m'.charRows ∧ (t.result.extractLsb' 0 8).toNat = m'.charCols ∧
      t.result.extractLsb' 16 16 = 0

/-- R291: the zoom round-trip. -/
def Obligations.ZoomRoundTrip : Prop :=
  ∀ (s : State) (m : DisplayMode) (target : BitVec 8), Active s m → s.zoomed = false → m.zoomTarget = some target →
    ∃ t u, exec (.setZoom true) s = .next t ∧ exec (.setZoom false) t = .next u ∧
      u.modeId = s.modeId ∧ u.zoomed = false ∧ (∀ i, Memory.read u.fb i = 0x00) ∧
      u.result = BitVec.ofNat 32 (256 * m.charRows + m.charCols)

/-- R293: SET_CONTRAST, in every state and for every level. -/
def Obligations.SetContrast : Prop :=
  ∀ (level : BitVec 8) (s : State),
    encode (.setContrast level) = [0x04#8 ++ 0#16 ++ level] ∧
    (s.init = false → exec (.setContrast level) s = .next (failed s 0x11)) ∧
    (s.init = true → 100 < level.toNat → exec (.setContrast level) s = .next (failed s 0x12)) ∧
    (s.init = true → level.toNat ≤ 100 →
      exec (.setContrast level) s = .next { drawn s s.fb with contrast := BitVec.ofNat 7 level.toNat })

/-! ## Bitmap transfer (R294 to R297) -/

/-- R294, R295: GRAB_SCREEN_REGION: the record it answers, pixel by pixel, and the errors. -/
def Obligations.GrabScreenRegion : Prop :=
  ∀ (left top width height : Word) (s : State),
    encode (.grabScreenRegion left top width height) = [0x30000000, left, top, width, height] ∧
    (s.init = false → exec (.grabScreenRegion left top width height) s = .next (failed s 0x11)) ∧
    (s.init = true → width = 0 ∨ height = 0 →
      exec (.grabScreenRegion left top width height) s =
        .next { drawn s s.fb with rdata := [left, top, width, height] }) ∧
    (s.init = true → width ≠ 0 → height ≠ 0 →
      ¬ (left.toNat + width.toNat ≤ wVis s.hw ∧ top.toNat + height.toNat ≤ s.hw.heightPx) →
      exec (.grabScreenRegion left top width height) s = .next (failed s 0x06)) ∧
    (s.init = true → width ≠ 0 → height ≠ 0 →
      left.toNat + width.toNat ≤ wVis s.hw → top.toNat + height.toNat ≤ s.hw.heightPx →
      let t0 := top.toNat - top.toNat % 8
      let h0 := top.toNat + height.toNat - t0
      ∃ bytes : List Byte,
        exec (.grabScreenRegion left top width height) s =
          .next { drawn s s.fb with
            rdata := [left, BitVec.ofNat 32 t0, width, BitVec.ofNat 32 h0] ++ packBytes bytes } ∧
        bytes.length = width.toNat * ceilDiv h0 8 ∧
        ∀ i r, i < width.toNat → r < 8 * ceilDiv h0 8 →
          (bytes.getD (i * ceilDiv h0 8 + r / 8) 0).getLsbD (7 - r % 8) =
            (decide (r < h0) && pixRead s (left.toNat + i) (t0 + r)))

/-- R294, R296: DRAW_BITMAP: the pixels it writes, and the errors. -/
def Obligations.DrawBitmap : Prop :=
  ∀ (left top width height : Word) (bytes : List Byte) (s : State), Memory.wf s.fb = true →
    encode (.drawBitmap left top width height bytes) = [0x31000000, left, top, width, height] ++ packBytes bytes ∧
    (s.init = false → exec (.drawBitmap left top width height bytes) s = .next (failed s 0x11)) ∧
    (s.init = true → width = 0 ∨ height = 0 →
      exec (.drawBitmap left top width height bytes) s = .next (drawn s s.fb)) ∧
    (s.init = true → width ≠ 0 → height ≠ 0 →
      ¬ (left.toNat + width.toNat ≤ wVis s.hw ∧ top.toNat + height.toNat ≤ s.hw.heightPx) →
      exec (.drawBitmap left top width height bytes) s = .next (failed s 0x06)) ∧
    (s.init = true → width ≠ 0 → height ≠ 0 →
      left.toNat + width.toNat ≤ wVis s.hw → top.toNat + height.toNat ≤ s.hw.heightPx →
      ∃ t, exec (.drawBitmap left top width height bytes) s = .next t ∧ t = drawn s t.fb ∧
        Painted s t (inRect left.toNat top.toNat width.toNat height.toNat)
          (fun c y =>
            (bytes.getD ((c - left.toNat) * ceilDiv height.toNat 8 + (y - top.toNat) / 8) 0).getLsbD
              (7 - (y - top.toNat) % 8)))

/-- R297: the screenshot round-trip. A grab of a non-empty rectangle gives a record; its words are a legal payload
of DRAW_BITMAP, which leaves the FrameBuffer as it is, and a grab of the record's own rectangle then gives the record
again. And for a record whose top is a multiple of 8, whose pad bits are 0 and whose rectangle is visible, drawing
it and then grabbing its rectangle gives it back. -/
def Obligations.ScreenshotRoundTrip : Prop :=
  (∀ (left top width height : Word) (s t : State), Invariant s → width ≠ 0 → height ≠ 0 →
    exec (.grabScreenRegion left top width height) s = .next t → t.status = 0x00 →
    ∃ (left' top' width' height' : Word) (bytes : List Byte) (u v : State),
      t.rdata = [left', top', width', height'] ++ packBytes bytes ∧
      decode (0x31000000 :: t.rdata) = .ok (.drawBitmap left' top' width' height' bytes) ∧
      exec (.drawBitmap left' top' width' height' bytes) t = .next u ∧ u.status = 0x00 ∧ u.fb = s.fb ∧
      exec (.grabScreenRegion left' top' width' height') u = .next v ∧ v.status = 0x00 ∧ v.rdata = t.rdata) ∧
  (∀ (left top width height : Word) (bytes : List Byte) (s : State), Invariant s → s.init = true →
    top.toNat % 8 = 0 → bytes.length = bitmapBytes width height →
    (∀ i r, i < width.toNat → height.toNat ≤ r → r < 8 * recordPitch height.toNat →
      recordPixel height.toNat bytes i r = false) →
    left.toNat + width.toNat ≤ wVis s.hw → top.toNat + height.toNat ≤ s.hw.heightPx →
    ∃ t u, exec (.drawBitmap left top width height bytes) s = .next t ∧ t.status = 0x00 ∧
      exec (.grabScreenRegion left top width height) t = .next u ∧ u.status = 0x00 ∧
      u.rdata = [left, top, width, height] ++ packBytes bytes)
end

