-- ==== Sys2Proof/Laws/Memory.lean ====
section
/-! SUPPORT. The FrameBuffer's bytes: what a read after a write gives, the canonical form that every write keeps,
and that equal reads make equal memories. -/

namespace Sys2Proof.Machine

@[simp] theorem Memory.read_nil (i : Nat) : Memory.read [] i = 0 := rfl

theorem Memory.read_cons (c : Host.Cell) (m : Memory) (i : Nat) :
    Memory.read (c :: m) i = if c.1 = i then c.2 else Memory.read m i := by
  cases c; rfl

/-- The canonical form: addresses strictly rising, no entry 0x00. -/
theorem Memory.wf_iff (m : Memory) :
    Memory.wf m = true ↔ m.Pairwise (fun c d => c.1 < d.1) ∧ ∀ c ∈ m, c.2 ≠ 0 := by
  fun_induction Memory.wf m with
  | case1 => simp
  | case2 a v => simp [clearByte]
  | case3 a v a' v' rest ih =>
    simp only [Bool.and_eq_true, decide_eq_true_eq, ih, List.pairwise_cons, List.mem_cons, bne_iff_ne, clearByte]
    constructor
    · rintro ⟨⟨h1, h2⟩, ⟨h3, h4⟩, h5⟩
      refine ⟨⟨?_, h3, h4⟩, ?_⟩
      · rintro c (rfl | hc)
        · exact h1
        · exact h1.trans (h3 c hc)
      · rintro c (rfl | hc)
        · exact h2
        · exact h5 c hc
    · rintro ⟨⟨h1, h3, h4⟩, h5⟩
      exact ⟨⟨h1 _ (.inl rfl), h5 _ (.inl rfl)⟩, ⟨h3, h4⟩, fun c hc => h5 c (.inr hc)⟩

@[simp] theorem Memory.wf_nil : Memory.wf [] = true := rfl

/-- An index that no entry lists reads 0x00. -/
theorem Memory.read_eq_zero {m : Memory} {i : Nat} (h : ∀ c ∈ m, c.1 ≠ i) : Memory.read m i = 0 := by
  induction m with
  | nil => rfl
  | cons c m ih =>
    rw [Memory.read_cons, if_neg (h c (by simp)), ih fun d hd => h d (by simp [hd])]

/-- A listed entry is what its address reads. -/
theorem Memory.read_of_mem {m : Memory} (hw : Memory.wf m = true) {c : Host.Cell} (hc : c ∈ m) :
    Memory.read m c.1 = c.2 := by
  rw [Memory.wf_iff] at hw
  obtain ⟨hp, -⟩ := hw
  induction m with
  | nil => simp at hc
  | cons d m ih =>
    rw [List.pairwise_cons] at hp
    rw [Memory.read_cons]
    rcases List.mem_cons.1 hc with rfl | hc
    · simp
    · rw [if_neg (by have := hp.1 c hc; omega), ih hc hp.2]

/-- The entries after a write: the written one, and the old ones of other addresses. -/
theorem Memory.mem_write {m : Memory} {i : Nat} {b : Byte} {c : Host.Cell} (h : c ∈ Memory.write m i b) :
    c = (i, b) ∨ c ∈ m := by
  fun_induction Memory.write m i b with grind

/-- Every write keeps the canonical form. -/
theorem Memory.wf_write {m : Memory} (hw : Memory.wf m = true) (i : Nat) (b : Byte) :
    Memory.wf (Memory.write m i b) = true := by
  rw [Memory.wf_iff] at hw ⊢
  obtain ⟨hp, hz⟩ := hw
  induction m with
  | nil => unfold Memory.write; split <;> simp_all [clearByte]
  | cons c m ih =>
    obtain ⟨a, v⟩ := c
    rw [List.pairwise_cons] at hp
    have hv : v ≠ 0 := hz (a, v) (by simp)
    have hrest : ∀ c ∈ m, c.2 ≠ 0 := fun c hc => hz c (by simp [hc])
    have hgt : ∀ c ∈ m, a < c.1 := fun c hc => hp.1 c hc
    obtain ⟨ih1, ih2⟩ := ih hp.2 hrest
    unfold Memory.write
    split
    · refine ⟨List.pairwise_cons.2 ⟨fun c hc => ?_, ih1⟩, ?_⟩
      · rcases Memory.mem_write hc with rfl | hc
        · assumption
        · exact hgt c hc
      · simpa using ⟨hv, fun _ _ h => ih2 _ h⟩
    · split
      · subst_vars
        split
        · exact ⟨hp.2, hrest⟩
        · rename_i hb
          exact ⟨List.pairwise_cons.2 ⟨hgt, hp.2⟩, by simpa using ⟨hb, fun _ _ h => hrest _ h⟩⟩
      · have hlt : i < a := by omega
        split
        · exact ⟨List.pairwise_cons.2 hp, hz⟩
        · rename_i hb
          refine ⟨List.pairwise_cons.2 ⟨fun c hc => ?_, List.pairwise_cons.2 hp⟩, ?_⟩
          · rcases List.mem_cons.1 hc with rfl | hc
            · exact hlt
            · exact hlt.trans (hgt c hc)
          · simpa using ⟨hb, hv, fun _ _ h => hrest _ h⟩

/-- A read after a write: the value written at its address, what was there before at every other (R14). -/
theorem Memory.read_write {m : Memory} (hw : Memory.wf m = true) (i : Nat) (b : Byte) (j : Nat) :
    Memory.read (Memory.write m i b) j = if i = j then b else Memory.read m j := by
  rw [Memory.wf_iff] at hw
  obtain ⟨hp, -⟩ := hw
  induction m with
  | nil =>
    unfold Memory.write
    split
    · rename_i hb; simp [hb, clearByte]
    · simp [Memory.read_cons]
  | cons c m ih =>
    obtain ⟨a, v⟩ := c
    rw [List.pairwise_cons] at hp
    have hgt : ∀ c ∈ m, a < c.1 := fun c hc => hp.1 c hc
    have absent : ∀ k, k ≤ a → Memory.read m k = 0 := fun k hk =>
      Memory.read_eq_zero fun c hc => by have := hgt c hc; omega
    unfold Memory.write
    split
    · rw [Memory.read_cons, Memory.read_cons, ih hp.2]
      by_cases h : i = j
      · subst h; simp [show a ≠ i by omega]
      · simp [h]
    · split
      · subst_vars
        split
        · rename_i hb
          rw [Memory.read_cons]
          by_cases h : a = j
          · subst h; simp [absent a (Nat.le_refl _), hb, clearByte]
          · simp [h]
        · by_cases h : a = j <;> simp [Memory.read_cons, h]
      · have hlt : i < a := by omega
        split
        · rename_i hb
          by_cases h : i = j
          · subst h; simp [Memory.read_cons, show a ≠ i by omega, absent i hlt.le, hb, clearByte]
          · simp [h]
        · simp [Memory.read_cons]

/-- The canonical form determines the memory: equal reads, equal data. -/
theorem Memory.ext_read {m n : Memory} (hm : Memory.wf m = true) (hn : Memory.wf n = true)
    (h : ∀ i, Memory.read m i = Memory.read n i) : m = n := by
  induction m generalizing n with
  | nil =>
    cases n with
    | nil => rfl
    | cons c n =>
      have h1 := Memory.read_of_mem hn (c := c) (by simp)
      have h2 := ((Memory.wf_iff _).1 hn).2 c (by simp)
      rw [← h, Memory.read_nil] at h1
      exact absurd h1.symm h2
  | cons c m ih =>
    cases n with
    | nil =>
      have h1 := Memory.read_of_mem hm (c := c) (by simp)
      have h2 := ((Memory.wf_iff _).1 hm).2 c (by simp)
      rw [h, Memory.read_nil] at h1
      exact absurd h1.symm h2
    | cons d n =>
      rw [Memory.wf_iff, List.pairwise_cons] at hm hn
      obtain ⟨⟨hm1, hm2⟩, hm3⟩ := hm
      obtain ⟨⟨hn1, hn2⟩, hn3⟩ := hn
      have key : c.1 = d.1 := by
        rcases Nat.lt_trichotomy c.1 d.1 with hlt | heq | hgt
        · have := h c.1
          rw [Memory.read_cons, if_pos rfl, Memory.read_eq_zero (m := d :: n)] at this
          · exact absurd this (hm3 c (by simp))
          · intro e he
            rcases List.mem_cons.1 he with rfl | he
            · omega
            · have := hn1 e he; omega
        · exact heq
        · have := h d.1
          rw [Memory.read_cons (c := d), if_pos rfl, Memory.read_eq_zero (m := c :: m)] at this
          · exact absurd this.symm (hn3 d (by simp))
          · intro e he
            rcases List.mem_cons.1 he with rfl | he
            · omega
            · have := hm1 e he; omega
      have hcd : c = d := by
        have := h c.1
        rw [Memory.read_cons, Memory.read_cons, if_pos rfl, if_pos key.symm] at this
        exact Prod.ext key this
      subst hcd
      congr 1
      refine ih ((Memory.wf_iff _).2 ⟨hm2, fun e he => hm3 e (by simp [he])⟩)
        ((Memory.wf_iff _).2 ⟨hn2, fun e he => hn3 e (by simp [he])⟩) fun i => ?_
      have := h i
      rw [Memory.read_cons, Memory.read_cons] at this
      by_cases hi : c.1 = i
      · subst hi
        rw [Memory.read_eq_zero fun e he => by have := hm1 e he; omega,
          Memory.read_eq_zero fun e he => by have := hn1 e he; omega]
      · simpa [hi] using this

end Sys2Proof.Machine
end

