-- ==== Sys2Proof/Laws/State.lean ====
section
/-! SUPPORT. One lemma per field of State for each update that the commands share, each true by definition. -/

namespace Sys2Proof.Machine

variable (s t : State)

/-! ## beginCommand -/

@[simp] theorem beginCommand_cfg : (beginCommand s).cfg = s.cfg := rfl
@[simp] theorem beginCommand_init : (beginCommand s).init = s.init := rfl
@[simp] theorem beginCommand_hw : (beginCommand s).hw = s.hw := rfl
@[simp] theorem beginCommand_fb : (beginCommand s).fb = s.fb := rfl
@[simp] theorem beginCommand_modeValid : (beginCommand s).modeValid = s.modeValid := rfl
@[simp] theorem beginCommand_modeId : (beginCommand s).modeId = s.modeId := rfl
@[simp] theorem beginCommand_zoomed : (beginCommand s).zoomed = s.zoomed := rfl
@[simp] theorem beginCommand_baseModeId : (beginCommand s).baseModeId = s.baseModeId := rfl
@[simp] theorem beginCommand_cur : (beginCommand s).cur = s.cur := rfl
@[simp] theorem beginCommand_amLabel : (beginCommand s).amLabel = s.amLabel := rfl
@[simp] theorem beginCommand_pmLabel : (beginCommand s).pmLabel = s.pmLabel := rfl
@[simp] theorem beginCommand_contrast : (beginCommand s).contrast = s.contrast := rfl
@[simp] theorem beginCommand_small12 : (beginCommand s).small12 = s.small12 := rfl
@[simp] theorem beginCommand_status : (beginCommand s).status = 0 := rfl
@[simp] theorem beginCommand_result : (beginCommand s).result = 0 := rfl
@[simp] theorem beginCommand_rdata : (beginCommand s).rdata = [] := rfl
@[simp] theorem beginCommand_inbox : (beginCommand s).inbox = s.inbox := rfl

/-! ## raiseError -/

@[simp] theorem raiseError_cfg (e : ErrorKind) : (raiseError e s).cfg = s.cfg := rfl
@[simp] theorem raiseError_init (e : ErrorKind) : (raiseError e s).init = s.init := rfl
@[simp] theorem raiseError_hw (e : ErrorKind) : (raiseError e s).hw = s.hw := rfl
@[simp] theorem raiseError_fb (e : ErrorKind) : (raiseError e s).fb = s.fb := rfl
@[simp] theorem raiseError_modeValid (e : ErrorKind) : (raiseError e s).modeValid = s.modeValid := rfl
@[simp] theorem raiseError_modeId (e : ErrorKind) : (raiseError e s).modeId = s.modeId := rfl
@[simp] theorem raiseError_zoomed (e : ErrorKind) : (raiseError e s).zoomed = s.zoomed := rfl
@[simp] theorem raiseError_baseModeId (e : ErrorKind) : (raiseError e s).baseModeId = s.baseModeId := rfl
@[simp] theorem raiseError_cur (e : ErrorKind) : (raiseError e s).cur = s.cur := rfl
@[simp] theorem raiseError_amLabel (e : ErrorKind) : (raiseError e s).amLabel = s.amLabel := rfl
@[simp] theorem raiseError_pmLabel (e : ErrorKind) : (raiseError e s).pmLabel = s.pmLabel := rfl
@[simp] theorem raiseError_contrast (e : ErrorKind) : (raiseError e s).contrast = s.contrast := rfl
@[simp] theorem raiseError_small12 (e : ErrorKind) : (raiseError e s).small12 = s.small12 := rfl
@[simp] theorem raiseError_status (e : ErrorKind) : (raiseError e s).status = errorCode e := rfl
@[simp] theorem raiseError_result (e : ErrorKind) : (raiseError e s).result = 0 := rfl
@[simp] theorem raiseError_rdata (e : ErrorKind) : (raiseError e s).rdata = [] := rfl
@[simp] theorem raiseError_inbox (e : ErrorKind) : (raiseError e s).inbox = s.inbox := rfl

/-! ## dropCursor -/

@[simp] theorem dropCursor_cfg : (dropCursor s).cfg = s.cfg := rfl
@[simp] theorem dropCursor_init : (dropCursor s).init = s.init := rfl
@[simp] theorem dropCursor_hw : (dropCursor s).hw = s.hw := rfl
@[simp] theorem dropCursor_fb : (dropCursor s).fb = s.fb := rfl
@[simp] theorem dropCursor_modeValid : (dropCursor s).modeValid = s.modeValid := rfl
@[simp] theorem dropCursor_modeId : (dropCursor s).modeId = s.modeId := rfl
@[simp] theorem dropCursor_zoomed : (dropCursor s).zoomed = s.zoomed := rfl
@[simp] theorem dropCursor_baseModeId : (dropCursor s).baseModeId = s.baseModeId := rfl
@[simp] theorem dropCursor_cur : (dropCursor s).cur = { s.cur with valid := false } := rfl
@[simp] theorem dropCursor_amLabel : (dropCursor s).amLabel = s.amLabel := rfl
@[simp] theorem dropCursor_pmLabel : (dropCursor s).pmLabel = s.pmLabel := rfl
@[simp] theorem dropCursor_contrast : (dropCursor s).contrast = s.contrast := rfl
@[simp] theorem dropCursor_small12 : (dropCursor s).small12 = s.small12 := rfl
@[simp] theorem dropCursor_status : (dropCursor s).status = s.status := rfl
@[simp] theorem dropCursor_result : (dropCursor s).result = s.result := rfl
@[simp] theorem dropCursor_rdata : (dropCursor s).rdata = s.rdata := rfl
@[simp] theorem dropCursor_inbox : (dropCursor s).inbox = s.inbox := rfl

/-! ## clearFb -/

@[simp] theorem clearFb_cfg : (clearFb s).cfg = s.cfg := rfl
@[simp] theorem clearFb_init : (clearFb s).init = s.init := rfl
@[simp] theorem clearFb_hw : (clearFb s).hw = s.hw := rfl
@[simp] theorem clearFb_fb : (clearFb s).fb = [] := rfl
@[simp] theorem clearFb_modeValid : (clearFb s).modeValid = s.modeValid := rfl
@[simp] theorem clearFb_modeId : (clearFb s).modeId = s.modeId := rfl
@[simp] theorem clearFb_zoomed : (clearFb s).zoomed = s.zoomed := rfl
@[simp] theorem clearFb_baseModeId : (clearFb s).baseModeId = s.baseModeId := rfl
@[simp] theorem clearFb_cur : (clearFb s).cur = s.cur := rfl
@[simp] theorem clearFb_amLabel : (clearFb s).amLabel = s.amLabel := rfl
@[simp] theorem clearFb_pmLabel : (clearFb s).pmLabel = s.pmLabel := rfl
@[simp] theorem clearFb_contrast : (clearFb s).contrast = s.contrast := rfl
@[simp] theorem clearFb_small12 : (clearFb s).small12 = s.small12 := rfl
@[simp] theorem clearFb_status : (clearFb s).status = s.status := rfl
@[simp] theorem clearFb_result : (clearFb s).result = s.result := rfl
@[simp] theorem clearFb_rdata : (clearFb s).rdata = s.rdata := rfl
@[simp] theorem clearFb_inbox : (clearFb s).inbox = s.inbox := rfl

/-! ## pixWrite -/

@[simp] theorem pixWrite_cfg (c y : Nat) (b : Bool) : (pixWrite c y b s).cfg = s.cfg := rfl
@[simp] theorem pixWrite_init (c y : Nat) (b : Bool) : (pixWrite c y b s).init = s.init := rfl
@[simp] theorem pixWrite_hw (c y : Nat) (b : Bool) : (pixWrite c y b s).hw = s.hw := rfl
@[simp] theorem pixWrite_fb (c y : Nat) (b : Bool) : (pixWrite c y b s).fb = Memory.write s.fb (pixIndex s.hw c y)
      (setBit (Memory.read s.fb (pixIndex s.hw c y)) (pixBit s.cfg.pixelBitOrder s.hw y) b) := rfl
@[simp] theorem pixWrite_modeValid (c y : Nat) (b : Bool) : (pixWrite c y b s).modeValid = s.modeValid := rfl
@[simp] theorem pixWrite_modeId (c y : Nat) (b : Bool) : (pixWrite c y b s).modeId = s.modeId := rfl
@[simp] theorem pixWrite_zoomed (c y : Nat) (b : Bool) : (pixWrite c y b s).zoomed = s.zoomed := rfl
@[simp] theorem pixWrite_baseModeId (c y : Nat) (b : Bool) : (pixWrite c y b s).baseModeId = s.baseModeId := rfl
@[simp] theorem pixWrite_cur (c y : Nat) (b : Bool) : (pixWrite c y b s).cur = s.cur := rfl
@[simp] theorem pixWrite_amLabel (c y : Nat) (b : Bool) : (pixWrite c y b s).amLabel = s.amLabel := rfl
@[simp] theorem pixWrite_pmLabel (c y : Nat) (b : Bool) : (pixWrite c y b s).pmLabel = s.pmLabel := rfl
@[simp] theorem pixWrite_contrast (c y : Nat) (b : Bool) : (pixWrite c y b s).contrast = s.contrast := rfl
@[simp] theorem pixWrite_small12 (c y : Nat) (b : Bool) : (pixWrite c y b s).small12 = s.small12 := rfl
@[simp] theorem pixWrite_status (c y : Nat) (b : Bool) : (pixWrite c y b s).status = s.status := rfl
@[simp] theorem pixWrite_result (c y : Nat) (b : Bool) : (pixWrite c y b s).result = s.result := rfl
@[simp] theorem pixWrite_rdata (c y : Nat) (b : Bool) : (pixWrite c y b s).rdata = s.rdata := rfl
@[simp] theorem pixWrite_inbox (c y : Nat) (b : Bool) : (pixWrite c y b s).inbox = s.inbox := rfl

/-! ## The end of a command -/

@[simp] theorem endCommand_ok_cfg : (endCommand s (.ok t)).cfg = t.cfg := rfl
@[simp] theorem endCommand_ok_init : (endCommand s (.ok t)).init = t.init := rfl
@[simp] theorem endCommand_ok_hw : (endCommand s (.ok t)).hw = t.hw := rfl
@[simp] theorem endCommand_ok_fb : (endCommand s (.ok t)).fb = t.fb := rfl
@[simp] theorem endCommand_ok_modeValid : (endCommand s (.ok t)).modeValid = t.modeValid := rfl
@[simp] theorem endCommand_ok_modeId : (endCommand s (.ok t)).modeId = t.modeId := rfl
@[simp] theorem endCommand_ok_zoomed : (endCommand s (.ok t)).zoomed = t.zoomed := rfl
@[simp] theorem endCommand_ok_baseModeId : (endCommand s (.ok t)).baseModeId = t.baseModeId := rfl
@[simp] theorem endCommand_ok_cur : (endCommand s (.ok t)).cur = { s.cur with valid := false } := rfl
@[simp] theorem endCommand_ok_amLabel : (endCommand s (.ok t)).amLabel = t.amLabel := rfl
@[simp] theorem endCommand_ok_pmLabel : (endCommand s (.ok t)).pmLabel = t.pmLabel := rfl
@[simp] theorem endCommand_ok_contrast : (endCommand s (.ok t)).contrast = t.contrast := rfl
@[simp] theorem endCommand_ok_small12 : (endCommand s (.ok t)).small12 = t.small12 := rfl
@[simp] theorem endCommand_ok_status : (endCommand s (.ok t)).status = t.status := rfl
@[simp] theorem endCommand_ok_result : (endCommand s (.ok t)).result = t.result := rfl
@[simp] theorem endCommand_ok_rdata : (endCommand s (.ok t)).rdata = t.rdata := rfl
@[simp] theorem endCommand_ok_inbox : (endCommand s (.ok t)).inbox = t.inbox := rfl

@[simp] theorem endCommand_error (e : ErrorKind) : endCommand s (.error e) = dropCursor (raiseError e s) := rfl
@[simp] theorem endBlitter_ok : endBlitter s (.ok t) = t := rfl
@[simp] theorem endBlitter_error (e : ErrorKind) : endBlitter s (.error e) = raiseError e s := rfl

/-! ## resetEvent -/

@[simp] theorem resetEvent_cfg : (resetEvent s).cfg = s.cfg := rfl
@[simp] theorem resetEvent_init : (resetEvent s).init = (resetState s.cfg).init := rfl
@[simp] theorem resetEvent_hw : (resetEvent s).hw = (resetState s.cfg).hw := rfl
@[simp] theorem resetEvent_fb : (resetEvent s).fb = (resetState s.cfg).fb := rfl
@[simp] theorem resetEvent_modeValid : (resetEvent s).modeValid = (resetState s.cfg).modeValid := rfl
@[simp] theorem resetEvent_modeId : (resetEvent s).modeId = (resetState s.cfg).modeId := rfl
@[simp] theorem resetEvent_zoomed : (resetEvent s).zoomed = (resetState s.cfg).zoomed := rfl
@[simp] theorem resetEvent_baseModeId : (resetEvent s).baseModeId = (resetState s.cfg).baseModeId := rfl
@[simp] theorem resetEvent_cur : (resetEvent s).cur = (resetState s.cfg).cur := rfl
@[simp] theorem resetEvent_amLabel : (resetEvent s).amLabel = (resetState s.cfg).amLabel := rfl
@[simp] theorem resetEvent_pmLabel : (resetEvent s).pmLabel = (resetState s.cfg).pmLabel := rfl
@[simp] theorem resetEvent_contrast : (resetEvent s).contrast = (resetState s.cfg).contrast := rfl
@[simp] theorem resetEvent_small12 : (resetEvent s).small12 = (resetState s.cfg).small12 := rfl
@[simp] theorem resetEvent_status : (resetEvent s).status = (resetState s.cfg).status := rfl
@[simp] theorem resetEvent_result : (resetEvent s).result = (resetState s.cfg).result := rfl
@[simp] theorem resetEvent_rdata : (resetEvent s).rdata = (resetState s.cfg).rdata := rfl
@[simp] theorem resetEvent_inbox : (resetEvent s).inbox = s.inbox := rfl

end Sys2Proof.Machine
end

