-- ==== Sys2Proof/Laws/Pixels.lean ====
section
/-! SUPPORT. Pixels: where a visible pixel lies (R75), what writing one does (R73), and how painted regions
compose. -/

namespace Sys2Proof.Machine

/-! ## Bits of a byte -/

theorem setBit_getLsbD (v : Byte) {bit : Nat} (h : bit < 8) (b : Bool) (k : Nat) :
    (setBit v bit b).getLsbD k = if k = bit then b else v.getLsbD k := by
  unfold setBit
  by_cases hk : k < 8
  · interval_cases bit <;> interval_cases k <;> cases b <;> simp
  · have : k ≠ bit := by omega
    simp [this, BitVec.getLsbD_of_ge _ _ (show 8 ≤ k by omega)]

theorem pixBit_lt (o : PixelBitOrder) (hw : HardwareProfile) (y : Nat) : pixBit o hw y < 8 := by
  cases o <;> simp [pixBit] <;> omega

theorem byte_ext {a b : Byte} (h : ∀ k, a.getLsbD k = b.getLsbD k) : a = b :=
  BitVec.eq_of_getLsbD_eq fun k _ => h k

/-! ## Where a visible pixel lies (R75) -/

theorem visible_iff (hw : HardwareProfile) (c y : Nat) :
    visible hw c y = true ↔ c < wVis hw ∧ y < hw.heightPx := by
  simp [visible]

theorem page_lt_bpc {hw : HardwareProfile} {c y : Nat} (h : visible hw c y = true) :
    (y + hw.yOffset) / 8 < bpc hw := by
  rw [visible_iff] at h
  unfold bpc ceilDiv
  omega

theorem pixIndex_lt_fbSize {hw : HardwareProfile} {c y : Nat} (h : visible hw c y = true) :
    pixIndex hw c y < fbSize hw := by
  have hp := page_lt_bpc h
  rw [visible_iff] at h
  unfold pixIndex fbSize
  have hc : c + hw.xOffset + 1 ≤ hw.widthPx := by unfold wVis at h; omega
  calc (c + hw.xOffset) * bpc hw + (y + hw.yOffset) / 8
      < (c + hw.xOffset) * bpc hw + bpc hw := by omega
    _ = (c + hw.xOffset + 1) * bpc hw := by ring
    _ ≤ hw.widthPx * bpc hw := Nat.mul_le_mul_right _ hc

theorem pixIndex_inj {hw : HardwareProfile} {c y c' y' : Nat} (h : visible hw c y = true)
    (h' : visible hw c' y' = true) (he : pixIndex hw c y = pixIndex hw c' y') :
    c = c' ∧ (y + hw.yOffset) / 8 = (y' + hw.yOffset) / 8 := by
  have hp := page_lt_bpc h
  have hp' := page_lt_bpc h'
  unfold pixIndex at he
  have hb : 0 < bpc hw := by omega
  have e1 : ((c + hw.xOffset) * bpc hw + (y + hw.yOffset) / 8) / bpc hw = c + hw.xOffset := by
    rw [Nat.mul_comm, Nat.mul_add_div hb, Nat.div_eq_of_lt hp, Nat.add_zero]
  have e2 : ((c' + hw.xOffset) * bpc hw + (y' + hw.yOffset) / 8) / bpc hw = c' + hw.xOffset := by
    rw [Nat.mul_comm, Nat.mul_add_div hb, Nat.div_eq_of_lt hp', Nat.add_zero]
  have hc : c = c' := by rw [he, e2] at e1; omega
  subst hc
  exact ⟨rfl, by omega⟩

/-- Two visible pixels never share a bit (R75). -/
theorem pixel_inj {hw : HardwareProfile} {o : PixelBitOrder} {c y c' y' : Nat} (h : visible hw c y = true)
    (h' : visible hw c' y' = true) (hi : pixIndex hw c y = pixIndex hw c' y') (hb : pixBit o hw y = pixBit o hw y') :
    c = c' ∧ y = y' := by
  obtain ⟨hc, hp⟩ := pixIndex_inj h h' hi
  refine ⟨hc, ?_⟩
  cases o <;> simp only [pixBit] at hb <;> omega

/-! ## Writing one pixel (R73) -/

theorem pixRead_eq_bitAt (s : State) (c y : Nat) :
    pixRead s c y = bitAt s (pixIndex s.hw c y) (pixBit s.cfg.pixelBitOrder s.hw y) := rfl

theorem pixWrite_wf {s : State} (h : Memory.wf s.fb = true) (c y : Nat) (b : Bool) :
    Memory.wf (pixWrite c y b s).fb = true := Memory.wf_write h _ _

/-- `PixWrite` changes exactly one bit of one byte (R73). -/
theorem bitAt_pixWrite {s : State} (h : Memory.wf s.fb = true) (c y : Nat) (v : Bool) (i b : Nat) :
    bitAt (pixWrite c y v s) i b =
      if pixIndex s.hw c y = i ∧ pixBit s.cfg.pixelBitOrder s.hw y = b then v else bitAt s i b := by
  unfold bitAt
  rw [pixWrite_fb, Memory.read_write h]
  by_cases hi : pixIndex s.hw c y = i
  · subst hi
    rw [if_pos rfl, setBit_getLsbD _ (pixBit_lt _ _ _)]
    by_cases hb : pixBit s.cfg.pixelBitOrder s.hw y = b
    · simp [hb]
    · simp [hb, Ne.symm hb]
  · simp [hi]

/-! ## Painting -/

/-- What changes a canvas only: its FrameBuffer and its Cursor. -/
def OnlyCanvas (s t : State) : Prop := t = { s with fb := t.fb, cur := t.cur }

theorem OnlyCanvas.refl (s : State) : OnlyCanvas s s := rfl

theorem OnlyCanvas.trans {s t u : State} (h1 : OnlyCanvas s t) (h2 : OnlyCanvas t u) : OnlyCanvas s u := by
  unfold OnlyCanvas at *
  rw [h1] at h2
  simpa using h2

theorem OnlyCanvas.hw_eq {s t : State} (h : OnlyCanvas s t) : t.hw = s.hw := by rw [h]
theorem OnlyCanvas.cfg_eq {s t : State} (h : OnlyCanvas s t) : t.cfg = s.cfg := by rw [h]
theorem OnlyCanvas.init_eq {s t : State} (h : OnlyCanvas s t) : t.init = s.init := by rw [h]

/-- Painting nothing. -/
theorem Painted.none {s t : State} (h : t.fb = s.fb) {v : Nat → Nat → Bool} : Painted s t (fun _ _ => False) v where
  visible := fun _ _ h => h.elim
  inside := fun _ _ h => h.elim
  outsideByte := fun i _ => by rw [h]
  outsideBit := fun i b _ => by unfold bitAt; rw [h]

/-- The same painting, with the region and the values said in another way. -/
theorem Painted.congr {s t : State} {r r' : Nat → Nat → Prop} {v v' : Nat → Nat → Bool} (h : Painted s t r v)
    (hr : ∀ c y, r' c y ↔ r c y) (hv : ∀ c y, r c y → v' c y = v c y) : Painted s t r' v' where
  visible := fun c y h' => h.visible c y ((hr c y).1 h')
  inside := fun c y h' => by
    have := (hr c y).1 h'
    rw [hv c y this, h.inside c y this]
  outsideByte := fun i hi => h.outsideByte i fun c y h' => hi c y ((hr c y).2 h')
  outsideBit := fun i b hi => h.outsideBit i b fun c y h' => hi c y ((hr c y).2 h')

open Classical in
/-- One painting after another: where both painted, the later one counts (R81). -/
theorem Painted.trans {s t u : State} {r r' : Nat → Nat → Prop} {v v' : Nat → Nat → Bool} (h : Painted s t r v)
    (h' : Painted t u r' v') (ht : t.hw = s.hw) (hc : t.cfg = s.cfg) (hu : u.hw = s.hw) (hcu : u.cfg = s.cfg) :
    Painted s u (fun c y => r c y ∨ r' c y) (fun c y => if r' c y then v' c y else v c y) where
  visible := fun c y hcy => by
    rcases hcy with hcy | hcy
    · exact h.visible c y hcy
    · rw [← ht]; exact h'.visible c y hcy
  inside := fun c y hcy => by
    by_cases hr' : r' c y
    · simp only [hr', if_true]; exact h'.inside c y hr'
    · simp only [hr', if_false]
      have hr : r c y := hcy.resolve_right hr'
      have hvis := h.visible c y hr
      rw [← h.inside c y hr, pixRead_eq_bitAt, pixRead_eq_bitAt, hu, hcu, ht, hc]
      refine h'.outsideBit _ _ fun c' y' hr'' hpos => ?_
      rw [ht, hc] at hpos
      have hv' := h'.visible c' y' hr''
      rw [ht] at hv'
      obtain ⟨rfl, rfl⟩ := pixel_inj hv' hvis hpos.1 hpos.2
      exact hr' hr''
  outsideByte := fun i hi => by
    rw [h'.outsideByte i fun c y hr => by rw [ht]; exact hi c y (.inr hr),
      h.outsideByte i fun c y hr => hi c y (.inl hr)]
  outsideBit := fun i b hi => by
    rw [h'.outsideBit i b fun c y hr => by rw [ht, hc]; exact hi c y (.inr hr),
      h.outsideBit i b fun c y hr => hi c y (.inl hr)]

/-- One pixel. -/
theorem pixWrite_painted {s : State} (h : Memory.wf s.fb = true) {c y : Nat} (hv : visible s.hw c y = true) (b : Bool) :
    Painted s (pixWrite c y b s) (fun c' y' => c' = c ∧ y' = y) (fun _ _ => b) where
  visible := fun c' y' h' => by rw [h'.1, h'.2]; exact hv
  inside := fun c' y' h' => by
    obtain ⟨rfl, rfl⟩ := h'
    rw [pixRead_eq_bitAt, pixWrite_hw, pixWrite_cfg, bitAt_pixWrite h, if_pos ⟨rfl, rfl⟩]
  outsideByte := fun i hi => by
    rw [pixWrite_fb, Memory.read_write h, if_neg (hi c y ⟨rfl, rfl⟩)]
  outsideBit := fun i b' hi => by
    rw [bitAt_pixWrite h, if_neg (hi c y ⟨rfl, rfl⟩)]

/-- A painting keeps ink inside the visible rectangle (R72, R86). -/
theorem Painted.onlyVisibleInk {s t : State} {r : Nat → Nat → Prop} {v : Nat → Nat → Bool} (h : Painted s t r v)
    (hs : OnlyVisibleInk s) (hw : t.hw = s.hw) (hc : t.cfg = s.cfg) : OnlyVisibleInk t := by
  intro i b hb
  rw [hw, hc]
  by_cases hr : ∃ c y, r c y ∧ pixIndex s.hw c y = i ∧ pixBit s.cfg.pixelBitOrder s.hw y = b
  · obtain ⟨c, y, hcy, hpos⟩ := hr
    exact ⟨c, y, h.visible c y hcy, hpos⟩
  · rw [h.outsideBit i b fun c y hcy hpos => hr ⟨c, y, hcy, hpos⟩] at hb
    exact hs i b hb

end Sys2Proof.Machine
end

