-- ==== Sys2Proof/Laws/Ends.lean ====
section
/-! SUPPORT. How each command's body and each command can end, in every state: the errors it can raise, and the state
it leaves otherwise. -/

namespace Sys2Proof.Machine

/-- How a drawing body ends: with an error of a list, or with a state that differs in the FrameBuffer and a valid
Cursor only. -/
def Ends (s : State) (errors : List ErrorKind) : Result State → Prop
  | .ok t => OnlyCanvas s t ∧ t.cur.valid = true
  | .error e => e ∈ errors

theorem Ends.mono {s : State} {es es' : List ErrorKind} {r : Result State} (h : Ends s es r) (hs : es ⊆ es') :
    Ends s es' r := by
  cases r with
  | ok t => exact h
  | error e => exact hs h

theorem Ends.bind {s : State} {es : List ErrorKind} {r : Result State} {f : State → Result State} (h : Ends s es r)
    (hf : ∀ t, OnlyCanvas s t → t.cur.valid = true → Ends t es (f t)) : Ends s es (r.bind f) := by
  cases r with
  | error e => exact h
  | ok t =>
    have hft := hf t h.1 h.2
    change Ends s es (f t)
    cases hr : f t with
    | error e => rw [hr] at hft; exact hft
    | ok u => rw [hr] at hft; exact ⟨h.1.trans hft.1, hft.2⟩

/-- The end of a body that may do nothing. -/
theorem Ends.nothing {s : State} {es : List ErrorKind} (h : s.cur.valid = true) : Ends s es (.ok s) := ⟨rfl, h⟩

theorem writeRows_canvas (c r h : Nat) (v : Column) (n j : Nat) (s : State) :
    OnlyCanvas s (writeRows c r h v n j s) ∧ (writeRows c r h v n j s).cur = s.cur := by
  induction n generalizing j s with
  | zero => exact ⟨rfl, rfl⟩
  | succ n ih =>
    obtain ⟨h1, h2⟩ := ih (j + 1) (pixWrite c (r + j) (v.getLsbD (h - 1 - j)) s)
    exact ⟨OnlyCanvas.trans (by rfl) h1, h2⟩

/-- Everything a blit can end with (R133). -/
theorem blit_ends {v : Column} {s : State} (h : s.cur.valid = true) : Ends s [.bufferOverrun] (blit v s) := by
  unfold blit
  rw [if_neg (by simp [h])]
  split
  · simp [Ends]
  · obtain ⟨h1, h2⟩ := writeRows_canvas s.cur.column s.cur.rowPx s.cur.heightPx v s.cur.heightPx 0 s
    refine ⟨?_, by rw [h2]; exact h⟩
    generalize writeRows s.cur.column s.cur.rowPx s.cur.heightPx v s.cur.heightPx 0 s = t at *
    unfold OnlyCanvas at *
    rw [h1]

theorem blitAll_ends {vs : List Column} {s : State} (h : s.cur.valid = true) :
    Ends s [.bufferOverrun] (blitAll vs s) := by
  induction vs generalizing s with
  | nil => exact .nothing h
  | cons v vs ih =>
    have hb := Ends.bind (f := blitAll vs) (blit_ends (v := v) h) fun t _ ht => ih ht
    simp only [blitAll]
    cases hr : blit v s <;> rw [hr] at hb <;> exact hb

theorem blankColumns_ends {n : Nat} {inverted : Bool} {s : State} (h : s.cur.valid = true) :
    Ends s [.bufferOverrun] (blankColumns n inverted s) := by
  induction n generalizing s with
  | zero => exact .nothing h
  | succ n ih =>
    have hb := Ends.bind (f := blankColumns n inverted) (blit_ends (v := blankColumn inverted s.cur.heightPx) h)
      fun t _ ht => ih ht
    simp only [blankColumns]
    cases hr : blit (blankColumn inverted s.cur.heightPx) s <;> rw [hr] at hb <;> exact hb

theorem setpos_ends {h c r : Nat} {s : State} (hi : s.init = true) (hh : 1 ≤ h ∧ h ≤ 32) (es : List ErrorKind) :
    Ends s es (setpos h c r s) := by
  unfold setpos
  rw [if_neg (by simp [hi]), if_neg (by omega)]
  exact ⟨rfl, rfl⟩

theorem setpos_ends_any {h c r : Nat} {s : State} (hi : s.init = true) :
    Ends s [.argumentOutOfRange, .bufferOverrun] (setpos h c r s) := by
  unfold setpos
  rw [if_neg (by simp [hi])]
  split
  · simp [Ends]
  · exact ⟨rfl, rfl⟩

theorem OnlyCanvas.init_of {s t : State} (h : OnlyCanvas s t) (hi : s.init = true) : t.init = true := by
  rw [h.init_eq]; exact hi

theorem arrowCell_ends {m : DisplayMode} {side : Side} {flag invert : Bool} {s : State} (h : s.cur.valid = true) :
    Ends s [.bufferOverrun] (arrowCell m side flag invert s) := by
  unfold arrowCell
  split
  · exact .nothing h
  · split
    · exact blitAll_ends h
    · exact blankColumns_ends h

theorem lineRows_height (m : DisplayMode) (row : Nat) : 1 ≤ (lineRows m row).2 := by
  unfold lineRows
  simp only []
  split <;> (simp only []; cases m.fontKind <;> decide)

/-- A text line (R200). -/
theorem lineRender_ends {m : DisplayMode} {row : Nat} {text : List Byte} {cc cw : Nat} {inv aL aR : Bool} {s : State}
    (hi : s.init = true) : Ends s [.layoutError, .bufferOverrun] (lineRender m row text cc cw inv aL aR s) := by
  unfold lineRender
  split
  · simp [Ends]
  · simp only []
    split
    · simp [Ends]
    · rename_i hh
      refine Ends.mono (es := [.bufferOverrun]) ?_ (by simp)
      refine Ends.bind (setpos_ends hi ⟨lineRows_height m row, by omega⟩ _) fun t _ ht => ?_
      refine Ends.bind (arrowCell_ends ht) fun t _ ht => ?_
      refine Ends.bind (blankColumns_ends ht) fun t _ ht => ?_
      refine Ends.bind (blitAll_ends ht) fun t _ ht => ?_
      refine Ends.bind (blankColumns_ends ht) fun t _ ht => ?_
      exact arrowCell_ends ht

theorem fontH_legal (k : FontKind) : 1 ≤ fontH k ∧ fontH k ≤ 32 := by cases k <;> decide

/-- A barcode row (R272). -/
theorem barcodeRender_ends {m : DisplayMode} {row : Nat} {hex : List Byte} {s : State} (hi : s.init = true) :
    Ends s [.layoutError, .barcodeTooLong, .barcodeInvalidDigit, .bufferOverrun] (barcodeRender m row hex s) := by
  unfold barcodeRender
  split
  · simp [Ends]
  · unfold barcodeData
    simp only []
    split
    · rename_i e he
      split at he
      · simp only [Except.error.injEq] at he; subst he; simp [Ends]
      · split at he
        · simp only [Except.error.injEq] at he; subst he; simp [Ends]
        · simp at he
    · split
      · simp [Ends]
      · refine Ends.mono (es := [.bufferOverrun]) ?_ (by simp)
        refine Ends.bind (setpos_ends hi (fontH_legal _) _) fun t _ ht => ?_
        refine Ends.bind (blankColumns_ends ht) fun t _ ht => ?_
        refine Ends.bind (blitAll_ends ht) fun t _ ht => ?_
        exact blankColumns_ends ht

/-- The icon row (R277). -/
theorem iconRender_ends {m : DisplayMode} {mask : Word} {s : State} (hi : s.init = true) :
    Ends s [.bufferOverrun] (iconRender m mask s) := by
  unfold iconRender
  have hz : 1 ≤ iconSize m.iconKind ∧ iconSize m.iconKind ≤ 32 := by unfold iconSize; split <;> omega
  refine Ends.bind (setpos_ends hi hz _) fun t ht htv => ?_
  refine Ends.bind (blitAll_ends htv) fun u hu huv => ?_
  split
  · refine Ends.bind (setpos_ends (hu.init_of (ht.init_of hi)) (by omega) _) fun t _ ht => ?_
    exact blitAll_ends ht
  · exact .nothing huv

/-- The signal glyph (R280). -/
theorem signalBody_ends {level : Int} {m : DisplayMode} {s : State} (hi : s.init = true) :
    Ends s [.argumentOutOfRange, .layoutError, .bufferOverrun] (signalBody level m s) := by
  unfold signalBody
  split
  · simp [Ends]
  · split
    · simp [Ends]
    · refine Ends.bind ((setpos_ends_any hi).mono (by simp)) fun t _ ht => ?_
      exact (blitAll_ends ht).mono (by simp)

/-! ## Texts and clocks -/

/-- How a text ends: its columns count is a plain number. -/
def TextEnds (s : State) (errors : List ErrorKind) : Result (State × Nat) → Prop
  | .ok (t, _) => OnlyCanvas s t ∧ t.cur.valid = true
  | .error e => e ∈ errors

theorem TextEnds.after {s t : State} {es : List ErrorKind} {r : Result (State × Nat)} (h : OnlyCanvas s t)
    (hr : TextEnds t es r) : TextEnds s es r := by
  cases r with
  | error e => exact hr
  | ok p => exact ⟨h.trans hr.1, hr.2⟩

theorem Ends.bindText {s : State} {es : List ErrorKind} {r : Result State} {f : State → Result (State × Nat)}
    (h : Ends s es r) (hf : ∀ t, OnlyCanvas s t → t.cur.valid = true → TextEnds t es (f t)) :
    TextEnds s es (r.bind f) := by
  cases r with
  | error e => exact h
  | ok t => exact (hf t h.1 h.2).after h.1

theorem drawItems_ends {k : FontKind} {x : Nat} {items : List TextItem} {used : Nat} {s : State}
    (h : s.cur.valid = true) : TextEnds s [.bufferOverrun] (drawItems k x items used s) := by
  induction items generalizing used s with
  | nil => exact ⟨rfl, h⟩
  | cons i items ih =>
    cases i with
    | blank =>
      unfold drawItems
      split
      · exact ⟨rfl, h⟩
      · exact Ends.bindText (blankColumns_ends h) fun t _ ht => ih ht
    | glyph g =>
      unfold drawItems
      split
      · exact ih h
      · split
        · exact ⟨rfl, h⟩
        · exact Ends.bindText (blitAll_ends h) fun t _ ht => ih ht

theorem drawText_ends {k : FontKind} {x y : Nat} {items : List TextItem} {s : State} (hi : s.init = true) :
    TextEnds s [.bufferOverrun] (drawText k x y items s) :=
  Ends.bindText (setpos_ends hi (fontH_legal k) _) fun _ _ ht => drawItems_ends ht

theorem drawCodes_ends {k : FontKind} {x y : Nat} {codes : List GlyphCode} {s : State} (hi : s.init = true) :
    Ends s [.bufferOverrun] (drawCodes k x y codes s) := by
  have h := drawText_ends (k := k) (x := x) (y := y) (items := codes.map .glyph) hi
  unfold drawCodes
  simp only [bind]
  cases hr : drawText k x y (codes.map .glyph) s with
  | error e => rw [hr] at h; exact h
  | ok p => rw [hr] at h; exact h

theorem drawElem_ends {t : DigitTable} {e : TimeElem} {s : State} (h : s.cur.valid = true) :
    Ends s [.bufferOverrun] (drawElem t e s) := by
  cases e with
  | digit d =>
    simp only [drawElem]
    split
    · exact blitAll_ends h
    · exact blankColumns_ends h
  | colon => exact blitAll_ends h
  | blank => exact blankColumns_ends h

theorem drawElems_ends {t : DigitTable} {es : List TimeElem} {s : State} (h : s.cur.valid = true) :
    Ends s [.bufferOverrun] (drawElems t es s) := by
  induction es generalizing s with
  | nil => exact .nothing h
  | cons e es ih => exact Ends.bind (drawElem_ends h) fun t _ ht => ih ht

theorem drawDigits_ends {t : DigitTable} {x y : Nat} {es : List TimeElem} {s : State} (hi : s.init = true) :
    Ends s [.bufferOverrun] (drawDigits t x y es s) :=
  Ends.bind (setpos_ends hi (by cases t <;> decide) _) fun _ _ ht => drawElems_ends ht

theorem drawClockIcon_ends {icon : ClockIcon} {x y : Nat} {s : State} (hi : s.init = true) :
    Ends s [.argumentOutOfRange, .bufferOverrun] (drawClockIcon icon x y s) :=
  Ends.bind (setpos_ends_any hi) fun _ _ ht => (blitAll_ends ht).mono (by simp)

theorem drawLabel_ends {m : DisplayMode} {h : Nat} {is12h : Bool} {s : State} (hi : s.init = true)
    (hv : s.cur.valid = true) : Ends s [.argumentOutOfRange, .bufferOverrun] (drawLabel m h is12h s) := by
  unfold drawLabel
  split
  · exact .nothing hv
  · split
    · exact drawClockIcon_ends hi
    · exact (drawCodes_ends hi).mono (by simp)

theorem drawAlarmRow_ends {m : DisplayMode} {on : Bool} {s : State} (hi : s.init = true) (hv : s.cur.valid = true) :
    Ends s [.argumentOutOfRange, .bufferOverrun] (drawAlarmRow m on s) := by
  unfold drawAlarmRow
  split
  · exact .nothing hv
  · exact (iconRender_ends hi).mono (by simp)

theorem drawLayoutRest_ends {m : DisplayMode} {alarm : List Byte} {on : Bool} {date : List Byte} {s : State}
    (hi : s.init = true) (hv : s.cur.valid = true) :
    Ends s [.argumentOutOfRange, .bufferOverrun] (drawLayoutRest m alarm on date s) := by
  have hstr : ∀ k x y bytes t, t.init = true →
      Ends t [.argumentOutOfRange, .bufferOverrun] (drawString k x y bytes t) := fun k x y bytes t ht =>
    (drawCodes_ends ht).mono (by simp)
  unfold drawLayoutRest
  split
  · exact .nothing hv
  · split
    · exact hstr _ _ _ _ _ hi
    · exact .nothing hv
  · simp only [bind]
    split
    · exact Ends.bind (hstr _ _ _ _ _ hi) fun t ht htv => drawAlarmRow_ends (ht.init_of hi) htv
    · exact drawAlarmRow_ends hi hv
  · split
    · exact drawClockIcon_ends hi
    · exact .nothing hv
  · simp only []
    split
    · exact hstr _ _ _ _ _ hi
    · exact .nothing hv
  · exact drawAlarmRow_ends hi hv

theorem clearFb_canvas (s : State) : OnlyCanvas s (clearFb s) := rfl

theorem Ends.after {s t : State} {es : List ErrorKind} {r : Result State} (h : OnlyCanvas s t) (hr : Ends t es r) :
    Ends s es r := by
  cases r with
  | error e => exact hr
  | ok p => exact ⟨h.trans hr.1, hr.2⟩

/-- A clock face (R250). -/
theorem clockBody_ends {h mi sec : BitVec 8} {is12h on : Bool} {ah am : BitVec 8} {date : List Byte} {m : DisplayMode}
    {s : State} (hi : s.init = true) :
    Ends s [.argumentOutOfRange, .unsupportedClockLayout, .bufferOverrun]
      (clockBody h mi sec is12h on ah am date m s) := by
  unfold clockBody
  split
  · simp [Ends]
  · split
    · simp [Ends]
    · refine Ends.mono (es := [.argumentOutOfRange, .bufferOverrun]) ?_ (by simp)
      refine Ends.after (clearFb_canvas s) ?_
      refine Ends.bind ((drawDigits_ends (s := clearFb s) hi).mono (by simp)) fun t ht htv => ?_
      refine Ends.bind (drawLabel_ends (ht.init_of hi) htv) fun u hu huv => ?_
      exact drawLayoutRest_ends (hu.init_of (ht.init_of hi)) huv

/-- The small clock (R260): it also notes its format. -/
theorem smallClockBody_ends {h mi : BitVec 8} {is12h : Bool} {m : DisplayMode} {s : State} (hi : s.init = true) :
    (∃ e ∈ [ErrorKind.argumentOutOfRange, .unsupportedClockLayout, .bufferOverrun],
      smallClockBody h mi is12h m s = .error e) ∨
    ∃ t, OnlyCanvas s t ∧ smallClockBody h mi is12h m s = .ok { t with small12 := is12h } := by
  unfold smallClockBody
  split
  · exact .inl ⟨_, by simp, rfl⟩
  · split
    · exact .inl ⟨_, by simp, rfl⟩
    · rename_i p _
      have ht := drawText_ends (k := m.fontKind) (x := p.column) (y := p.rowPx)
        (items := smallClockItems h.toNat mi.toNat is12h s) hi
      simp only [bind]
      cases hd : drawText m.fontKind p.column p.rowPx (smallClockItems h.toNat mi.toNat is12h s) s with
      | error e =>
        rw [hd] at ht
        exact .inl ⟨e, by simp only [TextEnds, List.mem_singleton] at ht; simp [ht], rfl⟩
      | ok q =>
        obtain ⟨t, used⟩ := q
        rw [hd] at ht
        have he : Ends t [.bufferOverrun] (if is12h = false ∧ s.small12 = true then
            blankColumns (staleColumns t.hw p used) false t else .ok t) := by
          split
          · exact blankColumns_ends ht.2
          · exact .nothing ht.2
        by_cases hc : is12h = false ∧ s.small12 = true
        · rw [if_pos hc] at he
          simp only [Except.bind, if_pos hc]
          cases hb : blankColumns (staleColumns t.hw p used) false t with
          | error e =>
            rw [hb] at he
            exact .inl ⟨e, by simp only [Ends, List.mem_singleton] at he; simp [he], rfl⟩
          | ok u =>
            rw [hb] at he
            exact .inr ⟨u, ht.1.trans he.1, rfl⟩
        · simp only [Except.bind, if_neg hc]
          exact .inr ⟨t, ht.1, rfl⟩

/-! ## Screens -/

theorem screenRow_ends {m : DisplayMode} {cx cy : Nat} {on : Bool} {cw : Nat} {line : ScreenLine} {r : Nat} {s : State}
    (hi : s.init = true) :
    Ends s [.layoutError, .barcodeTooLong, .barcodeInvalidDigit, .bufferOverrun] (screenRow m cx cy on cw line r s) := by
  unfold screenRow
  simp only []
  split
  · exact (lineRender_ends hi).mono (by simp)
  · exact (lineRender_ends hi).mono (by simp)
  · exact barcodeRender_ends hi

/-- The rows of a screen (R212, R214). -/
theorem screenRows_ends {m : DisplayMode} {cx cy : Nat} {on : Bool} {cw : Nat} {lines : List ScreenLine}
    {rows : List Nat} {s : State} {first : Option ErrorKind} (hi : s.init = true)
    (hf : ∀ e, first = some e → perLineError e = true) :
    (∃ e ∈ [ErrorKind.layoutError, .bufferOverrun], screenRows m cx cy on cw lines rows s first = .error e) ∨
    ∃ t first', OnlyCanvas s t ∧ (∀ e, first' = some e → perLineError e = true) ∧
      screenRows m cx cy on cw lines rows s first = .ok (t, first') := by
  induction rows generalizing s first with
  | nil => exact .inr ⟨s, first, rfl, hf, rfl⟩
  | cons r rows ih =>
    have hr := screenRow_ends (m := m) (cx := cx) (cy := cy) (on := on) (cw := cw) (line := screenLine lines r)
      (r := r) hi
    unfold screenRows
    cases hd : screenRow m cx cy on cw (screenLine lines r) r s with
    | ok t =>
      rw [hd] at hr
      simp only []
      rcases ih (hr.1.init_of hi) hf with h | ⟨u, f', h1, h2, h3⟩
      · exact .inl h
      · exact .inr ⟨u, f', hr.1.trans h1, h2, h3⟩
    | error e =>
      rw [hd] at hr
      simp only []
      split
      · rename_i he
        exact ih hi fun e' he' => by
          cases hfe : first with
          | none => rw [hfe] at he'; simp only [Option.none_or, Option.some.injEq] at he'; rw [← he']; exact he
          | some e'' => rw [hfe] at he'; exact hf e' (by rw [hfe]; simpa using he')
      · rename_i he
        refine .inl ⟨e, ?_, rfl⟩
        simp only [Ends, List.mem_cons, List.not_mem_nil, or_false] at hr
        rcases hr with rfl | rfl | rfl | rfl <;> simp [perLineError] at he ⊢

/-! ## Bitmaps (R296) -/

theorem bitmapRows_canvas (left top h : Nat) (bytes : List Byte) (i n r : Nat) (s : State) :
    OnlyCanvas s (bitmapRows left top h bytes i n r s) := by
  induction n generalizing r s with
  | zero => rfl
  | succ n ih =>
    exact OnlyCanvas.trans (t := pixWrite (left + i) (top + r) (recordPixel h bytes i r) s) rfl (ih _ _)

theorem bitmapColumns_canvas (left top h : Nat) (bytes : List Byte) (n i : Nat) (s : State) :
    OnlyCanvas s (bitmapColumns left top h bytes n i s) := by
  induction n generalizing i s with
  | zero => rfl
  | succ n ih => exact (bitmapRows_canvas left top h bytes i h 0 s).trans (ih _ _)

end Sys2Proof.Machine
end

