-- ==== Sys2Proof/Laws/Bitmap.lean ====
section
/-! SUPPORT. Bitmap records: what DRAW_BITMAP paints (R296) and what GRAB_SCREEN_REGION reads (R295). -/

namespace Sys2Proof.Machine

/-! ## Drawing a record -/

theorem bitmapRows_wf {left top h : Nat} {bytes : List Byte} {i n r : Nat} {s : State} (hw : Memory.wf s.fb = true) :
    Memory.wf (bitmapRows left top h bytes i n r s).fb = true := by
  induction n generalizing r s with
  | zero => exact hw
  | succ n ih => exact ih (pixWrite_wf hw _ _ _)

theorem bitmapRows_painted {left top h : Nat} {bytes : List Byte} {i n r : Nat} {s : State}
    (hw : Memory.wf s.fb = true) (hv : ∀ k, r ≤ k → k < r + n → visible s.hw (left + i) (top + k) = true) :
    Painted s (bitmapRows left top h bytes i n r s) (fun c y => c = left + i ∧ top + r ≤ y ∧ y < top + r + n)
      (fun c y => recordPixel h bytes (c - left) (y - top)) := by
  induction n generalizing r s with
  | zero =>
    exact (Painted.none rfl (v := fun _ _ => false)).congr
      (fun c y => ⟨fun h => by omega, False.elim⟩) (by intros; contradiction)
  | succ n ih =>
    have h1 := pixWrite_painted hw (hv r (Nat.le_refl _) (by omega)) (recordPixel h bytes i r)
    have h2 := ih (r := r + 1) (pixWrite_wf hw (left + i) (top + r) (recordPixel h bytes i r))
      (fun k hk hk' => hv k (by omega) (by omega))
    refine (h1.trans h2 rfl rfl (bitmapRows_canvas ..).hw_eq (bitmapRows_canvas ..).cfg_eq).congr
      (fun c y => ?_) fun c y hcy => ?_
    · constructor
      · rintro ⟨rfl, h3, h4⟩
        by_cases hy : y = top + r
        · exact .inl ⟨rfl, hy⟩
        · exact .inr ⟨rfl, by omega, by omega⟩
      · rintro (⟨rfl, rfl⟩ | ⟨rfl, h3, h4⟩) <;> exact ⟨rfl, by omega, by omega⟩
    · split
      · rfl
      · rcases hcy with ⟨rfl, rfl⟩ | hcy
        · simp
        · contradiction

theorem bitmapColumns_wf {left top h : Nat} {bytes : List Byte} {n i : Nat} {s : State} (hw : Memory.wf s.fb = true) :
    Memory.wf (bitmapColumns left top h bytes n i s).fb = true := by
  induction n generalizing i s with
  | zero => exact hw
  | succ n ih => exact ih (bitmapRows_wf hw)

/-- The pixels of a record from its column `i` on (R296). -/
theorem bitmapColumns_painted {left top h : Nat} {bytes : List Byte} {n i : Nat} {s : State}
    (hw : Memory.wf s.fb = true)
    (hv : ∀ k j, i ≤ k → k < i + n → j < h → visible s.hw (left + k) (top + j) = true) :
    Painted s (bitmapColumns left top h bytes n i s) (inRect (left + i) top n h)
      (fun c y => recordPixel h bytes (c - left) (y - top)) := by
  induction n generalizing i s with
  | zero =>
    exact (Painted.none rfl (v := fun _ _ => false)).congr
      (fun c y => ⟨fun h => by simp only [inRect] at h; omega, False.elim⟩) (by intros; contradiction)
  | succ n ih =>
    have h1 := bitmapRows_painted (left := left) (top := top) (h := h) (bytes := bytes) (i := i) (n := h) (r := 0)
      hw (fun k _ hk => hv i k (Nat.le_refl _) (by omega) (by omega))
    have hc := bitmapRows_canvas left top h bytes i h 0 s
    have h2 := ih (i := i + 1) (bitmapRows_wf hw) (fun k j hk hk' hj => by
      rw [hc.hw_eq]; exact hv k j (by omega) (by omega) hj)
    have hc2 := hc.trans (bitmapColumns_canvas left top h bytes n (i + 1) (bitmapRows left top h bytes i h 0 s))
    refine (h1.trans h2 hc.hw_eq hc.cfg_eq hc2.hw_eq hc2.cfg_eq).congr (fun c y => ?_) fun c y hcy => ?_
    · simp only [inRect]
      omega
    · split <;> rfl

/-! ## Reading a record -/

/-- Bit `7 - q` of a byte of pixels is its pixel `q` (R294). -/
theorem byteOfPixels_getLsbD (pixel : Nat → Bool) {q : Nat} (hq : q < 8) :
    (byteOfPixels pixel).getLsbD (7 - q) = pixel q := by
  have h : ∀ b0 b1 b2 b3 b4 b5 b6 b7 : Bool,
      let v : Byte := BitVec.ofBool b0 ++ BitVec.ofBool b1 ++ BitVec.ofBool b2 ++ BitVec.ofBool b3
        ++ BitVec.ofBool b4 ++ BitVec.ofBool b5 ++ BitVec.ofBool b6 ++ BitVec.ofBool b7
      v.getLsbD 7 = b0 ∧ v.getLsbD 6 = b1 ∧ v.getLsbD 5 = b2 ∧ v.getLsbD 4 = b3 ∧ v.getLsbD 3 = b4 ∧
        v.getLsbD 2 = b5 ∧ v.getLsbD 1 = b6 ∧ v.getLsbD 0 = b7 := by decide +kernel
  obtain ⟨h0, h1, h2, h3, h4, h5, h6, h7⟩ :=
    h (pixel 0) (pixel 1) (pixel 2) (pixel 3) (pixel 4) (pixel 5) (pixel 6) (pixel 7)
  unfold byteOfPixels
  interval_cases q <;> assumption

theorem byteOfPixels_congr {p p' : Nat → Bool} (h : ∀ q, q < 8 → p q = p' q) : byteOfPixels p = byteOfPixels p' := by
  unfold byteOfPixels
  rw [h 0, h 1, h 2, h 3, h 4, h 5, h 6, h 7] <;> omega

theorem grabBytes_length (s : State) (left t0 width h0 : Nat) :
    (grabBytes s left t0 width h0).length = width * recordPitch h0 := by
  simp [grabBytes, List.length_flatMap]

/-- Entry `i * n + j` of `m` blocks of `n`. -/
theorem getElem?_blocks {α : Type} (f : Nat → Nat → α) (m n i j : Nat) (hi : i < m) (hj : j < n) :
    ((List.range m).flatMap fun a => (List.range n).map (f a))[i * n + j]? = some (f i j) := by
  induction m with
  | zero => omega
  | succ m ih =>
    have hlen : (((List.range m).flatMap fun a => (List.range n).map (f a)).length : Nat) = m * n := by
      simp [List.length_flatMap]
    rw [List.range_succ, List.flatMap_append]
    by_cases h : i < m
    · rw [List.getElem?_append_left]
      · exact ih h
      · rw [hlen]
        calc i * n + j < i * n + n := by omega
          _ = (i + 1) * n := by ring
          _ ≤ m * n := Nat.mul_le_mul_right _ h
    · have him : i = m := by omega
      subst him
      rw [List.getElem?_append_right (by rw [hlen]; omega), hlen]
      simp [hj]

/-- The pixels of a grabbed record (R295). -/
theorem grabBytes_pixel (s : State) (left t0 width h0 i r : Nat) (hi : i < width) (hr : r < 8 * recordPitch h0) :
    ((grabBytes s left t0 width h0).getD (i * recordPitch h0 + r / 8) 0).getLsbD (7 - r % 8) =
      (decide (r < h0) && pixRead s (left + i) (t0 + r)) := by
  rw [List.getD_eq_getElem?_getD]
  unfold grabBytes
  rw [getElem?_blocks _ _ _ _ _ hi (by omega), Option.getD_some]
  unfold grabByte
  rw [byteOfPixels_getLsbD _ (by omega), show 8 * (r / 8) + r % 8 = r by omega,
    show t0 + 8 * (r / 8) + r % 8 = t0 + r by omega]

/-- A record's bytes are its pixels, its padding included. -/
theorem bytes_ext {h : Nat} {xs ys : List Byte} {width : Nat} (hx : xs.length = width * recordPitch h)
    (hy : ys.length = width * recordPitch h)
    (hp : ∀ i r, i < width → r < 8 * recordPitch h → recordPixel h xs i r = recordPixel h ys i r) : xs = ys := by
  refine List.ext_getElem? fun k => ?_
  by_cases hk : k < width * recordPitch h
  · have hP : 0 < recordPitch h := by
      rcases Nat.eq_zero_or_pos (recordPitch h) with h0 | h0
      · rw [h0] at hk; omega
      · exact h0
    have hi : k / recordPitch h < width := Nat.div_lt_of_lt_mul (by rw [Nat.mul_comm]; exact hk)
    have hj : k % recordPitch h < recordPitch h := Nat.mod_lt _ hP
    have hk' : k / recordPitch h * recordPitch h + k % recordPitch h = k := Nat.div_add_mod' k _
    have hb : xs.getD k 0 = ys.getD k 0 := by
      apply byte_ext
      intro b
      by_cases hb : b < 8
      · have := hp (k / recordPitch h) (8 * (k % recordPitch h) + (7 - b)) hi (by omega)
        simp only [recordPixel, show (8 * (k % recordPitch h) + (7 - b)) / 8 = k % recordPitch h by omega,
          show 7 - (8 * (k % recordPitch h) + (7 - b)) % 8 = b by omega, hk'] at this
        exact this
      · simp [BitVec.getLsbD_of_ge _ _ (show 8 ≤ b by omega)]
    rw [List.getD_eq_getElem?_getD, List.getD_eq_getElem?_getD] at hb
    rw [List.getElem?_eq_getElem (by omega), List.getElem?_eq_getElem (by omega)] at hb ⊢
    simpa using hb
  · rw [List.getElem?_eq_none (by omega), List.getElem?_eq_none (by omega)]

end Sys2Proof.Machine
end

