-- ==== Sys2Proof/Laws/Blit.lean ====
section
/-! SUPPORT. The blitter: what `setpos`, `blit`, a run of blits and `blank_columns` can do, said once. -/

namespace Sys2Proof.Machine

/-! ## One column -/

@[simp] theorem writeRows_hw (c r h : Nat) (v : Column) (n j : Nat) (s : State) :
    (writeRows c r h v n j s).hw = s.hw := by
  induction n generalizing j s with
  | zero => rfl
  | succ n ih => simp [writeRows, ih]

theorem writeRows_onlyCanvas (c r h : Nat) (v : Column) (n j : Nat) (s : State) :
    OnlyCanvas s (writeRows c r h v n j s) ∧ (writeRows c r h v n j s).cur = s.cur := by
  induction n generalizing j s with
  | zero => exact ⟨rfl, rfl⟩
  | succ n ih =>
    obtain ⟨h1, h2⟩ := ih (j + 1) (pixWrite c (r + j) (v.getLsbD (h - 1 - j)) s)
    exact ⟨OnlyCanvas.trans (by rfl) h1, h2⟩

theorem writeRows_wf {c r h : Nat} {v : Column} {n j : Nat} {s : State} (hw : Memory.wf s.fb = true) :
    Memory.wf (writeRows c r h v n j s).fb = true := by
  induction n generalizing j s with
  | zero => exact hw
  | succ n ih => exact ih (pixWrite_wf hw _ _ _)

/-- The pixels of a column from row `j` on (R132, R133). -/
theorem writeRows_painted {c r h : Nat} {v : Column} {n j : Nat} {s : State} (hw : Memory.wf s.fb = true)
    (hv : ∀ k, j ≤ k → k < j + n → visible s.hw c (r + k) = true) :
    Painted s (writeRows c r h v n j s) (fun c' y => c' = c ∧ r + j ≤ y ∧ y < r + j + n)
      (fun _ y => v.getLsbD (h - 1 - (y - r))) := by
  induction n generalizing j s with
  | zero => exact (Painted.none rfl).congr (fun c y => ⟨fun h => by omega, False.elim⟩) (by intros; rfl)
  | succ n ih =>
    have h1 := pixWrite_painted hw (hv j (Nat.le_refl _) (by omega)) (v.getLsbD (h - 1 - j))
    have h2 := ih (j := j + 1) (pixWrite_wf hw c (r + j) (v.getLsbD (h - 1 - j)))
      (fun k hk hk' => hv k (by omega) (by omega))
    refine (h1.trans h2 rfl rfl (by simp) (writeRows_onlyCanvas ..).1.cfg_eq).congr (fun c' y => ?_) fun c' y hcy => ?_
    · constructor
      · rintro ⟨rfl, h3, h4⟩
        by_cases hy : y = r + j
        · exact .inl ⟨rfl, hy⟩
        · exact .inr ⟨rfl, by omega, by omega⟩
      · rintro (⟨rfl, rfl⟩ | ⟨rfl, h3, h4⟩) <;> exact ⟨rfl, by omega, by omega⟩
    · split
      · rfl
      · rcases hcy with ⟨rfl, rfl⟩ | hcy
        · congr 2; omega
        · contradiction

/-- When the check of `blit` passes (R133). -/
theorem visible_rows_iff (s : State) :
    (List.range s.cur.heightPx).all (fun j => visible s.hw s.cur.column (s.cur.rowPx + j)) = true ↔
      s.cur.heightPx = 0 ∨ (s.cur.column < wVis s.hw ∧ s.cur.rowPx + s.cur.heightPx ≤ s.hw.heightPx) := by
  simp only [List.all_eq_true, List.mem_range, visible_iff]
  constructor
  · intro h
    rcases Nat.eq_zero_or_pos s.cur.heightPx with h0 | h0
    · exact .inl h0
    · have h1 := h 0 h0
      have h2 := h (s.cur.heightPx - 1) (by omega)
      exact .inr ⟨h1.1, by omega⟩
  · rintro (h | h) j hj
    · omega
    · exact ⟨h.1, by omega⟩

/-- The Cursor after `n` columns (R137). -/
def advance (hw : HardwareProfile) (cur : Cursor) (n : Nat) : Cursor :=
  { cur with column := cur.column + n, byteOffset := cur.byteOffset + n * bpc hw }

@[simp] theorem advance_valid (hw cur n) : (advance hw cur n).valid = cur.valid := rfl
@[simp] theorem advance_column (hw cur n) : (advance hw cur n).column = cur.column + n := rfl
@[simp] theorem advance_rowPx (hw cur n) : (advance hw cur n).rowPx = cur.rowPx := rfl
@[simp] theorem advance_heightPx (hw cur n) : (advance hw cur n).heightPx = cur.heightPx := rfl
@[simp] theorem advance_zero (hw cur) : advance hw cur 0 = cur := by simp [advance]
theorem advance_advance (hw cur m n) : advance hw (advance hw cur m) n = advance hw cur (m + n) := by
  simp [advance, Nat.add_assoc, Nat.add_mul]

/-- Everything a successful `blit` does (R133). -/
structure Blitted (s t : State) (cols : List Column) : Prop where
  canvas : OnlyCanvas s t
  cur : t.cur = advance s.hw s.cur cols.length
  wf : Memory.wf t.fb = true
  painted : Painted s t (inRect s.cur.column s.cur.rowPx cols.length s.cur.heightPx)
    (columnPixel cols s.cur.heightPx s.cur.column s.cur.rowPx)

/-- `blit` answers a state only by writing its column, and only when the Cursor is valid and the column visible. -/
theorem blit_ok {v : Column} {s t : State} (hw : Memory.wf s.fb = true) (h : blit v s = .ok t) :
    s.cur.valid = true ∧
      (s.cur.heightPx = 0 ∨ (s.cur.column < wVis s.hw ∧ s.cur.rowPx + s.cur.heightPx ≤ s.hw.heightPx)) ∧
      Blitted s t [v] := by
  unfold blit at h
  split at h
  · exact absurd h (by simp)
  · rename_i hvalid
    split at h
    · exact absurd h (by simp)
    · rename_i hvis
      have hvis : (List.range s.cur.heightPx).all (fun j => visible s.hw s.cur.column (s.cur.rowPx + j)) = true := by
        simpa using hvis
      have hrows := (visible_rows_iff s).1 hvis
      obtain ⟨hc1, hc2⟩ := writeRows_onlyCanvas s.cur.column s.cur.rowPx s.cur.heightPx v s.cur.heightPx 0 s
      have hp := writeRows_painted (c := s.cur.column) (r := s.cur.rowPx) (h := s.cur.heightPx) (v := v)
        (n := s.cur.heightPx) (j := 0) hw (fun k _ hk => by
          rw [visible_iff]; rcases hrows with h0 | h0
          · omega
          · exact ⟨h0.1, by omega⟩)
      have hwf := writeRows_wf (c := s.cur.column) (r := s.cur.rowPx) (h := s.cur.heightPx) (v := v)
        (n := s.cur.heightPx) (j := 0) hw
      simp only [Except.ok.injEq] at h
      refine ⟨by simpa using hvalid, hrows, ?_⟩
      generalize writeRows s.cur.column s.cur.rowPx s.cur.heightPx v s.cur.heightPx 0 s = u at *
      subst h
      refine ⟨?_, ?_, hwf, ?_⟩
      · unfold OnlyCanvas at hc1 ⊢; rw [hc1]
      · simp only [advance, List.length_singleton, Nat.one_mul, hc2, hc1.hw_eq]
      · have hq : Painted s { u with cur := { u.cur with column := u.cur.column + 1, byteOffset := u.cur.byteOffset + bpc u.hw } }
            (fun c' y => c' = s.cur.column ∧ s.cur.rowPx + 0 ≤ y ∧ y < s.cur.rowPx + 0 + s.cur.heightPx)
            (fun _ y => v.getLsbD (s.cur.heightPx - 1 - (y - s.cur.rowPx))) :=
          ⟨hp.visible, hp.inside, hp.outsideByte, hp.outsideBit⟩
        refine hq.congr (fun c y => ?_) fun c y hcy => ?_
        · simp only [inRect, List.length_singleton]; omega
        · simp [columnPixel, show c - s.cur.column = 0 by omega]

theorem blit_error {v : Column} {s : State} (h : s.cur.valid = true) (h0 : 0 < s.cur.heightPx)
    (hn : ¬ (s.cur.column < wVis s.hw ∧ s.cur.rowPx + s.cur.heightPx ≤ s.hw.heightPx)) :
    blit v s = .error .bufferOverrun := by
  unfold blit
  rw [if_neg (by simp [h]), if_pos]
  rw [← Bool.not_eq_true, visible_rows_iff]
  rintro (h1 | h1)
  · omega
  · exact hn h1

theorem blit_noPosition {v : Column} {s : State} (h : s.cur.valid = false) : blit v s = .error .noPosition := by
  simp [blit, h]

theorem blit_exists {v : Column} {s : State} (h : s.cur.valid = true)
    (hn : s.cur.column < wVis s.hw ∧ s.cur.rowPx + s.cur.heightPx ≤ s.hw.heightPx) : ∃ t, blit v s = .ok t := by
  unfold blit
  rw [if_neg (by simp [h]), if_neg]
  · exact ⟨_, rfl⟩
  · rw [Bool.not_eq_false, visible_rows_iff]
    exact .inr hn

/-! ## A run of columns -/

theorem blitAll_append (xs ys : List Column) (s : State) :
    blitAll (xs ++ ys) s = (blitAll xs s).bind (blitAll ys) := by
  induction xs generalizing s with
  | nil => rfl
  | cons v vs ih =>
    simp only [List.cons_append, blitAll]
    cases blit v s with
    | error e => rfl
    | ok t => exact ih t

/-- Everything a run of blits does when it succeeds (R133, R137). -/
theorem blitAll_ok {vs : List Column} {s t : State} (hw : Memory.wf s.fb = true) (h : blitAll vs s = .ok t) :
    Blitted s t vs ∧ (vs ≠ [] → s.cur.valid = true) ∧
      (vs = [] ∨ s.cur.heightPx = 0 ∨
        (s.cur.column + vs.length ≤ wVis s.hw ∧ s.cur.rowPx + s.cur.heightPx ≤ s.hw.heightPx)) := by
  induction vs generalizing s with
  | nil =>
    simp only [blitAll, Except.ok.injEq] at h
    subst h
    refine ⟨⟨rfl, by simp, hw, ?_⟩, by simp, by simp⟩
    exact (Painted.none rfl).congr
      (fun c y => ⟨fun h => by simp only [inRect, List.length_nil] at h; omega, False.elim⟩) (by intros; rfl)
  | cons v vs ih =>
    simp only [blitAll] at h
    split at h
    · exact absurd h (by simp)
    · rename_i u hu
      obtain ⟨hvalid, hfit, hb⟩ := blit_ok hw hu
      obtain ⟨hb', -, hfit'⟩ := ih hb.wf h
      have hcol : u.cur.column = s.cur.column + 1 := by rw [hb.cur]; rfl
      have hrow : u.cur.rowPx = s.cur.rowPx := by rw [hb.cur]; rfl
      have hh : u.cur.heightPx = s.cur.heightPx := by rw [hb.cur]; rfl
      refine ⟨⟨hb.canvas.trans hb'.canvas, ?_, hb'.wf, ?_⟩, fun _ => hvalid, ?_⟩
      · rw [hb'.cur, hb.cur, hb.canvas.hw_eq, advance_advance, List.length_singleton, List.length_cons, Nat.add_comm]
      · have hp := hb.painted.trans hb'.painted hb.canvas.hw_eq hb.canvas.cfg_eq
          (hb.canvas.trans hb'.canvas).hw_eq (hb.canvas.trans hb'.canvas).cfg_eq
        rw [hcol, hrow, hh] at hp
        refine hp.congr (fun c y => ?_) fun c y hcy => ?_
        · simp only [inRect, List.length_cons, List.length_nil]; omega
        · split
          · rename_i hr
            simp only [inRect] at hr
            simp only [columnPixel, show c - s.cur.column = (c - (s.cur.column + 1)) + 1 by omega, List.getD_cons_succ]
          · rename_i hr
            simp only [inRect, List.length_singleton] at hr hcy
            simp [columnPixel, show c - s.cur.column = 0 by omega]
      · rw [hb.canvas.hw_eq, hcol, hrow, hh] at hfit'
        simp only [List.length_cons]
        rcases hfit with h0 | h0
        · exact .inr (.inl h0)
        · rcases hfit' with rfl | h1 | h1
          · exact .inr (.inr ⟨by simpa using h0.1, h0.2⟩)
          · exact .inr (.inl h1)
          · exact .inr (.inr ⟨by omega, h0.2⟩)

/-- A run of blits that fits succeeds. -/
theorem blitAll_exists {vs : List Column} {s : State} (hw : Memory.wf s.fb = true) (h : s.cur.valid = true)
    (hn : s.cur.column + vs.length ≤ wVis s.hw ∧ s.cur.rowPx + s.cur.heightPx ≤ s.hw.heightPx) :
    ∃ t, blitAll vs s = .ok t := by
  induction vs generalizing s with
  | nil => exact ⟨s, rfl⟩
  | cons v vs ih =>
    simp only [List.length_cons] at hn
    obtain ⟨u, hu⟩ := blit_exists (v := v) h ⟨by omega, hn.2⟩
    obtain ⟨-, -, hb⟩ := blit_ok hw hu
    simp only [blitAll, hu]
    apply ih hb.wf
    · rw [hb.cur]; exact h
    · rw [hb.canvas.hw_eq, hb.cur]; simp; omega

/-- A run of blits that does not fit is rejected (R74, R133). -/
theorem blitAll_error {vs : List Column} {s : State} (hw : Memory.wf s.fb = true) (h : s.cur.valid = true)
    (h0 : 0 < s.cur.heightPx) (hne : vs ≠ [])
    (hn : ¬ (s.cur.column + vs.length ≤ wVis s.hw ∧ s.cur.rowPx + s.cur.heightPx ≤ s.hw.heightPx)) :
    blitAll vs s = .error .bufferOverrun := by
  induction vs generalizing s with
  | nil => exact absurd rfl hne
  | cons v vs ih =>
    simp only [List.length_cons] at hn
    by_cases hf : s.cur.column < wVis s.hw ∧ s.cur.rowPx + s.cur.heightPx ≤ s.hw.heightPx
    · obtain ⟨u, hu⟩ := blit_exists (v := v) h hf
      obtain ⟨-, -, hb⟩ := blit_ok hw hu
      simp only [blitAll, hu]
      have hne' : vs ≠ [] := by rintro rfl; simp only [List.length_nil] at hn; omega
      apply ih hb.wf _ _ hne'
      · rw [hb.canvas.hw_eq, hb.cur]; simp; omega
      · rw [hb.cur]; exact h
      · rw [hb.cur]; exact h0
    · simp only [blitAll, blit_error h h0 hf]

/-- `blank_columns` is a run of blits of one value (R136). -/
theorem blankColumns_eq (n : Nat) (inverted : Bool) (s : State) (hw : Memory.wf s.fb = true) :
    blankColumns n inverted s = blitAll (List.replicate n (blankColumn inverted s.cur.heightPx)) s := by
  induction n generalizing s with
  | zero => rfl
  | succ n ih =>
    simp only [blankColumns, List.replicate_succ, blitAll]
    split
    · simp
    · rename_i u hu
      obtain ⟨-, -, hb⟩ := blit_ok hw hu
      rw [ih u hb.wf, hb.cur, advance_heightPx]

/-! ## A run of columns at a position -/

theorem setpos_ok {h c r : Nat} {s : State} (hi : s.init = true) (h1 : 1 ≤ h) (h2 : h ≤ 32) :
    setpos h c r s = .ok { s with cur := cursorAt s.hw h c r } := by
  simp [setpos, hi]; omega

/-- Everything `setpos` can do (R131). -/
theorem setpos_cases (h c r : Nat) (s : State) :
    (s.init = false ∧ setpos h c r s = .error .notInitialized) ∨
    (s.init = true ∧ (h < 1 ∨ 32 < h) ∧ setpos h c r s = .error .argumentOutOfRange) ∨
    (s.init = true ∧ 1 ≤ h ∧ h ≤ 32 ∧ setpos h c r s = .ok { s with cur := cursorAt s.hw h c r }) := by
  by_cases hi : s.init = true
  · by_cases hh : h < 1 ∨ 32 < h
    · exact .inr (.inl ⟨hi, hh, by simp [setpos, hi]; omega⟩)
    · exact .inr (.inr ⟨hi, by omega, by omega, setpos_ok hi (by omega) (by omega)⟩)
  · exact .inl ⟨by simpa using hi, by simp [setpos, Bool.eq_false_iff.2 hi]⟩

/-- Columns drawn from a position: `setpos`, then the blits. -/
def drawAt (h c r : Nat) (cols : List Column) (s : State) : Result State := (setpos h c r s).bind (blitAll cols)

/-- Everything a successful `drawAt` does. -/
structure DrawnAt (s t : State) (h c r : Nat) (cols : List Column) : Prop where
  canvas : OnlyCanvas s t
  cur : t.cur = advance s.hw (cursorAt s.hw h c r) cols.length
  wf : Memory.wf t.fb = true
  fits : cols = [] ∨ (c + cols.length ≤ wVis s.hw ∧ r + h ≤ s.hw.heightPx)
  painted : Painted s t (inRect c r cols.length h) (columnPixel cols h c r)

theorem drawAt_ok {h c r : Nat} {cols : List Column} {s t : State} (hw : Memory.wf s.fb = true)
    (hd : drawAt h c r cols s = .ok t) : DrawnAt s t h c r cols := by
  unfold drawAt at hd
  rcases setpos_cases h c r s with ⟨-, he⟩ | ⟨-, -, he⟩ | ⟨hi, h1, h2, he⟩
  · rw [he] at hd; exact absurd hd (by simp [Except.bind])
  · rw [he] at hd; exact absurd hd (by simp [Except.bind])
  · rw [he] at hd
    obtain ⟨hb, -, hf⟩ := blitAll_ok (s := { s with cur := cursorAt s.hw h c r }) hw hd
    refine ⟨OnlyCanvas.trans (t := { s with cur := cursorAt s.hw h c r }) rfl hb.canvas, hb.cur, hb.wf, ?_, ?_⟩
    · rcases hf with hf | hf | hf
      · exact .inl hf
      · change h = 0 at hf; omega
      · exact .inr hf
    · exact ⟨hb.painted.visible, hb.painted.inside, hb.painted.outsideByte, hb.painted.outsideBit⟩

/-- Columns that fit are drawn. -/
theorem drawAt_exists {h c r : Nat} {cols : List Column} {s : State} (hw : Memory.wf s.fb = true) (hi : s.init = true)
    (h1 : 1 ≤ h) (h2 : h ≤ 32) (hf : cols = [] ∨ (c + cols.length ≤ wVis s.hw ∧ r + h ≤ s.hw.heightPx)) :
    ∃ t, drawAt h c r cols s = .ok t := by
  unfold drawAt
  rw [setpos_ok hi h1 h2]
  rcases hf with rfl | hf
  · exact ⟨_, rfl⟩
  · exact blitAll_exists (s := { s with cur := cursorAt s.hw h c r }) hw rfl hf

/-- Columns that do not fit are rejected whole (R74, R303). -/
theorem drawAt_error {h c r : Nat} {cols : List Column} {s : State} (hw : Memory.wf s.fb = true) (hi : s.init = true)
    (h1 : 1 ≤ h) (h2 : h ≤ 32) (hne : cols ≠ []) (hf : ¬ (c + cols.length ≤ wVis s.hw ∧ r + h ≤ s.hw.heightPx)) :
    drawAt h c r cols s = .error .bufferOverrun := by
  unfold drawAt
  rw [setpos_ok hi h1 h2]
  exact blitAll_error (s := { s with cur := cursorAt s.hw h c r }) hw rfl h1 hne hf

end Sys2Proof.Machine
end

