-- ==== Sys2Proof/Laws/Commands.lean ====
section
/-! SUPPORT. How each command can end, in every state: one lemma per command, and one over all of them. -/

namespace Sys2Proof.Machine

/-- The errors of the table of codes (R301). -/
theorem errorCode_ne_zero (e : ErrorKind) : errorCode e ≠ 0x00 := by cases e <;> decide

theorem endCommand_error_eq (s : State) (e : ErrorKind) : endCommand s (.error e) = failed s (errorCode e) := rfl

theorem endBlitter_error_eq (s : State) (e : ErrorKind) :
    endBlitter s (.error e) = failedKeepingCursor s (errorCode e) := rfl

/-- A command that drops the Cursor, and whose working copy differs in the FrameBuffer and the Cursor only. -/
theorem endCommand_canvas {s t : State} (h : OnlyCanvas (beginCommand s) t) : endCommand s (.ok t) = drawn s t.fb := by
  rw [h]
  rfl

/-- What a successful command leaves, besides what it draws. -/
def Succeeds (i : Instr) (s t : State) : Prop :=
  match i with
  | .init _ => ∃ p, t = { drawn s [] with init := true, hw := p, modeValid := false, zoomed := false, small12 := false }
  | .selectMode id =>
    s.init = true ∧ t = { drawn s [] with modeValid := true, modeId := id, zoomed := false, small12 := false }
  | .setZoom _ =>
    s.init = true ∧ s.modeValid = true ∧ (∃ r, t = { drawn s s.fb with result := r }) ∨
    ∃ r base id zoomed, s.init = true ∧ s.modeValid = true ∧
      t = { drawn s [] with baseModeId := base, modeId := id, zoomed := zoomed, small12 := false, result := r }
  | .setContrast level => s.init = true ∧ t = { drawn s s.fb with contrast := level.setWidth 7 }
  | .setAmpmLabels _ _ => ∃ am pm, t = { drawn s s.fb with amLabel := am, pmLabel := pm }
  | .setPosition _ _ _ =>
    s.init = true ∧ ∃ cur, t = { s with cur := cur, status := 0x00, result := 0, rdata := [] }
  | .blitColumn _ =>
    s.init = true ∧ ∃ fb cur, t = { s with fb := fb, cur := cur, status := 0x00, result := 0, rdata := [] }
  | .drawBlankColumns _ _ =>
    s.init = true ∧ ∃ fb cur, t = { s with fb := fb, cur := cur, status := 0x00, result := 0, rdata := [] }
  | .drawLine _ _ _ _ _ _ _ => s.init = true ∧ s.modeValid = true ∧ t = drawn s t.fb
  | .drawScreen _ _ _ _ _ =>
    s.init = true ∧ s.modeValid = true ∧
      (t = drawn s t.fb ∨ t = { drawn s t.fb with status := 0x03 } ∨ t = { drawn s t.fb with status := 0x04 })
  | .drawBarcode _ _ => s.init = true ∧ s.modeValid = true ∧ t = drawn s t.fb
  | .drawClock _ _ _ _ _ _ _ _ => s.init = true ∧ s.modeValid = true ∧ t = drawn s t.fb
  | .drawSmallClock _ _ is12h => s.init = true ∧ s.modeValid = true ∧ t = { drawn s t.fb with small12 := is12h }
  | .drawIcons _ => s.init = true ∧ s.modeValid = true ∧ t = drawn s t.fb
  | .drawSignalStrength _ => s.init = true ∧ s.modeValid = true ∧ t = drawn s t.fb
  | .grabScreenRegion _ _ _ _ => s.init = true ∧ ∃ words, t = { drawn s s.fb with rdata := words }
  | .drawBitmap _ _ _ _ _ => s.init = true ∧ t = drawn s t.fb

/-- What a failed command leaves (R300). -/
def Fails (i : Instr) (s t : State) : Prop :=
  ∃ e, errorCode e ∈ statusCodes i ∧
    t = if isBlitter i then failedKeepingCursor s (errorCode e) else failed s (errorCode e)

/-- How a command that needs an active mode can end (R305). -/
theorem withMode_next {s t : State} {body : DisplayMode → State → Result State} (h : withMode s body = .next t) :
    t = failed s 0x11 ∨
      ∃ m, s.init = true ∧ s.modeValid = true ∧ mode? s.cfg s.modeId = some m ∧
        t = endCommand s (body m (beginCommand s)) := by
  unfold withMode at h
  split at h
  · simp only [Host.Outcome.next.injEq] at h
    exact .inl h.symm
  · rename_i hm
    simp only [Bool.not_eq_false, Bool.and_eq_true] at hm
    split at h
    · exact absurd h (by simp)
    · rename_i m hmode
      simp only [Host.Outcome.next.injEq] at h
      exact .inr ⟨m, hm.1, hm.2, hmode, h.symm⟩

theorem drawing_next {i : Instr} {es : List ErrorKind} {s t : State} {body : DisplayMode → State → Result State}
    (hb : isBlitter i = false) (h11 : (0x11 : BitVec 8) ∈ statusCodes i) (hes : ∀ e ∈ es, errorCode e ∈ statusCodes i)
    (hs : ∀ u, s.init = true → s.modeValid = true → u = drawn s u.fb → Succeeds i s u)
    (hbody : ∀ m u, u.init = true → Ends u es (body m u)) (h : withMode s body = .next t) :
    Fails i s t ∨ Succeeds i s t := by
  rcases withMode_next h with rfl | ⟨m, hi, hv, -, rfl⟩
  · exact .inl ⟨.notInitialized, h11, by rw [hb]; rfl⟩
  · have he := hbody m (beginCommand s) hi
    cases hr : body m (beginCommand s) with
    | error e =>
      rw [hr] at he
      exact .inl ⟨e, hes e he, by rw [hb]; rfl⟩
    | ok u =>
      rw [hr] at he
      exact .inr (hs _ hi hv (endCommand_canvas he.1))

/-- Everything a command can end with, in every state: an error of its list with nothing else changed, or its own
effect. -/
theorem exec_next {i : Instr} {s t : State} (h : exec i s = .next t) : Fails i s t ∨ Succeeds i s t := by
  cases i with
  | init id =>
    simp only [exec, execInit, Host.Outcome.next.injEq] at h
    subst h
    unfold initBody
    split
    · exact .inl ⟨.alreadyInitialized, by simp [errorCode, statusCodes], rfl⟩
    · split
      · exact .inl ⟨.unknownProfile, by simp [errorCode, statusCodes], rfl⟩
      · rename_i p _
        exact .inr ⟨p, rfl⟩
  | selectMode id =>
    simp only [exec, execSelectMode] at h
    split at h
    · simp only [Host.Outcome.next.injEq] at h
      exact .inl ⟨.notInitialized, by simp [errorCode, statusCodes], h.symm⟩
    · rename_i hi
      split at h
      · simp only [Host.Outcome.next.injEq] at h
        exact .inl ⟨.unknownDisplayMode, by simp [errorCode, statusCodes], h.symm⟩
      · simp only [Host.Outcome.next.injEq] at h
        exact .inr ⟨by simpa using hi, h.symm⟩
  | setZoom on =>
    simp only [exec, execSetZoom] at h
    split at h
    · simp only [Host.Outcome.next.injEq] at h
      exact .inl ⟨.notInitialized, by simp [errorCode, statusCodes], h.symm⟩
    · rename_i hm
      simp only [Bool.not_eq_false, Bool.and_eq_true] at hm
      split at h
      · exact absurd h (by simp)
      · split at h
        · unfold zoomOn keepMode at h
          split at h
          · simp only [Host.Outcome.next.injEq] at h
            exact .inr (.inl ⟨hm.1, hm.2, _, h.symm⟩)
          · split at h
            · exact absurd h (by simp)
            · simp only [Host.Outcome.next.injEq] at h
              exact .inr (.inr ⟨_, _, _, _, hm.1, hm.2, h.symm⟩)
        · unfold zoomOff keepMode at h
          split at h
          · simp only [Host.Outcome.next.injEq] at h
            exact .inr (.inl ⟨hm.1, hm.2, _, h.symm⟩)
          · split at h
            · exact absurd h (by simp)
            · simp only [Host.Outcome.next.injEq] at h
              exact .inr (.inr ⟨_, s.baseModeId, _, _, hm.1, hm.2, h.symm⟩)
  | setContrast level =>
    simp only [exec, execSetContrast, Host.Outcome.next.injEq] at h
    subst h
    unfold needInit contrastBody
    split
    · exact .inl ⟨.notInitialized, by simp [errorCode, statusCodes], rfl⟩
    · rename_i hi
      split
      · exact .inl ⟨.argumentOutOfRange, by simp [errorCode, statusCodes], rfl⟩
      · exact .inr ⟨by simpa using hi, rfl⟩
  | setAmpmLabels am pm =>
    simp only [exec, execSetAmpmLabels, Host.Outcome.next.injEq] at h
    exact .inr ⟨_, _, h.symm⟩
  | setPosition h' c r =>
    simp only [exec, execSetPosition, Host.Outcome.next.injEq] at h
    subst h
    unfold setpos
    split
    · exact .inl ⟨.notInitialized, by simp [errorCode, statusCodes], rfl⟩
    · rename_i hi
      split
      · exact .inl ⟨.argumentOutOfRange, by simp [errorCode, statusCodes], rfl⟩
      · exact .inr ⟨by simpa using hi, _, rfl⟩
  | blitColumn v =>
    simp only [exec, execBlitColumn, Host.Outcome.next.injEq] at h
    subst h
    unfold needInit
    split
    · exact .inl ⟨.notInitialized, by simp [errorCode, statusCodes], rfl⟩
    · rename_i hi
      by_cases hv : s.cur.valid = true
      · have he := blit_ends (v := v) (s := beginCommand s) hv
        cases hr : blit v (beginCommand s) with
        | error e =>
          rw [hr] at he
          simp only [Ends, List.mem_singleton] at he
          exact .inl ⟨e, by subst he; simp [errorCode, statusCodes], rfl⟩
        | ok u =>
          rw [hr] at he
          exact .inr ⟨by simpa using hi, u.fb, u.cur, he.1⟩
      · refine .inl ⟨.noPosition, by simp [errorCode, statusCodes], ?_⟩
        rw [show blit v (beginCommand s) = .error .noPosition by simp [blit, hv]]
        rfl
  | drawBlankColumns n inverted =>
    simp only [exec, execDrawBlankColumns, Host.Outcome.next.injEq] at h
    subst h
    unfold needInit
    split
    · exact .inl ⟨.notInitialized, by simp [errorCode, statusCodes], rfl⟩
    · rename_i hi
      have hi : s.init = true := by simpa using hi
      by_cases hv : s.cur.valid = true
      · have he := blankColumns_ends (n := n.toNat) (inverted := inverted) (s := beginCommand s) hv
        cases hr : blankColumns n.toNat inverted (beginCommand s) with
        | error e =>
          rw [hr] at he
          simp only [Ends, List.mem_singleton] at he
          exact .inl ⟨e, by subst he; simp [errorCode, statusCodes], rfl⟩
        | ok u =>
          rw [hr] at he
          exact .inr ⟨hi, u.fb, u.cur, he.1⟩
      · cases hn : n.toNat with
        | zero => exact .inr ⟨hi, s.fb, s.cur, rfl⟩
        | succ k =>
          refine .inl ⟨.noPosition, by simp [errorCode, statusCodes], ?_⟩
          rw [show blankColumns (k + 1) inverted (beginCommand s) = .error .noPosition by
            simp [blankColumns, blit, hv]]
          rfl
  | drawLine row text cc cw inv aL aR =>
    exact drawing_next rfl (by simp [statusCodes]) (by simp [errorCode, statusCodes]) (fun u hi hv hu => ⟨hi, hv, hu⟩)
      (fun m u hu => lineRender_ends hu) h
  | drawScreen cx cy on cw lines =>
    rcases withMode_next h with rfl | ⟨m, hi, hv, -, rfl⟩
    · exact .inl ⟨.notInitialized, by simp [errorCode, statusCodes], rfl⟩
    · unfold screenBody
      split
      · exact .inl ⟨.layoutError, by simp [errorCode, statusCodes], rfl⟩
      · rcases screenRows_ends (m := m) (cx := cx.toNat) (cy := cy.toNat) (on := on) (cw := cw.toNat) (lines := lines)
          (rows := List.range m.charRows) (s := beginCommand s) (first := none) hi (by simp) with
          ⟨e, he, hr⟩ | ⟨t, first, ht, hf, hr⟩
        · rw [hr]
          refine .inl ⟨e, ?_, rfl⟩
          simp only [List.mem_cons, List.not_mem_nil, or_false] at he
          rcases he with rfl | rfl <;> simp [errorCode, statusCodes]
        · rw [hr]
          cases first with
          | none => exact .inr ⟨hi, hv, .inl (endCommand_canvas ht)⟩
          | some e =>
            have hs : endCommand s (.ok (raiseError e t)) = { drawn s t.fb with status := errorCode e } := by
              unfold OnlyCanvas at ht
              rw [ht]
              rfl
            have hp := hf e rfl
            refine .inr ⟨hi, hv, .inr ?_⟩
            simp only []
            rw [hs]
            cases e <;> simp only [perLineError] at hp <;>
              first | exact .inl rfl | exact .inr rfl | exact absurd hp Bool.false_ne_true
  | drawBarcode row hex =>
    exact drawing_next rfl (by simp [statusCodes]) (by simp [errorCode, statusCodes]) (fun u hi hv hu => ⟨hi, hv, hu⟩)
      (fun m u hu => barcodeRender_ends hu) h
  | drawClock h' mi sec is12h on ah am date =>
    exact drawing_next rfl (by simp [statusCodes]) (by simp [errorCode, statusCodes]) (fun u hi hv hu => ⟨hi, hv, hu⟩)
      (fun m u hu => clockBody_ends hu) h
  | drawSmallClock h' mi is12h =>
    rcases withMode_next h with rfl | ⟨m, hi, hv, -, rfl⟩
    · exact .inl ⟨.notInitialized, by simp [errorCode, statusCodes], rfl⟩
    · rcases smallClockBody_ends (h := h') (mi := mi) (is12h := is12h) (m := m) (s := beginCommand s) hi with
        ⟨e, he, hr⟩ | ⟨t, ht, hr⟩
      · rw [hr]
        refine .inl ⟨e, ?_, rfl⟩
        simp only [List.mem_cons, List.not_mem_nil, or_false] at he
        rcases he with rfl | rfl | rfl <;> simp [errorCode, statusCodes]
      · rw [hr]
        refine .inr ⟨hi, hv, ?_⟩
        unfold OnlyCanvas at ht
        rw [ht]
        rfl
  | drawIcons mask =>
    refine drawing_next (es := [.layoutError, .bufferOverrun]) rfl (by simp [statusCodes]) (by simp [errorCode, statusCodes])
      (fun u hi hv hu => ⟨hi, hv, hu⟩) (fun m u hu => ?_) h
    unfold iconsBody
    split
    · simp [Ends]
    · exact (iconRender_ends hu).mono (by simp)
  | drawSignalStrength level =>
    exact drawing_next rfl (by simp [statusCodes]) (by simp [errorCode, statusCodes]) (fun u hi hv hu => ⟨hi, hv, hu⟩)
      (fun m u hu => signalBody_ends hu) h
  | grabScreenRegion left top width height =>
    simp only [exec, execGrabScreenRegion, Host.Outcome.next.injEq] at h
    subst h
    unfold needInit grabBody
    split
    · exact .inl ⟨.notInitialized, by simp [errorCode, statusCodes], rfl⟩
    · rename_i hi
      have hi : s.init = true := by simpa using hi
      split
      · exact .inr ⟨hi, _, rfl⟩
      · split
        · exact .inl ⟨.bufferOverrun, by simp [errorCode, statusCodes], rfl⟩
        · exact .inr ⟨hi, _, rfl⟩
  | drawBitmap left top width height bytes =>
    simp only [exec, execDrawBitmap, Host.Outcome.next.injEq] at h
    subst h
    unfold needInit bitmapBody
    split
    · exact .inl ⟨.notInitialized, by simp [errorCode, statusCodes], rfl⟩
    · rename_i hi
      have hi : s.init = true := by simpa using hi
      split
      · exact .inr ⟨hi, rfl⟩
      · split
        · exact .inl ⟨.bufferOverrun, by simp [errorCode, statusCodes], rfl⟩
        · exact .inr ⟨hi, endCommand_canvas (bitmapColumns_canvas ..)⟩

end Sys2Proof.Machine
end

