-- ==== Sys2Proof/Laws/Pieces.lean ====
section
/-! SUPPORT. Pieces of a picture: drawing a list of them, said once; and columns drawn in several runs as one run. -/

namespace Sys2Proof.Machine

/-! ## Painting over a painting -/

theorem covered_cons (p : Piece) (ps : List Piece) (c y : Nat) :
    covered (p :: ps) c y ↔ p.covers c y ∨ covered ps c y := by
  simp [covered]

/-- Where no piece covers a pixel the picture is its base. -/
theorem picture_base {ps : List Piece} {b b' : Nat → Nat → Bool} {c y : Nat}
    (h : covered ps c y ∨ b c y = b' c y) : picture b ps c y = picture b' ps c y := by
  induction ps generalizing b b' with
  | nil => exact h.resolve_left (by simp [covered])
  | cons p ps ih =>
    apply ih
    by_cases hp : p.covers c y
    · exact .inr (by simp only [if_pos hp])
    · rcases h with h | h
      · exact .inl (((covered_cons ..).1 h).resolve_left hp)
      · exact .inr (by simp only [if_neg hp, h])

theorem picture_uncovered {ps : List Piece} {b : Nat → Nat → Bool} {c y : Nat} (h : ¬ covered ps c y) :
    picture b ps c y = b c y := by
  induction ps generalizing b with
  | nil => rfl
  | cons p ps ih =>
    rw [covered_cons, not_or] at h
    simp only [picture, ih h.2, if_neg h.1]

/-- What drawing one piece shows. -/
theorem Shows.single {s t : State} {p : Piece} (h : Painted s t p.covers p.pixel) : Shows s t [p] :=
  h.congr (fun c y => by simp [covered]) fun c y hcy => by simp only [picture, if_pos hcy]

/-- Pieces drawn after a piece. -/
theorem Shows.cons {s t u : State} {p : Piece} {ps : List Piece} (h : Painted s t p.covers p.pixel)
    (h' : Shows t u ps) (ht : OnlyCanvas s t) (hu : OnlyCanvas t u) : Shows s u (p :: ps) := by
  refine (h.trans h' ht.hw_eq ht.cfg_eq (ht.trans hu).hw_eq (ht.trans hu).cfg_eq).congr
    (fun c y => covered_cons ..) fun c y hcy => ?_
  split
  · rename_i hc
    exact picture_base (.inl hc)
  · rename_i hc
    rw [picture, picture_uncovered hc, if_pos (hcy.resolve_right hc)]

/-! ## Drawing pieces -/

/-- A list of pieces drawn in order. -/
def drawPieces : List Piece → State → Result State
  | [], s => .ok s
  | p :: ps, s => (drawAt p.h p.x p.y p.cols s).bind (drawPieces ps)

@[simp] theorem drawPieces_nil (s : State) : drawPieces [] s = .ok s := rfl

theorem drawPieces_one (p : Piece) (s : State) : drawPieces [p] s = drawAt p.h p.x p.y p.cols s := by
  simp only [drawPieces]
  cases drawAt p.h p.x p.y p.cols s <;> rfl

theorem drawPieces_append (ps qs : List Piece) (s : State) :
    drawPieces (ps ++ qs) s = (drawPieces ps s).bind (drawPieces qs) := by
  induction ps generalizing s with
  | nil => rfl
  | cons p ps ih =>
    simp only [List.cons_append, drawPieces]
    cases drawAt p.h p.x p.y p.cols s with
    | error e => rfl
    | ok t => exact ih t

/-- The heights that a Cursor can have (R41). -/
def HeightsLegal (ps : List Piece) : Prop := ∀ p ∈ ps, 1 ≤ p.h ∧ p.h ≤ 32

/-- Everything drawing a list of pieces does when it succeeds. -/
theorem drawPieces_ok {ps : List Piece} {s t : State} (hw : Memory.wf s.fb = true) (h : drawPieces ps s = .ok t) :
    OnlyCanvas s t ∧ Memory.wf t.fb = true ∧ Shows s t ps ∧ ∀ p ∈ ps, p.fits s.hw := by
  induction ps generalizing s with
  | nil =>
    simp only [drawPieces, Except.ok.injEq] at h
    subst h
    exact ⟨rfl, hw, (Painted.none rfl (v := fun _ _ => false)).congr (by simp [covered]) (by simp), by simp⟩
  | cons p ps ih =>
    simp only [drawPieces] at h
    cases hd : drawAt p.h p.x p.y p.cols s with
    | error e => rw [hd] at h; exact absurd h (by simp [Except.bind])
    | ok u =>
      rw [hd] at h
      have hu := drawAt_ok hw hd
      obtain ⟨h1, h2, h3, h4⟩ := ih hu.wf h
      refine ⟨hu.canvas.trans h1, h2, Shows.cons hu.painted h3 hu.canvas h1, fun q hq => ?_⟩
      rcases List.mem_cons.1 hq with rfl | hq
      · exact hu.fits
      · have := h4 q hq
        rwa [hu.canvas.hw_eq] at this

/-- Pieces that fit are drawn. -/
theorem drawPieces_exists {ps : List Piece} {s : State} (hw : Memory.wf s.fb = true) (hi : s.init = true)
    (hh : HeightsLegal ps) (hf : ∀ p ∈ ps, p.fits s.hw) : ∃ t, drawPieces ps s = .ok t := by
  induction ps generalizing s with
  | nil => exact ⟨s, rfl⟩
  | cons p ps ih =>
    obtain ⟨u, hu⟩ := drawAt_exists hw hi (hh p (by simp)).1 (hh p (by simp)).2 (hf p (by simp))
    have hc := drawAt_ok hw hu
    simp only [drawPieces, hu]
    exact ih hc.wf (by rw [hc.canvas.init_eq]; exact hi) (fun q hq => hh q (by simp [hq]))
      fun q hq => by rw [hc.canvas.hw_eq]; exact hf q (by simp [hq])

/-- Pieces of which one does not fit are rejected whole (R74). -/
theorem drawPieces_error {ps : List Piece} {s : State} (hw : Memory.wf s.fb = true) (hi : s.init = true)
    (hh : HeightsLegal ps) (hf : ¬ ∀ p ∈ ps, p.fits s.hw) : drawPieces ps s = .error .bufferOverrun := by
  induction ps generalizing s with
  | nil => exact absurd (by simp) hf
  | cons p ps ih =>
    have h1 := (hh p (by simp)).1
    have h2 := (hh p (by simp)).2
    by_cases hp : p.fits s.hw
    · obtain ⟨u, hu⟩ := drawAt_exists hw hi h1 h2 hp
      have hc := drawAt_ok hw hu
      simp only [drawPieces, hu]
      refine ih hc.wf (by rw [hc.canvas.init_eq]; exact hi) (fun q hq => hh q (by simp [hq])) fun hq => hf ?_
      rw [hc.canvas.hw_eq] at hq
      exact List.forall_mem_cons.2 ⟨hp, hq⟩
    · unfold Piece.fits at hp
      rw [not_or] at hp
      simp only [drawPieces, drawAt_error hw hi h1 h2 hp.1 hp.2]
      rfl

/-! ## Columns drawn in several runs -/

/-- Blank columns after a run of columns are one run. -/
theorem blitAll_bind_blank (cols : List Column) (n : Nat) (inverted : Bool) {s : State} (hw : Memory.wf s.fb = true) :
    (blitAll cols s).bind (blankColumns n inverted) =
      blitAll (cols ++ List.replicate n (blankColumn inverted s.cur.heightPx)) s := by
  rw [blitAll_append]
  cases h : blitAll cols s with
  | error e => rfl
  | ok t =>
    obtain ⟨hb, -, -⟩ := blitAll_ok hw h
    change blankColumns n inverted t = blitAll _ t
    rw [blankColumns_eq n inverted t hb.wf, hb.cur, advance_heightPx]

theorem blitAll_bind_blit (xs ys : List Column) (s : State) :
    (blitAll xs s).bind (blitAll ys) = blitAll (xs ++ ys) s := (blitAll_append xs ys s).symm

/-- A run of columns after a piece continues the piece. -/
theorem drawAt_bind_blit (h c r : Nat) (xs ys : List Column) (s : State) :
    (drawAt h c r xs s).bind (blitAll ys) = drawAt h c r (xs ++ ys) s := by
  unfold drawAt
  cases setpos h c r s with
  | error e => rfl
  | ok t => exact blitAll_bind_blit xs ys t

theorem drawAt_bind_blank (h c r : Nat) (xs : List Column) (n : Nat) (inverted : Bool) {s : State}
    (hw : Memory.wf s.fb = true) :
    (drawAt h c r xs s).bind (blankColumns n inverted) =
      drawAt h c r (xs ++ List.replicate n (blankColumn inverted h)) s := by
  unfold drawAt
  rcases setpos_cases h c r s with ⟨-, he⟩ | ⟨-, -, he⟩ | ⟨-, -, -, he⟩
  · rw [he]; rfl
  · rw [he]; rfl
  · rw [he]
    exact blitAll_bind_blank xs n inverted (s := { s with cur := cursorAt s.hw h c r }) hw

/-- Columns continued are columns drawn from where the first ones end. -/
theorem advance_cursorAt (hw : HardwareProfile) (h c r n : Nat) :
    advance hw (cursorAt hw h c r) n = cursorAt hw h (c + n) r := by
  simp only [advance, cursorAt, Cursor.mk.injEq, true_and, and_true]
  ring

theorem drawAt_append (h c r : Nat) (xs ys : List Column) {s : State} (hw : Memory.wf s.fb = true) :
    drawAt h c r (xs ++ ys) s = (drawAt h c r xs s).bind (drawAt h (c + xs.length) r ys) := by
  rw [← drawAt_bind_blit]
  cases hd : drawAt h c r xs s with
  | error e => rfl
  | ok t =>
    have ht := drawAt_ok hw hd
    have hi : s.init = true ∧ 1 ≤ h ∧ h ≤ 32 := by
      unfold drawAt at hd
      rcases setpos_cases h c r s with ⟨-, he⟩ | ⟨-, -, he⟩ | ⟨hi, h1, h2, -⟩
      · rw [he] at hd; exact absurd hd (by simp [Except.bind])
      · rw [he] at hd; exact absurd hd (by simp [Except.bind])
      · exact ⟨hi, h1, h2⟩
    change blitAll ys t = drawAt h (c + xs.length) r ys t
    unfold drawAt
    rw [setpos_ok (by rw [ht.canvas.init_eq]; exact hi.1) hi.2.1 hi.2.2]
    change blitAll ys t = blitAll ys { t with cur := cursorAt t.hw h (c + xs.length) r }
    rw [show cursorAt t.hw h (c + xs.length) r = t.cur by rw [ht.canvas.hw_eq, ← advance_cursorAt, ← ht.cur]]

end Sys2Proof.Machine
end

