-- ==== Sys2Proof/Laws/Rom.lean ====
section
/-! SUPPORT. What a legal configuration says of its tables (R8 to R10, R151). -/

namespace Sys2Proof.Machine

theorem mem_of_lookup {α β : Type} [BEq α] [LawfulBEq α] {a : α} {b : β} {l : List (α × β)}
    (h : l.lookup a = some b) : (a, b) ∈ l := by
  induction l with
  | nil => simp at h
  | cons e l ih =>
    obtain ⟨a', b'⟩ := e
    rw [List.lookup_cons] at h
    split at h
    · rename_i ha
      simp only [Option.some.injEq] at h
      rw [beq_iff_eq] at ha
      simp [ha, h]
    · exact List.mem_cons_of_mem _ (ih h)

/-- The entries of a table are exactly what its lookups answer. -/
theorem mem_tableEntries {α β : Type} [BEq α] [LawfulBEq α] [DecidableEq β] {l : List (α × β)} {e : α × β} :
    e ∈ tableEntries l ↔ l.lookup e.1 = some e.2 := by
  simp only [tableEntries, List.mem_filter, decide_eq_true_eq, and_iff_right_iff_imp]
  exact mem_of_lookup

/-- A property of every entry of a table and of the default is a property of every lookup. -/
theorem lookup_getD {α β : Type} [BEq α] [LawfulBEq α] [DecidableEq β] {l : List (α × β)} {a : α} {d : β}
    {p : β → Prop} (hl : ∀ e ∈ tableEntries l, e.1 = a → p e.2) (hd : p d) : p ((l.lookup a).getD d) := by
  cases h : l.lookup a with
  | none => exact hd
  | some b => exact hl (a, b) (mem_tableEntries.2 h) rfl

theorem shapeOk_length {w h : Nat} {cols : List Column} (hs : shapeOk w h cols = true) : cols.length = w := by
  simp only [shapeOk, Bool.and_eq_true, decide_eq_true_eq] at hs
  exact hs.1

/-- The parts of a legal GlyphStore. -/
structure RomLegal (r : Rom) : Prop where
  font : ∀ e ∈ tableEntries r.font, shapeOk (fontW e.1.1) (fontH e.1.1) e.2 = true
  cjk : ∀ e ∈ tableEntries r.cjk, shapeOk (2 * fontW e.1.1) (fontH e.1.1) e.2 = true
  arrow : ∀ e ∈ tableEntries r.arrow, shapeOk (arrowW e.1.1) (fontH e.1.2.2) e.2 = true
  icon8 : ∀ e ∈ tableEntries r.icon8, shapeOk 8 8 e.2 = true
  icon16 : ∀ e ∈ tableEntries r.icon16, shapeOk 16 16 e.2 = true
  blank8 : shapeOk 8 8 r.iconBlank8 = true
  blank16 : shapeOk 16 16 r.iconBlank16 = true
  signalN : 1 ≤ r.signalN ∧ r.signal.length = r.signalN
  signalH : 1 ≤ r.signalH ∧ r.signalH ≤ 32
  signal : ∀ e ∈ r.signal, shapeOk r.signalW r.signalH e = true
  clkIconH : 1 ≤ r.clkIconH ∧ r.clkIconH ≤ 32

theorem romLegal_parts {r : Rom} (h : romLegal r = true) : RomLegal r := by
  simp only [romLegal, Bool.and_eq_true, decide_eq_true_eq, List.all_eq_true] at h
  constructor <;> tauto

/-- The parts of a legal configuration. -/
structure ConfigLegal (c : Config) : Prop where
  profiles : ∀ id p, profile? c id = some p → profileLegal p = true
  modes : ∀ id m, mode? c id = some m → modeLegal c id m = true
  modesFit : ∀ id m, mode? c id = some m → ∃ pid p, profile? c pid = some p ∧ modeFits p m = true
  rom : RomLegal c.rom
  iconMap : c.iconMap.length = 32
  maxIcons : 1 ≤ c.maxIcons ∧ c.maxIcons ≤ c.maxIconsCeiling
  ampmCap : 1 ≤ c.ampmCap
  barcode : 1 ≤ c.barcodeNarrowPx ∧ c.barcodeNarrowPx < c.barcodeWidePx
  signalSelect : c.signalSelect.length = 102
  signalIndex : ∀ i ∈ c.signalSelect, i < c.rom.signalN
  pixelBitOrder : c.pixelBitOrder = .msbTop

theorem configLegal_parts {c : Config} (h : configLegal c = true) : ConfigLegal c := by
  simp only [configLegal, Bool.and_eq_true, decide_eq_true_eq, List.all_eq_true, List.any_eq_true, Prod.forall,
    Prod.exists, mem_tableEntries] at h
  have hr : RomLegal c.rom := romLegal_parts (by tauto)
  constructor <;> tauto

theorem params_legal : configLegal params = true := LegalConfig.legal _

/-! ## Widths of what the tables answer -/

theorem glyphColumns_length {r : Rom} (h : RomLegal r) (g : GlyphCode) (k : FontKind) :
    (glyphColumns r g k).length = cells g * fontW k := by
  unfold glyphColumns cells
  split
  · refine lookup_getD (p := fun cols : List Column => cols.length = 2 * fontW k) (fun e he hk => ?_) (by simp [blankGlyph])
    rw [shapeOk_length (h.cjk e he), hk]
  · refine lookup_getD (p := fun cols : List Column => cols.length = 1 * fontW k) (fun e he hk => ?_) (by simp [blankGlyph])
    rw [shapeOk_length (h.font e he), hk, Nat.one_mul]

theorem romArrow_length {r : Rom} (h : RomLegal r) (a : ArrowKind) (side : Side) (k : FontKind) :
    (romArrow r a side k).length = arrowW a := by
  refine lookup_getD (p := fun cols : List Column => cols.length = arrowW a) (fun e he hk => ?_) (by simp [blankGlyph])
  rw [shapeOk_length (h.arrow e he), hk]

theorem romIcon8_length {r : Rom} (h : RomLegal r) (id : BitVec 8) : (romIcon8 r id).length = 8 :=
  lookup_getD (p := fun cols : List Column => cols.length = 8) (fun e he _ => shapeOk_length (h.icon8 e he))
    (by simp [blankGlyph])

theorem romIcon16_length {r : Rom} (h : RomLegal r) (id : BitVec 8) : (romIcon16 r id).length = 16 :=
  lookup_getD (p := fun cols : List Column => cols.length = 16) (fun e he _ => shapeOk_length (h.icon16 e he))
    (by simp [blankGlyph])

theorem romSignal_length {r : Rom} (h : RomLegal r) (i : Nat) : (romSignal r i).length = r.signalW := by
  unfold romSignal
  rw [List.getD_eq_getElem?_getD]
  cases hi : r.signal[i]? with
  | none => simp [blankGlyph]
  | some cols => exact shapeOk_length (h.signal cols (List.mem_of_getElem? hi))

theorem fontH_range (k : FontKind) : 8 ≤ fontH k ∧ fontH k ≤ 32 := by cases k <;> decide

theorem fontW_pos (k : FontKind) : 6 ≤ fontW k := by cases k <;> decide

theorem cells_pos (g : GlyphCode) : 1 ≤ cells g ∧ cells g ≤ 2 := by unfold cells; split <;> omega

theorem zoomTarget_defined {c : Config} (hc : configLegal c = true) {id t : BitVec 8} {m : DisplayMode}
    (hm : mode? c id = some m) (ht : m.zoomTarget = some t) : t ≠ id ∧ ∃ m', mode? c t = some m' := by
  have h := (configLegal_parts hc).modes _ _ hm
  simp only [modeLegal, ht, Bool.and_eq_true, decide_eq_true_eq, Option.isSome_iff_exists] at h
  tauto

theorem modeLegal_of_mode {c : Config} (hc : configLegal c = true) {id : BitVec 8} {m : DisplayMode}
    (hm : mode? c id = some m) : modeLegal c id m = true :=
  (configLegal_parts hc).modes _ _ hm

theorem mode_limits {c : Config} (hc : configLegal c = true) {id : BitVec 8} {m : DisplayMode}
    (hm : mode? c id = some m) : m.charRows ≤ 16 ∧ m.charCols ≤ 255 := by
  have h := modeLegal_of_mode hc hm
  simp only [modeLegal, Bool.and_eq_true, decide_eq_true_eq] at h
  tauto

theorem profileLegal_of_profile {c : Config} (hc : configLegal c = true) {id : BitVec 8} {p : HardwareProfile}
    (hp : profile? c id = some p) : profileLegal p = true :=
  (configLegal_parts hc).profiles _ _ hp

end Sys2Proof.Machine
end

