-- ==== Sys2Proof/Laws/Lines.lean ====
section
/-! SUPPORT. The bodies of the drawing commands as lists of pieces: text lines and barcodes. -/

namespace Sys2Proof.Machine

theorem result_bind_assoc {α β γ : Type} (x : Result α) (f : α → Result β) (g : β → Result γ) :
    (x.bind f).bind g = x.bind fun a => (f a).bind g := by
  cases x <;> rfl

/-- A step after a run of columns that is a run of columns itself continues it. -/
theorem drawAt_bind {h c r : Nat} {xs ys : List Column} {s : State} {f : State → Result State}
    (hw : Memory.wf s.fb = true)
    (hf : ∀ t, OnlyCanvas s t → Memory.wf t.fb = true → t.cur.heightPx = h → f t = blitAll ys t) :
    (drawAt h c r xs s).bind f = drawAt h c r (xs ++ ys) s := by
  rw [← drawAt_bind_blit]
  cases hd : drawAt h c r xs s with
  | error e => rfl
  | ok t =>
    have ht := drawAt_ok hw hd
    exact hf t ht.canvas ht.wf (by rw [ht.cur]; rfl)

theorem setpos_eq_drawAt (h c r : Nat) (s : State) : setpos h c r s = drawAt h c r [] s := by
  unfold drawAt
  cases setpos h c r s <;> rfl

theorem blankColumn_eq (n : Nat) (inverted : Bool) (h : Nat) :
    List.replicate n (blankColumn inverted h) = blanks n h inverted := rfl

/-- An arrow cell is a run of columns (R204). -/
theorem arrowCell_eq {m : DisplayMode} {side : Side} {flag invert : Bool} {s : State} (hw : Memory.wf s.fb = true)
    (hr : RomLegal s.cfg.rom) :
    arrowCell m side flag invert s = blitAll (arrowColumns s.cfg m side flag invert s.cur.heightPx) s := by
  unfold arrowCell arrowColumns
  have hlen := romArrow_length hr m.arrowKind side m.fontKind
  by_cases h0 : arrowW m.arrowKind = 0
  · rw [if_pos h0]
    rw [h0, List.length_eq_zero_iff] at hlen
    split
    · rw [hlen]; rfl
    · rw [h0]; rfl
  · rw [if_neg h0]
    cases flag <;> cases invert <;> simp [blankColumns_eq, hw, blankColumn_eq]

theorem lineRows_eq (m : DisplayMode) (row : Nat) : lineRows m row = (lineTop m row, lineHeight m row) := by
  unfold lineRows lineTop lineHeight
  simp only [Nat.pos_iff_ne_zero]
  split <;> rfl

theorem lineGlyphColumns_eq (c : Config) (k : FontKind) (he cc cw : Nat) (inv : Bool) :
    lineGlyphColumns c.rom k he cc cw inv = fun g => cursorColumns c k he cc cw inv g.1 g.2 := by
  funext g
  unfold lineGlyphColumns cursorColumns inCursor
  have hd : (decide (0 < cw) && decide (cc ≤ g.2) && decide (g.2 < cc + cw)) =
      decide (0 < cw ∧ cc ≤ g.2 ∧ g.2 < cc + cw) := by
    simp [Bool.decide_and, Bool.and_assoc]
  rw [hd]
  cases inv ^^ decide (0 < cw ∧ cc ≤ g.2 ∧ g.2 < cc + cw)
  · simp
  · simp only [if_true]
    rfl

/-- A text line is one piece (R200, R206). -/
theorem lineRender_eq {m : DisplayMode} {row : Nat} {text : List Byte} {cc cw : Nat} {inv aL aR : Bool} {s : State}
    (hw : Memory.wf s.fb = true) (hr : RomLegal s.cfg.rom) :
    lineRender m row text cc cw inv aL aR s =
      if m.charRows ≤ row then .error .layoutError
      else if 32 < lineHeight m row then .error .layoutError
      else drawPieces [linePiece s.cfg m row text cc cw inv aL aR] s := by
  unfold lineRender
  split
  · rfl
  · rw [lineRows_eq]
    simp only []
    split
    · rfl
    · rw [drawPieces_one]
      simp only [bind, linePiece, lineColumns]
      rw [setpos_eq_drawAt]
      simp only [← result_bind_assoc]
      let seq := decodeText s.cfg.charMap text m.charCols (some m.fontKind)
      let pad := m.charCols - textWidth seq
      rw [drawAt_bind hw (ys := arrowColumns s.cfg m .left aL inv (lineHeight m row)),
        drawAt_bind hw (ys := blanks (pad / 2 * fontW m.fontKind) (lineHeight m row) inv),
        drawAt_bind hw (ys := seq.flatMap
          (fun g => cursorColumns s.cfg m.fontKind (lineHeight m row) cc cw inv g.1 g.2)),
        drawAt_bind hw (ys := blanks ((pad - pad / 2) * fontW m.fontKind) (lineHeight m row) inv),
        drawAt_bind hw (ys := arrowColumns s.cfg m .right aR inv (lineHeight m row))]
      · rfl
      · intro t ht htw hth
        rw [arrowCell_eq htw (by rw [ht.cfg_eq]; exact hr), ht.cfg_eq, hth]
      · intro t ht htw hth
        rw [blankColumns_eq _ _ _ htw, hth, blankColumn_eq]
      · intro t ht htw hth
        rw [lineGlyphColumns_eq, ht.cfg_eq]
      · intro t ht htw hth
        rw [blankColumns_eq _ _ _ htw, hth, blankColumn_eq]
      · intro t ht htw hth
        rw [arrowCell_eq htw (by rw [ht.cfg_eq]; exact hr), ht.cfg_eq, hth]

/-- The width of a line, whatever it holds (R206). -/
theorem textWidth_le (m : CharMap) (limit : Nat) (k : Option FontKind) (fuel : Nat) (bytes : List Byte) (w : Nat)
    (hw : w ≤ limit) : w + textWidth (decodeLoop m limit k fuel bytes w) ≤ limit := by
  induction fuel generalizing bytes w with
  | zero => exact hw
  | succ fuel ih =>
    unfold decodeLoop
    split
    · exact hw
    · split
      · exact hw
      · rename_i cp n _
        simp only []
        split
        · exact ih _ _ hw
        · split
          · exact hw
          · have := ih (bytes.drop n) (w + cells (charCode m cp)) (by omega)
            simp only [textWidth]
            omega

/-! ## Barcodes -/

/-- A barcode is one piece (R272). -/
theorem barcodeRender_eq {m : DisplayMode} {row : Nat} {hex : List Byte} {s : State} (hw : Memory.wf s.fb = true) :
    barcodeRender m row hex s =
      if m.charRows ≤ row then .error .layoutError
      else
        match barcodeData hex with
        | .error e => .error e
        | .ok ps =>
          if wVis s.hw < (barcodeColumns s.cfg (fontH m.fontKind) ps).length then .error .barcodeTooLong
          else drawPieces [barcodePiece s.cfg s.hw m row ps] s := by
  unfold barcodeRender
  split
  · rfl
  · cases barcodeData hex with
    | error e => rfl
    | ok ps =>
      simp only []
      split
      · rfl
      · rw [drawPieces_one]
        simp only [bind, barcodePiece]
        rw [setpos_eq_drawAt]
        simp only [← result_bind_assoc]
        let cols := barcodeColumns s.cfg (fontH m.fontKind) ps
        let pad := wVis s.hw - cols.length
        rw [drawAt_bind hw (ys := List.replicate (pad / 2) 0), drawAt_bind hw (ys := cols),
          drawAt_bind hw (ys := List.replicate (pad - pad / 2) 0)]
        · rfl
        · intro t ht htw hth
          rw [blankColumns_eq _ _ _ htw]
          rfl
        · intro t ht htw hth
          rfl
        · intro t ht htw hth
          rw [blankColumns_eq _ _ _ htw]
          rfl

theorem symElement_length (c : Config) (h : Nat) (p : BitVec 9) (e : Nat) :
    (symElement c h p e).length = if p.getLsbD (8 - e) then c.barcodeWidePx else c.barcodeNarrowPx := by
  simp [symElement]

/-- The number of wide elements of a pattern. -/
def wideCount (p : BitVec 9) : Nat := (List.range 9).countP fun e => p.getLsbD (8 - e)

theorem sym_length (c : Config) (h : Nat) (p : BitVec 9) (hp : wideCount p = 3) : (sym c h p).length = symbolWidth c := by
  have hsum : ∀ l : List Nat, ((l.map fun e => (symElement c h p e).length).sum : Nat) =
      (l.countP fun e => p.getLsbD (8 - e)) * c.barcodeWidePx
        + (l.length - l.countP fun e => p.getLsbD (8 - e)) * c.barcodeNarrowPx := by
    intro l
    induction l with
    | nil => simp
    | cons e l ih =>
      have hle := List.countP_le_length (p := fun e => p.getLsbD (8 - e)) (l := l)
      rw [List.map_cons, List.sum_cons, ih, symElement_length, List.countP_cons, List.length_cons]
      by_cases hb : p.getLsbD (8 - e) = true
      · simp only [hb, if_true, Nat.add_sub_add_right]
        ring
      · simp only [hb]
        rw [if_neg (by simp), if_neg (by simp), Nat.add_zero, Nat.succ_sub hle, Nat.succ_eq_add_one]
        ring
  unfold sym symbolWidth
  rw [List.length_flatMap, hsum]
  unfold wideCount at hp
  rw [hp]
  simp
  ring

/-- Every pattern of the table has three wide elements (R270). -/
theorem code39_wide {b : Byte} {p : BitVec 9} (h : code39? b = some p) : wideCount p = 3 := by
  unfold code39? at h
  split at h <;> first | (simp only [Option.some.injEq] at h; subst h; decide) | exact absurd h (by simp)

theorem code39Patterns_wide {bs : List Byte} {ps : List (BitVec 9)} (h : code39Patterns bs = some ps) :
    ps.length = bs.length ∧ ∀ p ∈ ps, wideCount p = 3 := by
  induction bs generalizing ps with
  | nil => simp only [code39Patterns, Option.some.injEq] at h; subst h; simp
  | cons b bs ih =>
    unfold code39Patterns at h
    split at h
    · rename_i p qs hp hqs
      simp only [Option.some.injEq] at h
      subst h
      obtain ⟨h1, h2⟩ := ih hqs
      exact ⟨by simp [h1], List.forall_mem_cons.2 ⟨code39_wide hp, h2⟩⟩
    · exact absurd h (by simp)

theorem barcodeColumns_length (c : Config) (h : Nat) {ps : List (BitVec 9)} (hp : ∀ p ∈ ps, wideCount p = 3) :
    (barcodeColumns c h ps).length = barcodeWidth c ps.length := by
  have hs : (sym c h code39StartStop).length = symbolWidth c := sym_length c h _ (by decide)
  have hd : ((ps.flatMap fun p => sym c h p ++ [0]).length : Nat) = ps.length * (symbolWidth c + 1) := by
    induction ps with
    | nil => simp
    | cons p ps ih =>
      rw [List.flatMap_cons, List.length_append, ih fun q hq => hp q (by simp [hq]), List.length_append,
        sym_length c h p (hp p (by simp))]
      simp
      ring
  unfold barcodeColumns barcodeWidth
  rw [List.length_append, List.length_append, hs, hd]
  ring

/-! ## The string of a barcode (R272, R273) -/

/-- When a barcode's string is accepted. -/
theorem barcodeData_ok_iff (hex : List Byte) (ps : List (BitVec 9)) :
    barcodeData hex = .ok ps ↔ BarcodeText hex ps := by
  unfold barcodeData BarcodeText
  simp only []
  generalize untilNul hex = t
  constructor
  · intro h
    split at h
    · exact absurd h (by simp)
    · rename_i hz
      split at h
      · exact absurd h (by simp)
      · rename_i qs hqs
        simp only [Except.ok.injEq] at h
        subst h
        refine ⟨t.take (t.length - barcodeMaxDigits), t.drop (t.length - barcodeMaxDigits),
          (List.take_append_drop _ _).symm, ?_, ?_, hqs⟩
        · simpa [List.all_eq_true] using hz
        · by_cases hl : barcodeMaxDigits ≤ t.length
          · exact .inl (by rw [List.length_drop]; omega)
          · refine .inr ⟨?_, by rw [List.length_drop]; omega⟩
            rw [Nat.sub_eq_zero_of_le (by omega)]; rfl
  · rintro ⟨zeros, kept, rfl, hz, hl, hp⟩
    have hex : (zeros ++ kept).length - barcodeMaxDigits = zeros.length := by
      rw [List.length_append]
      rcases hl with hl | ⟨rfl, hl⟩
      · omega
      · simp; omega
    rw [hex, List.take_left, List.drop_left, if_neg, hp]
    simpa [List.all_eq_true] using hz

end Sys2Proof.Machine
end

