-- ==== Sys2Proof/Laws/Faces.lean ====
section
/-! SUPPORT. The bodies of the drawing commands as lists of pieces: icons, the signal glyph, texts and clocks. -/

namespace Sys2Proof.Machine

/-! ## Icons (R277) -/

theorem drawPieces_cons_ok {p : Piece} {ps : List Piece} {s t : State} (h : drawAt p.h p.x p.y p.cols s = .ok t) :
    drawPieces (p :: ps) s = drawPieces ps t := by
  simp only [drawPieces, h]
  rfl

/-- The icon row is one piece, or two (R277). -/
theorem iconRender_eq {m : DisplayMode} {mask : Word} {s : State} (hw : Memory.wf s.fb = true) :
    iconRender m mask s = drawPieces (iconPieces s.cfg s.hw m mask) s := by
  unfold iconRender iconPieces
  simp only [bind]
  rw [setpos_eq_drawAt]
  simp only [← result_bind_assoc]
  rw [drawAt_bind hw (ys := stripColumns s.cfg m.iconKind mask) fun t ht _ _ => by rw [ht.cfg_eq]]
  have hs : drawAt (iconSize m.iconKind) 0 m.iconYPx ([] ++ stripColumns s.cfg m.iconKind mask) s =
      drawPieces [stripPiece s.cfg m mask] s := by
    rw [drawPieces_one]
    rfl
  rw [hs]
  split
  · rename_i hk
    rw [show [stripPiece s.cfg m mask, separatorPiece s.hw m] = [stripPiece s.cfg m mask] ++ [separatorPiece s.hw m]
      from rfl, drawPieces_append]
    cases hd : drawPieces [stripPiece s.cfg m mask] s with
    | error e => rfl
    | ok t =>
      have ht := (drawPieces_ok hw hd).1
      change ((setpos 1 0 (separatorRow m) t).bind fun u => blitAll (separatorColumns (wVis u.hw)) u) =
        drawPieces [separatorPiece s.hw m] t
      rw [drawPieces_one, setpos_eq_drawAt,
        drawAt_bind (drawPieces_ok hw hd).2.1 (ys := separatorColumns (wVis s.hw)) fun u hu _ _ => by
          rw [hu.hw_eq, ht.hw_eq]]
      rfl
  · cases drawPieces [stripPiece s.cfg m mask] s <;> rfl

theorem iconPieces_heights (c : Config) (hw : HardwareProfile) (m : DisplayMode) (mask : Word) :
    HeightsLegal (iconPieces c hw m mask) := by
  unfold iconPieces HeightsLegal
  have hz : 1 ≤ iconSize m.iconKind ∧ iconSize m.iconKind ≤ 32 := by unfold iconSize; split <;> omega
  split <;> simp [stripPiece, separatorPiece, hz]

/-! ## Texts (R207) -/

theorem itemColumns_length {c : Config} (hr : RomLegal c.rom) (k : FontKind) (i : TextItem) :
    (itemColumns c k i).length = match i with | .glyph g => cells g * fontW k | .blank => fontW k := by
  cases i with
  | glyph g => exact glyphColumns_length hr g k
  | blank => simp [itemColumns]

theorem itemColumns_pos {c : Config} (hr : RomLegal c.rom) (k : FontKind) (i : TextItem) :
    6 ≤ (itemColumns c k i).length := by
  rw [itemColumns_length hr]
  have hw := fontW_pos k
  cases i with
  | glyph g =>
    have hc := (cells_pos g).1
    calc 6 ≤ 1 * fontW k := by omega
      _ ≤ cells g * fontW k := Nat.mul_le_mul_right _ hc
  | blank => exact hw

/-- The items of a text are one run of columns (R207). -/
theorem drawItems_eq {k : FontKind} {x : Nat} {items : List TextItem} {used : Nat} {s : State}
    (hw : Memory.wf s.fb = true) (hr : RomLegal s.cfg.rom) :
    drawItems k x items used s =
      (blitAll ((itemsThatFit s.cfg k (wVis s.hw - x - used) items).flatMap (itemColumns s.cfg k)) s).bind fun t =>
        .ok (t, used + ((itemsThatFit s.cfg k (wVis s.hw - x - used) items).flatMap (itemColumns s.cfg k)).length) := by
  induction items generalizing used s with
  | nil => rfl
  | cons i items ih =>
    have hpos := itemColumns_pos hr k i
    have hstep : ∀ n, (itemColumns s.cfg k i).length = n →
        (if wVis s.hw < x + used + n then (.ok (s, used) : Result (State × Nat))
          else (blitAll (itemColumns s.cfg k i) s).bind fun t => drawItems k x items (used + n) t) =
        (blitAll ((if wVis s.hw - x - used < (itemColumns s.cfg k i).length then [] else
            i :: itemsThatFit s.cfg k (wVis s.hw - x - used - (itemColumns s.cfg k i).length) items).flatMap
              (itemColumns s.cfg k)) s).bind fun t =>
          .ok (t, used + ((if wVis s.hw - x - used < (itemColumns s.cfg k i).length then [] else
            i :: itemsThatFit s.cfg k (wVis s.hw - x - used - (itemColumns s.cfg k i).length) items).flatMap
              (itemColumns s.cfg k)).length) := by
      intro n hn
      rw [hn] at hpos ⊢
      by_cases hfit : wVis s.hw < x + used + n
      · rw [if_pos hfit, if_pos (by omega)]
        rfl
      · rw [if_neg hfit, if_neg (by omega), List.flatMap_cons, blitAll_append]
        cases hb : blitAll (itemColumns s.cfg k i) s with
        | error e => rfl
        | ok t =>
          obtain ⟨ht, -, -⟩ := blitAll_ok hw hb
          change drawItems k x items (used + n) t = _
          rw [ih ht.wf (by rw [ht.canvas.cfg_eq]; exact hr), ht.canvas.cfg_eq, ht.canvas.hw_eq,
            show wVis s.hw - x - (used + n) = wVis s.hw - x - used - n by omega, List.length_append, hn]
          simp only [Except.bind, Nat.add_assoc]
    cases i with
    | blank =>
      unfold drawItems itemsThatFit
      rw [show itemSkipped k .blank = false from rfl, if_neg Bool.false_ne_true]
      rw [← hstep (fontW k) (by simp [itemColumns])]
      split
      · rfl
      · change (blankColumns (fontW k) false s).bind _ = _
        rw [blankColumns_eq _ _ _ hw]
        rfl
    | glyph g =>
      unfold drawItems itemsThatFit
      by_cases hsk : dbl g = true ∧ k = .f8x6
      · rw [if_pos hsk, show itemSkipped k (.glyph g) = true by simp [itemSkipped, hsk], if_pos rfl, ih hw hr]
      · rw [if_neg hsk, show itemSkipped k (.glyph g) = false by simpa [itemSkipped] using hsk,
          if_neg Bool.false_ne_true]
        exact hstep (cells g * fontW k) (glyphColumns_length hr g k)

/-- A text is one piece (R207); its width comes with it. -/
theorem drawText_eq {k : FontKind} {x y : Nat} {items : List TextItem} {s : State}
    (hw : Memory.wf s.fb = true) (hr : RomLegal s.cfg.rom) :
    drawText k x y items s =
      (drawPieces [textPiece s.cfg s.hw k x y items] s).bind fun t =>
        .ok (t, (textPiece s.cfg s.hw k x y items).cols.length) := by
  rw [drawPieces_one]
  unfold drawText drawAt
  simp only [bind, textPiece]
  rcases setpos_cases (fontH k) x y s with ⟨-, he⟩ | ⟨-, -, he⟩ | ⟨-, -, -, he⟩
  · rw [he]; rfl
  · rw [he]; rfl
  · rw [he]
    change drawItems k x items 0 { s with cur := cursorAt s.hw (fontH k) x y } = _
    rw [drawItems_eq (s := { s with cur := cursorAt s.hw (fontH k) x y }) hw hr]
    simp only [Nat.sub_zero, Nat.zero_add]
    rfl

theorem drawCodes_eq {k : FontKind} {x y : Nat} {codes : List GlyphCode} {s : State}
    (hw : Memory.wf s.fb = true) (hr : RomLegal s.cfg.rom) :
    drawCodes k x y codes s = drawPieces [textPiece s.cfg s.hw k x y (codes.map .glyph)] s := by
  unfold drawCodes
  simp only [bind]
  rw [drawText_eq hw hr, result_bind_assoc]
  cases drawPieces [textPiece s.cfg s.hw k x y (codes.map .glyph)] s <;> rfl

theorem drawString_eq {k : FontKind} {x y : Nat} {bytes : List Byte} {s : State}
    (hw : Memory.wf s.fb = true) (hr : RomLegal s.cfg.rom) :
    drawString k x y bytes s = drawPieces [stringPiece s.cfg s.hw k x y bytes] s := drawCodes_eq hw hr

/-! ## The time (R242) -/

theorem drawElem_eq {t : DigitTable} {e : TimeElem} {s : State} (hw : Memory.wf s.fb = true)
    (he : ∀ d, e = .digit d → d ≤ 9) : drawElem t e s = blitAll (elemColumns s.cfg t e) s := by
  cases e with
  | digit d => simp [drawElem, elemColumns, he d rfl]
  | colon => rfl
  | blank => rw [drawElem, blankColumns_eq _ _ _ hw]; rfl

theorem drawElems_eq {t : DigitTable} {es : List TimeElem} {s : State} (hw : Memory.wf s.fb = true)
    (he : ∀ d, .digit d ∈ es → d ≤ 9) : drawElems t es s = blitAll (es.flatMap (elemColumns s.cfg t)) s := by
  induction es generalizing s with
  | nil => rfl
  | cons e es ih =>
    simp only [drawElems, bind]
    rw [drawElem_eq hw (fun d hd => he d (by simp [hd])), List.flatMap_cons, blitAll_append]
    cases hb : blitAll (elemColumns s.cfg t e) s with
    | error e => rfl
    | ok u =>
      obtain ⟨hu, -, -⟩ := blitAll_ok hw hb
      change drawElems t es u = blitAll _ u
      rw [ih hu.wf (fun d hd => he d (by simp [hd])), hu.canvas.cfg_eq]

/-- The digits of a legal time are digits (R241). -/
theorem timeDigits_le {h mi : Nat} (hh : h ≤ 23) (hm : mi ≤ 59) (is12h : Bool) :
    ∀ d, .digit d ∈ timeDigits h mi is12h → d ≤ 9 := by
  intro d hd
  have hs : shownHour h is12h ≤ 23 := by
    unfold shownHour
    split
    · split <;> omega
    · exact hh
  simp only [timeDigits, List.mem_cons, TimeElem.digit.injEq, List.not_mem_nil, or_false, reduceCtorEq, false_or] at hd
  rcases hd with hd | hd | hd | hd
  · unfold hourTens at hd
    split at hd
    · exact absurd hd (by simp)
    · simp only [TimeElem.digit.injEq] at hd
      omega
  · omega
  · omega
  · omega

theorem layoutDigits_eq {k : ClockKind} (hk : k ≠ .none) :
    layoutDigits k = (if k = .l0 ∨ k = .l4 then .big32 else if k = .l2 then .dig22 else .txt32) ∧
      digitHeight (layoutDigits k) = if k = .l2 then 22 else 32 := by
  cases k <;> first | exact absurd rfl hk | decide

theorem drawDigits_eq {m : DisplayMode} {h mi : Nat} {is12h : Bool} {s : State} (hw : Memory.wf s.fb = true)
    (hh : h ≤ 23) (hm : mi ≤ 59) (hk : m.clockKind ≠ .none) :
    drawDigits (layoutDigits m.clockKind) (if is12h then m.clockGeom.timeX12 else m.clockGeom.timeX24)
        m.clockGeom.timeY (timeDigits h mi is12h) s =
      drawPieces [timePiece s.cfg m h mi is12h] s := by
  obtain ⟨h1, h2⟩ := layoutDigits_eq hk
  unfold drawDigits
  simp only [bind]
  rw [drawPieces_one, setpos_eq_drawAt,
    drawAt_bind hw (ys := (timeDigits h mi is12h).flatMap (elemColumns s.cfg (layoutDigits m.clockKind)))
      fun t ht htw _ => by rw [drawElems_eq htw (timeDigits_le hh hm is12h), ht.cfg_eq], h2]
  rw [h1]
  rfl

/-! ## Clock faces (R250) -/

theorem drawClockIcon_eq {icon : ClockIcon} {x y : Nat} {s : State} (hw : Memory.wf s.fb = true) :
    drawClockIcon icon x y s =
      drawPieces [⟨x, y, s.cfg.rom.clkIconH, clockIconColumns s.cfg.rom icon⟩] s := by
  unfold drawClockIcon
  simp only [bind]
  rw [drawPieces_one, setpos_eq_drawAt,
    drawAt_bind hw (ys := clockIconColumns s.cfg.rom icon) fun t ht _ _ => by rw [ht.cfg_eq]]
  rfl

theorem drawLabel_eq {m : DisplayMode} {h : Nat} {is12h : Bool} {s : State} (hw : Memory.wf s.fb = true)
    (hr : RomLegal s.cfg.rom) : drawLabel m h is12h s = drawPieces (labelPieces s m h is12h) s := by
  unfold drawLabel labelPieces
  split
  · rfl
  · split
    · rw [drawClockIcon_eq hw]
      split <;> rfl
    · rw [drawCodes_eq hw hr]
      rfl

theorem drawAlarmRow_eq {m : DisplayMode} {on : Bool} {s : State} (hw : Memory.wf s.fb = true) :
    drawAlarmRow m on s =
      drawPieces (if m.iconKind = .none then []
        else iconPieces s.cfg s.hw m (if on then 1#32 <<< s.cfg.clockAlarmIconBit.val else 0)) s := by
  unfold drawAlarmRow
  split
  · rfl
  · exact iconRender_eq hw

theorem length_pos_iff_ne {α : Type} (l : List α) : 0 < l.length ↔ l ≠ [] := List.length_pos_iff

theorem drawLayoutRest_eq {m : DisplayMode} {alarm : List Byte} {on : Bool} {date : List Byte} {s : State}
    (hw : Memory.wf s.fb = true) (hr : RomLegal s.cfg.rom) (ha : alarm ≠ []) :
    drawLayoutRest m alarm on date s = drawPieces (restPieces s.cfg s.hw m on alarm date) s := by
  unfold drawLayoutRest restPieces
  cases m.clockKind with
  | none => rfl
  | l0 =>
    simp only []
    cases on
    · rfl
    · exact drawString_eq hw hr
  | l1 =>
    simp only [bind, length_pos_iff_ne]
    rw [drawPieces_append]
    split
    · rw [drawString_eq hw hr]
      cases hd : drawPieces [stringPiece s.cfg s.hw m.fontKind m.clockGeom.dateX m.clockGeom.dateY date] s with
      | error e => rfl
      | ok t =>
        obtain ⟨ht, htw, -, -⟩ := drawPieces_ok hw hd
        change drawAlarmRow m on t = drawPieces _ t
        rw [drawAlarmRow_eq htw, ht.cfg_eq, ht.hw_eq]
    · exact drawAlarmRow_eq hw
  | l2 =>
    simp only []
    cases on
    · rfl
    · exact drawClockIcon_eq hw
  | l3 =>
    simp only [length_pos_iff_ne, dateAlarmLine]
    cases on <;> by_cases hd : date = [] <;> simp [hd, ha, drawString_eq hw hr]
  | l4 => exact drawAlarmRow_eq hw

theorem alarmText_ne (h mi : Nat) (is12h : Bool) : alarmText h mi is12h ≠ [] := by simp [alarmText]

theorem labelPieces_congr {s t : State} (h : OnlyCanvas s t) (m : DisplayMode) (hours : Nat) (is12h : Bool) :
    labelPieces t m hours is12h = labelPieces s m hours is12h := by
  rw [h]
  rfl

/-- A clock face is a list of pieces over a cleared FrameBuffer (R250, R251). -/
theorem clockBody_eq {hours minutes seconds : BitVec 8} {is12h on : Bool} {ah am : BitVec 8} {date : List Byte}
    {m : DisplayMode} {s : State} (hr : RomLegal s.cfg.rom) :
    clockBody hours minutes seconds is12h on ah am date m s =
      if clockLegal hours minutes seconds ah am = false then .error .argumentOutOfRange
      else if m.clockKind = .none then .error .unsupportedClockLayout
      else drawPieces (clockPieces s m hours.toNat minutes.toNat is12h on ah.toNat am.toNat date) (clearFb s) := by
  unfold clockBody
  split
  · rfl
  · rename_i hl
    split
    · rfl
    · rename_i hk
      have hl' : hours.toNat ≤ 23 ∧ minutes.toNat ≤ 59 := by
        simp only [clockLegal, timeLegal, Bool.not_eq_false, Bool.and_eq_true, decide_eq_true_eq] at hl
        exact hl.1.1
      have hw : Memory.wf (clearFb s).fb = true := rfl
      simp only [bind, clockPieces]
      rw [drawDigits_eq hw hl'.1 hl'.2 hk, drawPieces_append, drawPieces_append]
      change _ = ((drawPieces [timePiece s.cfg m hours.toNat minutes.toNat is12h] (clearFb s)).bind _).bind _
      rw [clearFb_cfg]
      cases hd : drawPieces [timePiece s.cfg m hours.toNat minutes.toNat is12h] (clearFb s) with
      | error e => rfl
      | ok t =>
        obtain ⟨ht, htw, -, -⟩ := drawPieces_ok hw hd
        have htr : RomLegal t.cfg.rom := by rw [ht.cfg_eq]; exact hr
        change ((drawLabel m hours.toNat is12h t).bind _) = (drawPieces (labelPieces s m hours.toNat is12h) t).bind _
        rw [drawLabel_eq htw htr, labelPieces_congr ht]
        change ((drawPieces (labelPieces s m hours.toNat is12h) t).bind _) = _
        cases hd' : drawPieces (labelPieces s m hours.toNat is12h) t with
        | error e => rfl
        | ok u =>
          obtain ⟨hu, huw, -, -⟩ := drawPieces_ok htw hd'
          change drawLayoutRest m _ on date u = drawPieces _ u
          rw [drawLayoutRest_eq huw (by rw [hu.cfg_eq]; exact htr) (alarmText_ne _ _ _), hu.cfg_eq, hu.hw_eq, ht.cfg_eq,
            ht.hw_eq]
          rfl

/-! ## The signal glyph (R280) and the small clock (R260) -/

theorem signalBody_eq {level : Int} {m : DisplayMode} {s : State} (hw : Memory.wf s.fb = true) :
    signalBody level m s =
      if levelLegal level = false then .error .argumentOutOfRange
      else
        match m.signalPos with
        | none => .error .layoutError
        | some p =>
          drawPieces [⟨p.column, p.rowPx, s.cfg.rom.signalH, romSignal s.cfg.rom (signalSelect s.cfg level)⟩] s := by
  unfold signalBody
  split
  · rfl
  · cases m.signalPos with
    | none => rfl
    | some p =>
      simp only [bind]
      rw [drawPieces_one, setpos_eq_drawAt,
        drawAt_bind hw (ys := romSignal s.cfg.rom (signalSelect s.cfg level)) fun t ht _ _ => by rw [ht.cfg_eq]]
      rfl

theorem smallClockItems_eq (s : State) (m : DisplayMode) (p : SmallClockPos) (h mi : Nat) (is12h : Bool) :
    textPiece s.cfg s.hw m.fontKind p.column p.rowPx (smallClockItems h mi is12h s) =
      smallClockPiece s m p h mi is12h := by
  unfold smallClockItems smallClockPiece ampmLabel
  congr 3

/-- The small clock is its text and what it erases (R260, R261). -/
theorem smallClockBody_eq {hours minutes : BitVec 8} {is12h : Bool} {m : DisplayMode} {s : State}
    (hw : Memory.wf s.fb = true) (hr : RomLegal s.cfg.rom) :
    smallClockBody hours minutes is12h m s =
      if timeLegal hours minutes = false then .error .argumentOutOfRange
      else
        match m.smallClock with
        | none => .error .unsupportedClockLayout
        | some p =>
          (drawPieces (smallClockPieces s m p hours.toNat minutes.toNat is12h) s).bind fun t =>
            .ok { t with small12 := is12h } := by
  unfold smallClockBody
  split
  · rfl
  · cases m.smallClock with
    | none => rfl
    | some p =>
      simp only [bind]
      rw [drawText_eq hw hr, smallClockItems_eq, result_bind_assoc]
      unfold smallClockPieces
      set text := smallClockPiece s m p hours.toNat minutes.toNat is12h with htext
      by_cases hc : is12h = false ∧ s.small12 = true
      · simp only [if_pos hc]
        rw [show ∀ q, [text, q] = [text] ++ [q] from fun _ => rfl, drawPieces_append, result_bind_assoc]
        cases hd : drawPieces [text] s with
        | error e => rfl
        | ok t =>
          obtain ⟨ht, htw, -, -⟩ := drawPieces_ok hw hd
          change (blankColumns (staleColumns t.hw p text.cols.length) false t).bind _ = Except.bind (drawPieces _ t) _
          congr 1
          rw [ht.hw_eq]
          have h1 := drawAt_bind_blank text.h text.x text.y text.cols
            (staleColumns s.hw p text.cols.length) false hw
          have h2 := drawAt_append text.h text.x text.y text.cols
            (List.replicate (staleColumns s.hw p text.cols.length) (blankColumn false text.h)) hw
          rw [drawPieces_one] at hd
          rw [← h1, hd] at h2
          rw [drawPieces_one]
          exact h2
      · simp only [if_neg hc]
        cases drawPieces [text] s <;> rfl

theorem smallClockPieces_heights (s : State) (m : DisplayMode) (p : SmallClockPos) (h mi : Nat) (is12h : Bool) :
    HeightsLegal (smallClockPieces s m p h mi is12h) := by
  have hf := fontH_range m.fontKind
  unfold smallClockPieces HeightsLegal
  simp only []
  split <;> simp [smallClockPiece, textPiece] <;> omega

theorem clockPieces_heights {s : State} (hr : RomLegal s.cfg.rom) (m : DisplayMode) (h mi : Nat) (is12h on : Bool)
    (ah am : Nat) (date : List Byte) : HeightsLegal (clockPieces s m h mi is12h on ah am date) := by
  have hf := fontH_range m.fontKind
  have hc := hr.clkIconH
  have hi : ∀ mask, ∀ p ∈ iconPieces s.cfg s.hw m mask, 1 ≤ p.h ∧ p.h ≤ 32 := fun mask =>
    iconPieces_heights s.cfg s.hw m mask
  have h16 : fontH .f16x8 = 16 := rfl
  intro p hp
  simp only [clockPieces, List.mem_append, List.mem_singleton] at hp
  rcases hp with (rfl | hp) | hp
  · simp only [timePiece]
    split <;> omega
  · unfold labelPieces at hp
    split at hp
    · simp at hp
    · split at hp <;> simp only [List.mem_singleton] at hp <;> subst hp
      · exact hc
      · simp only [textPiece]; omega
  · unfold restPieces at hp
    simp only [] at hp
    split at hp
    · simp at hp
    · split at hp
      · simp only [List.mem_singleton] at hp; subst hp; simp only [stringPiece, textPiece]; omega
      · simp at hp
    · rw [List.mem_append] at hp
      rcases hp with hp | hp
      · split at hp
        · simp only [List.mem_singleton] at hp; subst hp; simp only [stringPiece, textPiece]; omega
        · simp at hp
      · split at hp
        · simp at hp
        · exact hi _ p hp
    · split at hp
      · simp only [List.mem_singleton] at hp; subst hp; exact hc
      · simp at hp
    · split at hp
      · simp at hp
      · simp only [List.mem_singleton] at hp; subst hp; simp only [stringPiece, textPiece]; omega
    · split at hp
      · simp at hp
      · exact hi _ p hp

end Sys2Proof.Machine
end

