-- ==== Sys2Proof/Laws/Canvas.lean ====
section
/-! SUPPORT. Every command keeps the FrameBuffer in its canonical form, with ink in the visible rectangle only; and
under the core's invariants every command ends. -/

namespace Sys2Proof.Machine

/-- A FrameBuffer in canonical form with ink in the visible rectangle only (R72). -/
def GoodCanvas (s : State) : Prop := Memory.wf s.fb = true ∧ OnlyVisibleInk s

theorem GoodCanvas.of_painted {s t : State} {r : Nat → Nat → Prop} {v : Nat → Nat → Bool} (h : GoodCanvas s)
    (hp : Painted s t r v) (hw : Memory.wf t.fb = true) (hc : OnlyCanvas s t) : GoodCanvas t :=
  ⟨hw, hp.onlyVisibleInk h.2 hc.hw_eq hc.cfg_eq⟩

theorem GoodCanvas.empty {s : State} (h : s.fb = []) : GoodCanvas s := by
  refine ⟨by rw [h]; rfl, fun i b hb => ?_⟩
  simp [bitAt, h] at hb

theorem GoodCanvas.congr {s t : State} (h : GoodCanvas s) (hf : t.fb = s.fb) (hw : t.hw = s.hw) (hc : t.cfg = s.cfg) :
    GoodCanvas t := by
  refine ⟨by rw [hf]; exact h.1, fun i b hb => ?_⟩
  have := h.2 i b (by unfold bitAt at *; rw [← hf]; exact hb)
  rwa [hw, hc]

theorem drawPieces_good {ps : List Piece} {s t : State} (h : GoodCanvas s) (hd : drawPieces ps s = .ok t) :
    GoodCanvas t := by
  obtain ⟨h1, h2, h3, -⟩ := drawPieces_ok h.1 hd
  exact h.of_painted h3 h2 h1

theorem lineRender_good {m : DisplayMode} {row : Nat} {text : List Byte} {cc cw : Nat} {inv aL aR : Bool} {s t : State}
    (hr : RomLegal s.cfg.rom) (h : GoodCanvas s) (hd : lineRender m row text cc cw inv aL aR s = .ok t) :
    GoodCanvas t := by
  rw [lineRender_eq h.1 hr] at hd
  split at hd
  · exact absurd hd (by simp)
  · split at hd
    · exact absurd hd (by simp)
    · exact drawPieces_good h hd

theorem barcodeRender_good {m : DisplayMode} {row : Nat} {hex : List Byte} {s t : State} (h : GoodCanvas s)
    (hd : barcodeRender m row hex s = .ok t) : GoodCanvas t := by
  rw [barcodeRender_eq h.1] at hd
  split at hd
  · exact absurd hd (by simp)
  · split at hd
    · exact absurd hd (by simp)
    · split at hd
      · exact absurd hd (by simp)
      · exact drawPieces_good h hd

theorem screenRows_good {m : DisplayMode} {cx cy : Nat} {on : Bool} {cw : Nat} {lines : List ScreenLine}
    {rows : List Nat} {s t : State} {first first' : Option ErrorKind} (hr : RomLegal s.cfg.rom) (hi : s.init = true)
    (h : GoodCanvas s) (hd : screenRows m cx cy on cw lines rows s first = .ok (t, first')) : GoodCanvas t := by
  induction rows generalizing s first with
  | nil =>
    simp only [screenRows, Except.ok.injEq, Prod.mk.injEq] at hd
    rw [← hd.1]
    exact h
  | cons r rows ih =>
    unfold screenRows at hd
    have he := screenRow_ends (m := m) (cx := cx) (cy := cy) (on := on) (cw := cw) (line := screenLine lines r)
      (r := r) hi
    split at hd
    · rename_i u hu
      rw [hu] at he
      refine ih (by rw [he.1.cfg_eq]; exact hr) (he.1.init_of hi) ?_ hd
      unfold screenRow at hu
      simp only [] at hu
      split at hu
      · exact lineRender_good hr h hu
      · exact lineRender_good hr h hu
      · exact barcodeRender_good h hu
    · split at hd
      · exact ih hr hi h hd
      · exact absurd hd (by simp)

theorem blitAll_good {vs : List Column} {s t : State} (h : GoodCanvas s) (hd : blitAll vs s = .ok t) :
    GoodCanvas t := by
  obtain ⟨hb, -, -⟩ := blitAll_ok h.1 hd
  exact h.of_painted hb.painted hb.wf hb.canvas

/-- The entries of a good FrameBuffer lie inside it (R35). -/
theorem GoodCanvas.inside {s : State} (h : GoodCanvas s) : ∀ c ∈ s.fb, c.1 < fbSize s.hw := by
  intro c hc
  have hne : Memory.read s.fb c.1 ≠ 0 := by
    rw [Memory.read_of_mem h.1 hc]
    exact ((Memory.wf_iff s.fb).1 h.1).2 c hc
  obtain ⟨b, hb⟩ : ∃ b, (Memory.read s.fb c.1).getLsbD b = true := by
    by_contra hn
    apply hne
    apply byte_ext
    intro k
    rw [not_exists] at hn
    simpa using hn k
  obtain ⟨c', y', hv, hi, -⟩ := h.2 c.1 b hb
  rw [← hi]
  exact pixIndex_lt_fbSize hv

/-! ## Every command ends (R360) -/

theorem withMode_exists {s : State} (h : Invariant s) (body : DisplayMode → State → Result State) :
    ∃ t, withMode s body = .next t := by
  unfold withMode
  split
  · exact ⟨_, rfl⟩
  · rename_i hv
    simp only [Bool.not_eq_false, Bool.and_eq_true] at hv
    obtain ⟨m, hm⟩ := (h.activeMode hv.2).2
    rw [hm]
    exact ⟨_, rfl⟩

/-- Under the invariants every command answers a next state. -/
theorem exec_exists (i : Instr) {s : State} (h : Invariant s) : ∃ t, exec i s = .next t := by
  cases i <;> try exact ⟨_, rfl⟩
  case selectMode id =>
    simp only [exec, execSelectMode]
    split
    · exact ⟨_, rfl⟩
    · split <;> exact ⟨_, rfl⟩
  case setZoom on =>
    simp only [exec, execSetZoom]
    split
    · exact ⟨_, rfl⟩
    · rename_i hv
      simp only [Bool.not_eq_false, Bool.and_eq_true] at hv
      obtain ⟨m, hm⟩ := (h.activeMode hv.2).2
      simp only [hm]
      split
      · unfold zoomOn
        split
        · exact ⟨_, rfl⟩
        · rename_i t ht
          have htz : m.zoomTarget = some t := by
            split at ht
            · simp at ht
            · exact ht
          obtain ⟨-, m', hm'⟩ := zoomTarget_defined h.configLegal hm htz
          simp only [hm']
          exact ⟨_, rfl⟩
      · unfold zoomOff
        split
        · exact ⟨_, rfl⟩
        · rename_i hz
          simp only [Bool.not_eq_false] at hz
          obtain ⟨-, -, m', hm', -⟩ := h.zoom hz
          simp only [hm']
          exact ⟨_, rfl⟩
  all_goals exact withMode_exists h _

end Sys2Proof.Machine
end

