-- ==== Sys2Proof/Laws/Draws.lean ====
section
/-! SUPPORT. A drawing command in an active mode, said once: its body is a list of pieces, drawn when all fit and
rejected when one does not. -/

namespace Sys2Proof.Machine

/-- A command in an active mode runs its body on its working copy (R15, R305). -/
theorem withMode_active {s : State} {m : DisplayMode} (h : Active s m) (body : DisplayMode → State → Result State) :
    withMode s body = .next (endCommand s (body m (beginCommand s))) := by
  unfold withMode
  rw [if_neg (by simp [h.init, h.modeValid]), h.mode]

/-- What is shown depends on the FrameBuffers, the panel and the configuration only. -/
theorem Shows.congr {s s' t t' : State} {ps : List Piece} (h : Shows s t ps) (h1 : s'.fb = s.fb) (h2 : s'.hw = s.hw)
    (h3 : s'.cfg = s.cfg) (h4 : t'.fb = t.fb) (h5 : t'.hw = t.hw) (h6 : t'.cfg = t.cfg) : Shows s' t' ps := by
  have hb : ∀ c y, pixRead s' c y = pixRead s c y := fun c y => by unfold pixRead; rw [h1, h2, h3]
  have hb2 : ∀ c y, pixRead t' c y = pixRead t c y := fun c y => by unfold pixRead; rw [h4, h5, h6]
  have e : pixRead s' = pixRead s := funext fun c => funext fun y => hb c y
  unfold Shows
  rw [e]
  refine ⟨fun c y hc => by rw [h2]; exact h.visible c y hc, fun c y hc => by rw [hb2]; exact h.inside c y hc,
    fun i hi => ?_, fun i b hi => ?_⟩
  · rw [h4, h1]; rw [h2] at hi; exact h.outsideByte i hi
  · unfold bitAt; rw [h4, h1]; rw [h2, h3] at hi; exact h.outsideBit i b hi

/-- A body that draws pieces which all fit. -/
theorem draw_active {s : State} {m : DisplayMode} (h : Active s m) {body : DisplayMode → State → Result State}
    {ps : List Piece} (hb : body m (beginCommand s) = drawPieces ps (beginCommand s)) (hh : HeightsLegal ps)
    (hf : ∀ p ∈ ps, p.fits s.hw) :
    ∃ t, withMode s body = .next t ∧ t = drawn s t.fb ∧ Shows s t ps := by
  obtain ⟨u, hu⟩ := drawPieces_exists (s := beginCommand s) h.inv.fbCanonical h.init hh hf
  obtain ⟨hc, hw, hs, -⟩ := drawPieces_ok (s := beginCommand s) h.inv.fbCanonical hu
  rw [withMode_active h, hb, hu, endCommand_canvas hc]
  exact ⟨_, rfl, rfl, hs.congr rfl rfl rfl rfl hc.hw_eq.symm hc.cfg_eq.symm⟩

/-- A body that draws pieces of which one does not fit (R74). -/
theorem draw_error {s : State} {m : DisplayMode} (h : Active s m) {body : DisplayMode → State → Result State}
    {ps : List Piece} (hb : body m (beginCommand s) = drawPieces ps (beginCommand s)) (hh : HeightsLegal ps)
    (hf : ¬ ∀ p ∈ ps, p.fits s.hw) :
    withMode s body = .next (failed s 0x06) := by
  rw [withMode_active h, hb, drawPieces_error (s := beginCommand s) h.inv.fbCanonical h.init hh hf]; rfl

/-- A body that raises an error (R300). -/
theorem body_error {s : State} {m : DisplayMode} (h : Active s m) {body : DisplayMode → State → Result State}
    {e : ErrorKind} (hb : body m (beginCommand s) = .error e) :
    withMode s body = .next (failed s (errorCode e)) := by
  rw [withMode_active h, hb]; rfl

theorem Active.rom {s : State} {m : DisplayMode} (h : Active s m) : RomLegal (beginCommand s).cfg.rom :=
  (configLegal_parts h.inv.configLegal).rom

/-- The width of a text line, whatever it holds (R206). -/
theorem lineColumns_length {c : Config} (hr : RomLegal c.rom) (m : DisplayMode) (row : Nat) (text : List Byte)
    (cc cw : Nat) (inv aL aR : Bool) :
    (lineColumns c m row text cc cw inv aL aR).length = lineWidth m := by
  have ha : ∀ side flag he, (arrowColumns c m side flag inv he).length = arrowW m.arrowKind := by
    intro side flag he
    unfold arrowColumns
    split
    · exact romArrow_length hr _ _ _
    · simp [blanks]
  have hseq : ∀ (seq : List (GlyphCode × Nat)) he,
      (seq.flatMap (fun g => cursorColumns c m.fontKind he cc cw inv g.1 g.2)).length =
        textWidth seq * fontW m.fontKind := by
    intro seq he
    induction seq with
    | nil => simp [textWidth]
    | cons g seq ih =>
      rw [List.flatMap_cons, List.length_append, ih, textWidth, cursorColumns, List.length_map, glyphColumns_length hr]
      ring
  have hle := textWidth_le c.charMap m.charCols (some m.fontKind) text.length text 0 (Nat.zero_le _)
  unfold lineColumns
  simp only [List.length_append, ha, hseq, blanks, List.length_replicate]
  unfold lineWidth
  unfold decodeText
  set W := textWidth (decodeLoop c.charMap m.charCols (some m.fontKind) text.length text 0)
  have hsum : (m.charCols - W) / 2 + W + (m.charCols - W - (m.charCols - W) / 2) = m.charCols := by omega
  calc _ = 2 * arrowW m.arrowKind +
        ((m.charCols - W) / 2 + W + (m.charCols - W - (m.charCols - W) / 2)) * fontW m.fontKind := by ring
    _ = _ := by rw [hsum]

theorem lineHeight_range (m : DisplayMode) (row : Nat) : 8 ≤ lineHeight m row := by
  have := fontH_range m.fontKind
  unfold lineHeight; split <;> omega

theorem BarcodeText.columns_length {c : Config} {h : Nat} {hex : List Byte} {ps : List (BitVec 9)}
    (ht : BarcodeText hex ps) : (barcodeColumns c h ps).length = barcodeWidth c ps.length := by
  obtain ⟨z, k, -, -, -, hp⟩ := ht
  exact barcodeColumns_length _ _ (code39Patterns_wide hp).2

/-- A barcode row is as wide as the panel (R272). -/
theorem BarcodeText.piece_length {c : Config} {hw : HardwareProfile} {m : DisplayMode} {hex : List Byte}
    {ps : List (BitVec 9)} (ht : BarcodeText hex ps) (row : Nat) (hw' : barcodeWidth c ps.length ≤ wVis hw) :
    (barcodePiece c hw m row ps).cols.length = wVis hw := by
  simp only [barcodePiece, List.length_append, List.length_replicate, ht.columns_length]
  omega

end Sys2Proof.Machine
end

