-- ==== Sys2Proof/Laws/Payload.lean ====
section
/-! SUPPORT. The payload elements: packing bytes into words and back (R104), and what each parser of an element
answers, in both directions. -/

namespace Sys2Proof

/-! ## Packing (R104) -/

theorem byteOfWord_packWord (b0 b1 b2 b3 : Byte) :
    byteOfWord (packWord b0 b1 b2 b3) 0 = b0 ∧ byteOfWord (packWord b0 b1 b2 b3) 1 = b1 ∧
      byteOfWord (packWord b0 b1 b2 b3) 2 = b2 ∧ byteOfWord (packWord b0 b1 b2 b3) 3 = b3 := by
  refine ⟨?_, ?_, ?_, ?_⟩ <;>
  · ext k hk
    simp only [byteOfWord, packWord, BitVec.getElem_extractLsb', BitVec.getLsbD_append]
    interval_cases k <;> simp

theorem packWord_byteOfWord (w : Word) :
    packWord (byteOfWord w 0) (byteOfWord w 1) (byteOfWord w 2) (byteOfWord w 3) = w := by
  apply BitVec.eq_of_getLsbD_eq
  intro k hk
  simp only [byteOfWord, packWord, BitVec.getLsbD_append, BitVec.getLsbD_extractLsb']
  interval_cases k <;> simp

theorem packBytes_length (bytes : List Byte) : (packBytes bytes).length = ceilDiv bytes.length 4 := by
  induction bytes using packBytes.induct with
  | case5 a b c d rest ih => simp only [packBytes, List.length_cons, ih, ceilDiv]; omega
  | _ => simp [packBytes, ceilDiv]

/-- The bytes of packed words: the bytes, then the pad bytes 0. -/
theorem unpackWords_packBytes (bytes : List Byte) :
    unpackWords (packBytes bytes) = bytes ++ List.replicate (4 * ceilDiv bytes.length 4 - bytes.length) 0 := by
  induction bytes using packBytes.induct with
  | case5 a b c d rest ih =>
    obtain ⟨h0, h1, h2, h3⟩ := byteOfWord_packWord a b c d
    simp only [packBytes, unpackWords, h0, h1, h2, h3, ih, List.cons_append, List.length_cons]
    rw [show 4 * ceilDiv (rest.length + 1 + 1 + 1 + 1) 4 - (rest.length + 1 + 1 + 1 + 1) =
      4 * ceilDiv rest.length 4 - rest.length by unfold ceilDiv; omega]
  | case1 => simp [packBytes, unpackWords, ceilDiv]
  | case2 a =>
    obtain ⟨h0, h1, h2, h3⟩ := byteOfWord_packWord a 0#8 0#8 0#8
    simp [packBytes, unpackWords, h0, h1, h2, h3, ceilDiv]
  | case3 a b =>
    obtain ⟨h0, h1, h2, h3⟩ := byteOfWord_packWord a b 0#8 0#8
    simp [packBytes, unpackWords, h0, h1, h2, h3, ceilDiv]
  | case4 a b c =>
    obtain ⟨h0, h1, h2, h3⟩ := byteOfWord_packWord a b c 0#8
    simp [packBytes, unpackWords, h0, h1, h2, h3, ceilDiv]

theorem unpackWords_length (ws : List Word) : (unpackWords ws).length = 4 * ws.length := by
  induction ws with
  | nil => rfl
  | cons w ws ih => simp only [unpackWords, List.length_cons, ih]; omega

/-- Words are the packing of their bytes, when the bytes past the first `n` are pad bytes 0. -/
theorem packBytes_unpackWords {n : Nat} {ws : List Word} (hn : ws.length = ceilDiv n 4)
    (h0 : ((unpackWords ws).drop n).all (· == 0) = true) : packBytes ((unpackWords ws).take n) = ws := by
  induction ws generalizing n with
  | nil => simp [unpackWords, packBytes]
  | cons w ws ih =>
    simp only [List.length_cons, ceilDiv] at hn
    by_cases h4 : 4 ≤ n
    · obtain ⟨m, rfl⟩ : ∃ m, n = m + 4 := ⟨n - 4, by omega⟩
      simp only [unpackWords, List.drop_succ_cons, List.take_succ_cons, packBytes] at h0 ⊢
      rw [ih (by unfold ceilDiv; omega) h0, packWord_byteOfWord]
    · have hw := packWord_byteOfWord w
      have hl : ws = [] := List.length_eq_zero_iff.1 (by omega)
      subst hl
      obtain rfl | rfl | rfl : n = 1 ∨ n = 2 ∨ n = 3 := by omega
      all_goals
        simp [unpackWords] at h0
        simp only [h0] at hw
        simp [unpackWords, packBytes, hw]

/-! ## The parsers, on what the encoder writes -/

theorem parseBytes_packBytes (bytes : List Byte) (rest : List Word) :
    parseBytes bytes.length (packBytes bytes ++ rest) = .ok (bytes, rest) := by
  unfold parseBytes
  rw [if_neg (by rw [List.length_append, packBytes_length]; omega)]
  rw [List.take_append_of_le_length (by rw [packBytes_length]), List.take_of_length_le (by rw [packBytes_length]),
    ← packBytes_length, List.drop_left, unpackWords_packBytes]
  simp

theorem length_word {bytes : List Byte} (h : strFits bytes = true) :
    (BitVec.ofNat 32 bytes.length).extractLsb' 16 16 = 0 ∧ (BitVec.ofNat 32 bytes.length).toNat = bytes.length := by
  simp only [strFits, decide_eq_true_eq] at h
  have h2 : (BitVec.ofNat 32 bytes.length).toNat = bytes.length := by
    unfold strMax at h
    rw [BitVec.toNat_ofNat, Nat.mod_eq_of_lt (by omega)]
  refine ⟨?_, h2⟩
  apply BitVec.eq_of_toNat_eq
  rw [BitVec.extractLsb'_toNat, h2, Nat.shiftRight_eq_div_pow, Nat.div_eq_of_lt (by unfold strMax at h; omega)]
  rfl

theorem parseStr_encodeStr {bytes : List Byte} (h : strFits bytes = true) (rest : List Word) :
    parseStr (encodeStr bytes ++ rest) = .ok (bytes, rest) := by
  obtain ⟨h1, h2⟩ := length_word h
  simp only [strFits, decide_eq_true_eq] at h
  simp only [encodeStr, List.cons_append, parseStr, h1, h2, ne_eq, not_true_eq_false, if_false]
  rw [if_neg (by omega), parseBytes_packBytes]

theorem descriptor_fields (kind : LineKind) (arrowLeft arrowRight : Bool) :
    let d : Word := 0#28 ++ BitVec.ofBool arrowRight ++ BitVec.ofBool arrowLeft ++ kind.code
    d.extractLsb' 4 28 = 0 ∧ lineKind? (d.extractLsb' 0 2) = some kind ∧ d.getLsbD 2 = arrowLeft ∧
      d.getLsbD 3 = arrowRight := by
  cases kind <;> cases arrowLeft <;> cases arrowRight <;> decide

theorem parseLine_encodeLine {l : ScreenLine} (h : strFits l.text = true) (rest : List Word) :
    parseLine (encodeLine l ++ rest) = .ok (l, rest) := by
  obtain ⟨h1, h2, h3, h4⟩ := descriptor_fields l.kind l.arrowLeft l.arrowRight
  simp only [encodeLine, List.cons_append, parseLine, h1, h2, h3, h4, ne_eq, not_true_eq_false, if_false,
    parseStr_encodeStr h, parseThen]

theorem parseLines_encodeLines {lines : List ScreenLine} (h : ∀ l ∈ lines, strFits l.text = true) (rest : List Word) :
    parseLines lines.length (lines.flatMap encodeLine ++ rest) = .ok (lines, rest) := by
  induction lines with
  | nil => rfl
  | cons l lines ih =>
    simp only [List.length_cons, List.flatMap_cons, List.append_assoc, parseLines,
      parseLine_encodeLine (h l (by simp)), parseThen, ih fun l hl => h l (by simp [hl])]

/-! ## What the parsers accept -/

theorem parseWord_ok {ws rest : List Word} {w : Word} (h : parseWord ws = .ok (w, rest)) : ws = w :: rest := by
  cases ws with
  | nil => simp [parseWord] at h
  | cons w' ws => simp only [parseWord, Except.ok.injEq, Prod.mk.injEq] at h; rw [h.1, h.2]

theorem parseThen_ok {α β : Type} {p : Parsed α} {k : α → List Word → Parsed β} {b : β × List Word}
    (h : parseThen p k = .ok b) : ∃ a ws, p = .ok (a, ws) ∧ k a ws = .ok b := by
  unfold parseThen at h
  split at h
  · simp at h
  · exact ⟨_, _, rfl, h⟩

theorem parseBytes_ok {n : Nat} {ws rest : List Word} {bytes : List Byte} (h : parseBytes n ws = .ok (bytes, rest)) :
    bytes.length = n ∧ ws = packBytes bytes ++ rest := by
  unfold parseBytes at h
  split at h
  · simp at h
  · rename_i hl
    simp only [] at h
    split at h
    · rename_i h0
      simp only [Except.ok.injEq, Prod.mk.injEq] at h
      obtain ⟨rfl, rfl⟩ := h
      have ht : (ws.take (ceilDiv n 4)).length = ceilDiv n 4 := by rw [List.length_take]; omega
      refine ⟨?_, ?_⟩
      · rw [List.length_take, unpackWords_length, ht]; unfold ceilDiv; omega
      · rw [packBytes_unpackWords ht h0, List.take_append_drop]
    · simp at h

theorem parseStr_ok {ws rest : List Word} {bytes : List Byte} (h : parseStr ws = .ok (bytes, rest)) :
    strFits bytes = true ∧ ws = encodeStr bytes ++ rest := by
  cases ws with
  | nil => simp [parseStr] at h
  | cons len ws =>
    simp only [parseStr] at h
    split at h
    · simp at h
    · split at h
      · simp at h
      · rename_i hm
        obtain ⟨hl, rfl⟩ := parseBytes_ok h
        refine ⟨by simp only [strFits, decide_eq_true_eq]; omega, ?_⟩
        simp [encodeStr, hl]

theorem descriptor_eq {d : Word} {k : LineKind} (h0 : d.extractLsb' 4 28 = 0)
    (hk : lineKind? (d.extractLsb' 0 2) = some k) :
    (0#28 ++ BitVec.ofBool (d.getLsbD 3) ++ BitVec.ofBool (d.getLsbD 2) ++ k.code : BitVec 32) = d := by
  have hkc : k.code = d.extractLsb' 0 2 := by
    unfold lineKind? at hk
    split at hk
    · rename_i h; simp only [Option.some.injEq] at hk; subst hk; rw [h]; rfl
    · split at hk
      · rename_i h; simp only [Option.some.injEq] at hk; subst hk; rw [h]; rfl
      · split at hk
        · rename_i h; simp only [Option.some.injEq] at hk; subst hk; rw [h]; rfl
        · simp at hk
  rw [hkc, show 0#28 = d.extractLsb' 4 28 from h0.symm]
  apply BitVec.eq_of_getLsbD_eq
  intro j hj
  simp only [BitVec.getLsbD_append, BitVec.getLsbD_extractLsb']
  interval_cases j <;> simp

theorem parseLine_ok {ws rest : List Word} {l : ScreenLine} (h : parseLine ws = .ok (l, rest)) :
    strFits l.text = true ∧ ws = encodeLine l ++ rest := by
  cases ws with
  | nil => simp [parseLine] at h
  | cons d ws =>
    simp only [parseLine] at h
    split at h
    · simp at h
    · rename_i h0
      split at h
      · simp at h
      · rename_i k hk
        obtain ⟨t, ws', hs, h⟩ := parseThen_ok h
        simp only [Except.ok.injEq, Prod.mk.injEq] at h
        obtain ⟨rfl, rfl⟩ := h
        obtain ⟨hf, rfl⟩ := parseStr_ok hs
        refine ⟨hf, ?_⟩
        simp only [encodeLine, List.cons_append]
        rw [descriptor_eq (by simpa using h0) hk]

theorem parseLines_ok {n : Nat} {ws rest : List Word} {lines : List ScreenLine}
    (h : parseLines n ws = .ok (lines, rest)) :
    lines.length = n ∧ (∀ l ∈ lines, strFits l.text = true) ∧ ws = lines.flatMap encodeLine ++ rest := by
  induction n generalizing ws lines with
  | zero =>
    simp only [parseLines, Except.ok.injEq, Prod.mk.injEq] at h
    obtain ⟨rfl, rfl⟩ := h
    simp
  | succ n ih =>
    simp only [parseLines] at h
    obtain ⟨l, ws1, h1, h⟩ := parseThen_ok h
    obtain ⟨ls, ws2, h2, h⟩ := parseThen_ok h
    simp only [Except.ok.injEq, Prod.mk.injEq] at h
    obtain ⟨rfl, rfl⟩ := h
    obtain ⟨hf, rfl⟩ := parseLine_ok h1
    obtain ⟨hl, hfs, rfl⟩ := ih h2
    refine ⟨by simp [hl], ?_, by simp⟩
    intro l' hl'
    rcases List.mem_cons.1 hl' with rfl | hl'
    · exact hf
    · exact hfs l' hl'

end Sys2Proof
end

