-- ==== Sys2Proof/Laws/PerInstr.lean ====
section
/-! SUPPORT. A family of facts with one lemma per command: the first word of its frame (R101, R112). -/

namespace Sys2Proof.Laws

/-- The row of the opcode map that a command belongs to (R112). -/
def opcodeOf : Instr → Opcode
  | .init _ => .init
  | .selectMode _ => .selectMode
  | .setZoom _ => .setZoom
  | .setContrast _ => .setContrast
  | .setAmpmLabels _ _ => .setAmpmLabels
  | .setPosition _ _ _ => .setPosition
  | .blitColumn _ => .blitColumn
  | .drawBlankColumns _ _ => .drawBlankColumns
  | .drawLine _ _ _ _ _ _ _ => .drawLine
  | .drawScreen _ _ _ _ _ => .drawScreen
  | .drawBarcode _ _ => .drawBarcode
  | .drawClock _ _ _ _ _ _ _ _ => .drawClock
  | .drawSmallClock _ _ _ => .drawSmallClock
  | .drawIcons _ => .drawIcons
  | .drawSignalStrength _ => .drawSignalStrength
  | .grabScreenRegion _ _ _ _ => .grabScreenRegion
  | .drawBitmap _ _ _ _ _ => .drawBitmap

/-- The first word of a command's frame holds the opcode of the command's row in bits 31 to 24, and the row's mask
selects it (R112). -/
def Header.Statement (i : Instr) : Prop :=
  ∃ (header : Word) (payload : List Word) (row : OpcodeRow), encode i = header :: payload ∧ row ∈ opcodeTable ∧
    row.opcode = opcodeOf i ∧ opcodeField header = row.code ∧ header &&& row.mask = row.value

/-- A header of one byte operand under an opcode (format H). -/
theorem header_byte (code b : BitVec 8) :
    opcodeField (code ++ 0#16 ++ b) = code ∧ (code ++ 0#16 ++ b) &&& 0xFFFFFF00 = (code ++ 0#24 : BitVec 32) := by
  constructor
  · ext k hk
    simp only [opcodeField, BitVec.getElem_extractLsb', BitVec.getLsbD_append]
    interval_cases k <;> simp
  · ext k hk
    simp only [BitVec.getElem_and, BitVec.getElem_append]
    interval_cases k <;> simp

theorem Header.init (profileId : BitVec 8) : Header.Statement (.init profileId) :=
  ⟨_, _, ⟨.init, 0x01, .h, 0x01000000, 0xFFFFFF00⟩, rfl, by decide, rfl, (header_byte _ _).1, (header_byte _ _).2⟩

theorem Header.selectMode (modeId : BitVec 8) : Header.Statement (.selectMode modeId) :=
  ⟨_, _, ⟨.selectMode, 0x02, .h, 0x02000000, 0xFFFFFF00⟩, rfl, by decide, rfl, (header_byte _ _).1, (header_byte _ _).2⟩

theorem Header.setZoom (on : Bool) : Header.Statement (.setZoom on) :=
  ⟨_, _, ⟨.setZoom, 0x03, .h, 0x03000000, 0xFFFFFFFE⟩, rfl, by decide, rfl, by cases on <;> decide,
    by cases on <;> decide⟩

theorem Header.setContrast (level : BitVec 8) : Header.Statement (.setContrast level) :=
  ⟨_, _, ⟨.setContrast, 0x04, .h, 0x04000000, 0xFFFFFF00⟩, rfl, by decide, rfl, (header_byte _ _).1, (header_byte _ _).2⟩

theorem Header.setAmpmLabels (am pm : List Byte) : Header.Statement (.setAmpmLabels am pm) :=
  ⟨_, _, ⟨.setAmpmLabels, 0x05, .s2, 0x05000000, 0xFFFFFFFF⟩, rfl, by decide, rfl, by decide, by decide⟩

theorem Header.setPosition (heightPx : BitVec 6) (column : BitVec 10) (rowPx : BitVec 8) :
    Header.Statement (.setPosition heightPx column rowPx) := by
  refine ⟨_, _, ⟨.setPosition, 0x10, .h, 0x10000000, 0xFF000000⟩, rfl, by decide, rfl, ?_, ?_⟩
  · ext k hk
    simp only [opcodeField, BitVec.getElem_extractLsb', BitVec.getLsbD_append]
    interval_cases k <;> simp
  · ext k hk
    simp only [BitVec.getElem_and, BitVec.getElem_append]
    interval_cases k <;> simp

theorem Header.blitColumn (value : Word) : Header.Statement (.blitColumn value) :=
  ⟨_, _, ⟨.blitColumn, 0x11, .w1, 0x11000000, 0xFFFFFFFF⟩, rfl, by decide, rfl, by decide, by decide⟩

theorem Header.drawBlankColumns (count : BitVec 16) (inverted : Bool) :
    Header.Statement (.drawBlankColumns count inverted) := by
  refine ⟨_, _, ⟨.drawBlankColumns, 0x12, .h, 0x12000000, 0xFFFE0000⟩, rfl, by decide, rfl, ?_, ?_⟩
  · ext k hk
    simp only [opcodeField, BitVec.getElem_extractLsb', BitVec.getLsbD_append]
    interval_cases k <;> simp
  · ext k hk
    simp only [BitVec.getElem_and, BitVec.getElem_append]
    interval_cases k <;> simp

theorem Header.drawLine (rowIndex : BitVec 4) (text : List Byte) (cursorColumn cursorWidth : BitVec 8)
    (invert arrowLeft arrowRight : Bool) :
    Header.Statement (.drawLine rowIndex text cursorColumn cursorWidth invert arrowLeft arrowRight) := by
  refine ⟨_, _, ⟨.drawLine, 0x20, .s1, 0x20000000, 0xFF010000⟩, rfl, by decide, rfl, ?_, ?_⟩
  · ext k hk
    simp only [opcodeField, BitVec.getElem_extractLsb', BitVec.getLsbD_append]
    interval_cases k <;> simp
  · ext k hk
    simp only [BitVec.getElem_and, BitVec.getElem_append]
    interval_cases k <;> simp

theorem Header.drawScreen (cursorX : BitVec 8) (cursorY : BitVec 4) (cursorOn : Bool) (cursorWidth : BitVec 8)
    (lines : List ScreenLine) : Header.Statement (.drawScreen cursorX cursorY cursorOn cursorWidth lines) := by
  refine ⟨_, _, ⟨.drawScreen, 0x21, .scr, 0x21000000, 0xFF000700⟩, rfl, by decide, rfl, ?_, ?_⟩
  · ext k hk
    simp only [opcodeField, BitVec.getElem_extractLsb', BitVec.getLsbD_append]
    interval_cases k <;> simp
  · ext k hk
    simp only [BitVec.getElem_and, BitVec.getElem_append]
    interval_cases k <;> simp

theorem Header.drawBarcode (rowIndex : BitVec 4) (hexString : List Byte) :
    Header.Statement (.drawBarcode rowIndex hexString) := by
  refine ⟨_, _, ⟨.drawBarcode, 0x22, .s1, 0x22000000, 0xFF0FFFFF⟩, rfl, by decide, rfl, ?_, ?_⟩
  · ext k hk
    simp only [opcodeField, BitVec.getElem_extractLsb', BitVec.getLsbD_append]
    interval_cases k <;> simp
  · ext k hk
    simp only [BitVec.getElem_and, BitVec.getElem_append]
    interval_cases k <;> simp

theorem Header.drawClock (hours minutes seconds : BitVec 8) (is12h alarmOn : Bool) (alarmHours alarmMinutes : BitVec 8)
    (date : List Byte) :
    Header.Statement (.drawClock hours minutes seconds is12h alarmOn alarmHours alarmMinutes date) :=
  ⟨_, _, ⟨.drawClock, 0x23, .clk, 0x23000000, 0xFFFFFFFF⟩, rfl, by decide, rfl, by decide, by decide⟩

theorem Header.drawSmallClock (hours minutes : BitVec 8) (is12h : Bool) :
    Header.Statement (.drawSmallClock hours minutes is12h) :=
  ⟨_, _, ⟨.drawSmallClock, 0x24, .w1, 0x24000000, 0xFFFFFFFF⟩, rfl, by decide, rfl, by decide, by decide⟩

theorem Header.drawIcons (bitmask : Word) : Header.Statement (.drawIcons bitmask) :=
  ⟨_, _, ⟨.drawIcons, 0x25, .w1, 0x25000000, 0xFFFFFFFF⟩, rfl, by decide, rfl, by decide, by decide⟩

theorem Header.drawSignalStrength (level : BitVec 8) : Header.Statement (.drawSignalStrength level) :=
  ⟨_, _, ⟨.drawSignalStrength, 0x26, .h, 0x26000000, 0xFFFFFF00⟩, rfl, by decide, rfl, (header_byte _ _).1,
    (header_byte _ _).2⟩

theorem Header.grabScreenRegion (left top width height : Word) :
    Header.Statement (.grabScreenRegion left top width height) :=
  ⟨_, _, ⟨.grabScreenRegion, 0x30, .rgn, 0x30000000, 0xFFFFFFFF⟩, rfl, by decide, rfl, by decide, by decide⟩

theorem Header.drawBitmap (left top width height : Word) (bytes : List Byte) :
    Header.Statement (.drawBitmap left top width height bytes) :=
  ⟨_, _, ⟨.drawBitmap, 0x31, .bmp, 0x31000000, 0xFFFFFFFF⟩, rfl, by decide, rfl, by decide, by decide⟩

end Sys2Proof.Laws
end

