-- ==== Sys2Proof/Tests/TestConfig.lean ====
section
/-! SUPPORT. The test configuration of spec/95_test_vectors.md section 1, as far as the tests and the witnesses use
it: the profiles 1 to 3, the modes 0 to 4, and the glyphs of the characters that they draw. -/

namespace Sys2Proof.Tests

open Sys2Proof.Machine

/-- The hardware profiles of section 1.1. -/
def panel (w h xo yo : Nat) : HardwareProfile := ⟨w, h, xo, yo, [0, 1, 2, 3, 4, 5, 6, 7], false, false, false⟩

/-- The clock geometry of the modes that have no clock. -/
def noGeom : ClockGeom := ⟨0, 0, 0, 0, 0, 0, 0, 0, 0⟩

/-- The display modes of section 1.2. -/
def mode0 : DisplayMode where
  charRows := 4
  charCols := 8
  fontKind := .f8x6
  topRowOffsetPx := 0
  iconKind := .i8x8
  iconYPx := 24
  arrowKind := .a5
  clockKind := .l0
  zoomTarget := some 1
  inverseBleed := true
  smallClock := some ⟨0, 0, 42⟩
  signalPos := some ⟨56, 0⟩
  clockGeom := ⟨0, 0, 0, 40, 0, 40, 16, 0, 0⟩

def mode1 : DisplayMode :=
  { mode0 with
    charRows := 1, charCols := 4, fontKind := .f32x16, iconKind := .none, iconYPx := 0, arrowKind := .none
    clockKind := .none, zoomTarget := none, inverseBleed := false, smallClock := none, signalPos := none
    clockGeom := noGeom }

def mode2 : DisplayMode := { mode1 with charRows := 2, charCols := 8, fontKind := .f16x8, clockKind := .l3 }

def mode3 : DisplayMode :=
  { mode1 with
    charRows := 1, charCols := 8, fontKind := .f8x6, iconKind := .i16x16, iconYPx := 16, clockKind := .l4
    clockGeom := ⟨0, 0, 0, 40, 0, 0, 0, 0, 0⟩ }

def mode4 : DisplayMode := { mode1 with charRows := 2, charCols := 16, fontKind := .f8x6 }

/-- `FONT(k, i)` of section 1.3. -/
def fontEntry (k : FontKind) (i : Nat) : (FontKind × BitVec 15) × List Column :=
  ((k, BitVec.ofNat 15 i), List.replicate (fontW k - 1) (BitVec.ofNat 32 (i % 2 ^ fontH k)) ++ [0])

/-- `CJK(k, i)` of section 1.3. -/
def cjkEntry (k : FontKind) (i : Nat) : (FontKind × BitVec 15) × List Column :=
  ((k, BitVec.ofNat 15 i), List.replicate (2 * fontW k - 1) (ones (fontH k)) ++ [0])

/-- The characters with a glyph: the digits, the colon, brackets and the letters that the tests use. -/
def testChars : List Nat :=
  [0x28, 0x29, 0x30, 0x31, 0x33, 0x34, 0x35, 0x37, 0x39, 0x3A, 0x41, 0x42, 0x43, 0x4D, 0x50, 0x5A]

/-- The GlyphStore of section 1.3. -/
def testRom : Rom where
  font := testChars.map (fontEntry .f8x6) ++ testChars.map (fontEntry .f16x8) ++ [fontEntry .f32x16 0x5A]
  cjk := [cjkEntry .f16x8 0x4E2D]
  arrow := [((.a5, .left, .f8x6), [0x08, 0x1C, 0x3E, 0x7F, 0x00]), ((.a5, .right, .f8x6), [0x00, 0x7F, 0x3E, 0x1C, 0x08])]
  icon8 := [1, 2, 3, 4].map fun i => (BitVec.ofNat 8 i, List.replicate 8 (BitVec.ofNat 32 i))
  icon16 := [1, 2, 3].map fun i => (BitVec.ofNat 8 i, List.replicate 16 (BitVec.ofNat 32 i))
  iconBlank8 := List.replicate 8 0
  iconBlank16 := List.replicate 16 0
  signalN := 5
  signalW := 4
  signalH := 8
  signal := [0, 1, 2, 3, 4].map fun i => List.replicate 4 (ones (2 * i))
  big32W := 8
  big32ColonW := 4
  big32 := (List.range 10).map fun d => List.replicate 8 (BitVec.ofNat 32 (0x01010101 * (d + 1)))
  big32Colon := List.replicate 4 0x0000FFFF
  dig22W := 6
  dig22ColonW := 2
  dig22 := (List.range 10).map fun d => List.replicate 6 (BitVec.ofNat 32 (d + 1))
  dig22Colon := List.replicate 2 3
  clkIconW := 8
  clkIconH := 8
  clkAm := List.replicate 8 0xA0
  clkPm := List.replicate 8 0xB0
  clkAlarm := List.replicate 8 0xC0

/-- `SIGNAL_SELECT` of section 1.3, for the level `j - 1`. -/
def testSelect (j : Nat) : Nat := if j ≤ 1 then 0 else min 4 ((j - 1 + 24) / 25)

/-- The test configuration. -/
def testConfig : Config where
  profiles := [(1, panel 8 12 2 3), (2, panel 64 32 0 0), (3, panel 128 16 0 0)]
  modes := [(0, mode0), (1, mode1), (2, mode2), (3, mode3), (4, mode4)]
  charMap := ⟨[⟨0, 0x2FFF, 0⟩, ⟨0x3000, 0x7FFF, 0xB000⟩, ⟨0x8000, 0x9FFF, 0x8000⟩], 0⟩
  rom := testRom
  iconMap := (List.range 32).map fun b => if b < 8 then some (BitVec.ofNat 8 (b + 1)) else none
  maxIcons := 4
  maxIconsCeiling := 4
  ampmCap := 2
  barcodeNarrowPx := 1
  barcodeWidePx := 2
  suppressDate := false
  clockAlarmIconBit := 1
  signalSelect := (List.range 102).map testSelect
  pixelBitOrder := .msbTop

/-- The clean-entry state of R354 on a panel in a mode of the test configuration. -/
def cleanEntry (p : HardwareProfile) (modeId : BitVec 8) : State :=
  { resetState testConfig with init := true, hw := p, modeValid := true, modeId := modeId }

/-- Panel 2 in mode 0, where most vectors of the spec start. -/
def entry0 : State := cleanEntry (panel 64 32 0 0) 0

/-- Panel 1 (8 by 12 with offsets), after `init 1`. -/
def entry1 : State := { resetState testConfig with init := true, hw := panel 8 12 2 3 }

theorem testConfig_legal : configLegal testConfig = true := by decide +kernel

end Sys2Proof.Tests
end

