-- ==== Sys2Proof/Tests/Slice0.lean ====
section
/-! SUPPORT. Tests of the model: the checks of WellFormed, the words of the spec's encodings, the illegal frames, and
one or two steps of every command. The expected values are those of spec/95_test_vectors.md, under the names it gives
its vectors. -/

namespace Sys2Proof.Tests

-- One evaluation at a time: each waits for the kernel, and in one text they would wait in a hundred threads.
set_option Elab.async false

open Sys2Proof.Machine

/-! ## WellFormed: one ill-formed command for each check, and its longest well-formed one -/

/-- A string of `n` bytes. -/
def bytesOf (n : Nat) : List Byte := List.replicate n 0x41

theorem test_wf_am_too_long : (Instr.setAmpmLabels (bytesOf 256) []).WellFormed = false := by decide +kernel
theorem test_wf_pm_too_long : (Instr.setAmpmLabels [] (bytesOf 256)).WellFormed = false := by decide +kernel
theorem test_wf_labels_longest : (Instr.setAmpmLabels (bytesOf 255) (bytesOf 255)).WellFormed = true := by decide +kernel
theorem test_wf_line_too_long : (Instr.drawLine 0 (bytesOf 256) 0 0 false false false).WellFormed = false := by
  decide +kernel
theorem test_wf_screen_too_many_lines :
    (Instr.drawScreen 0 0 false 0 (List.replicate 256 ⟨.text, false, false, []⟩)).WellFormed = false := by decide +kernel
theorem test_wf_screen_line_too_long :
    (Instr.drawScreen 0 0 false 0 [⟨.text, false, false, bytesOf 256⟩]).WellFormed = false := by decide +kernel
theorem test_wf_barcode_too_long : (Instr.drawBarcode 0 (bytesOf 256)).WellFormed = false := by decide +kernel
theorem test_wf_clock_date_too_long : (Instr.drawClock 0 0 0 false false 0 0 (bytesOf 256)).WellFormed = false := by
  decide +kernel
theorem test_wf_bitmap_too_few_bytes : (Instr.drawBitmap 0 0 2 9 (bytesOf 3)).WellFormed = false := by decide
theorem test_wf_bitmap_too_many_bytes : (Instr.drawBitmap 0 0 2 9 (bytesOf 5)).WellFormed = false := by decide

/-! ## Legal configurations (R10): the panels are those that a lookup in PROFILES answers -/

/-- A mode of 8 columns and 4 rows of the 8-pixel font, and the panels of 8 by 12 and of 64 by 32 under one id. -/
def twoPanels (first second : HardwareProfile) : Config :=
  { testConfig with profiles := [(1, first), (1, second)], modes := [(0, { mode0 with zoomTarget := none })] }

theorem test_config_fits_shadowed_panel_only : configLegal (twoPanels (panel 8 12 2 3) (panel 64 32 0 0)) = false := by
  decide +kernel
theorem test_config_fits_first_panel : configLegal (twoPanels (panel 64 32 0 0) (panel 8 12 2 3)) = true := by
  decide +kernel

/-! ## Encodings: E1 to E24 -/

theorem test_decode_E1 : decode [0x10200003] = .ok (.setPosition 8 0 3) := by decide
theorem test_decode_E2 : decode [0x11000000, 0x000000A5] = .ok (.blitColumn 0xA5) := by decide
theorem test_decode_E3 : decode [0x12010004] = .ok (.drawBlankColumns 4 true) := by decide
theorem test_decode_E4 :
    decode [0x20120000, 0x00000002, 0x00004241] = .ok (.drawLine 1 [0x41, 0x42] 0 0 true false false) := by decide
theorem test_decode_E5 : decode [0x260000FF] = .ok (.drawSignalStrength 0xFF) ∧ signalLevel 0xFF = -1 := by decide
theorem test_decode_E6 : decode [0x01000002] = .ok (.init 2) := by decide
theorem test_decode_E7 : decode [0x02000000] = .ok (.selectMode 0) := by decide
theorem test_decode_E8 : decode [0x03000001] = .ok (.setZoom true) := by decide
theorem test_decode_E9 : decode [0x04000064] = .ok (.setContrast 100) := by decide
theorem test_decode_E10 : decode [0x05000000, 0x00000002, 0x00006D61, 0x00000002, 0x00006D70] =
    .ok (.setAmpmLabels [0x61, 0x6D] [0x70, 0x6D]) := by decide
theorem test_decode_E11 : decode [0x10803F00] = .ok (.setPosition 32 63 0) := by decide
theorem test_decode_E12 : decode [0x1200FFFF] = .ok (.drawBlankColumns 65535 false) := by decide
theorem test_decode_E13 : decode [0x203C0203, 0x00000005, 0x6C6C6548, 0x0000006F] =
    .ok (.drawLine 3 [0x48, 0x65, 0x6C, 0x6C, 0x6F] 2 3 false true true) := by decide
theorem test_decode_E14 : decode [0x21010801, 0x00000002, 0x00000000, 0x00000002, 0x00004241, 0x00000001, 0x00000001,
    0x00000043] = .ok (.drawScreen 1 0 true 1
      [⟨.text, false, false, [0x41, 0x42]⟩, ⟨.invertedText, false, false, [0x43]⟩]) := by decide
theorem test_decode_E15 : decode [0x22200000, 0x00000002, 0x00004130] = .ok (.drawBarcode 2 [0x30, 0x41]) := by decide
theorem test_decode_E16 : decode [0x23000000, 0x03001E09, 0x00001E07, 0x00000000] =
    .ok (.drawClock 9 30 0 true true 7 30 []) := by decide
theorem test_decode_E17 : decode [0x23000000, 0x00000507, 0x00000000, 0x00000002, 0x00004F4D] =
    .ok (.drawClock 7 5 0 false false 0 0 [0x4D, 0x4F]) := by decide
theorem test_decode_E18 : decode [0x24000000, 0x0001070D] = .ok (.drawSmallClock 13 7 true) := by decide
theorem test_decode_E19 : decode [0x25000000, 0x00000009] = .ok (.drawIcons 9) := by decide
theorem test_decode_E20 : decode [0x26000064] = .ok (.drawSignalStrength 100) := by decide
theorem test_decode_E21 : decode [0x30000000, 0, 0, 1, 1] = .ok (.grabScreenRegion 0 0 1 1) := by decide
theorem test_decode_E22 : decode [0x31000000, 0, 0, 1, 1, 0x00000080] = .ok (.drawBitmap 0 0 1 1 [0x80]) := by decide
theorem test_decode_E23 : decode [0x31000000, 2, 5, 3, 10, 0x4081C0FF, 0x000080AA] =
    .ok (.drawBitmap 2 5 3 10 [0xFF, 0xC0, 0x81, 0x40, 0xAA, 0x80]) := by decide
theorem test_decode_E24 : decode [0x20000000, 0x00000003, 0x00ADB8E4] =
    .ok (.drawLine 0 [0xE4, 0xB8, 0xAD] 0 0 false false false) := by decide

/-- An arrow bit of an SCR descriptor and a barcode line, which no vector shows (R109): descriptor 0x6 is a barcode
line with a left arrow, 0x8 a text line with a right arrow. -/
theorem test_decode_descriptor : decode [0x21000000, 2, 0x6, 0, 0x8, 0] =
    .ok (.drawScreen 0 0 false 0 [⟨.barcode, true, false, []⟩, ⟨.text, false, true, []⟩]) := by decide

/-! ## Illegal frames: X1 to X23 -/

theorem test_illegal_X1 : decode [] = .error .emptyFrame := by decide
theorem test_illegal_X2 : decode [0x00000000] = .error .unlistedOpcode := by decide
theorem test_illegal_X3 : decode [0x80000000] = .error .unlistedOpcode := by decide
theorem test_illegal_X4 : decode [0x01000100] = .error .reservedHeaderBit := by decide
theorem test_illegal_X5 : decode [0x03000002] = .error .reservedHeaderBit := by decide
theorem test_illegal_X6 : decode [0x11000000] = .error .missingWord := by decide
theorem test_illegal_X7 : decode [0x11000000, 1, 2] = .error .trailingWords := by decide
theorem test_illegal_X8 : decode [0x20010000, 0] = .error .reservedHeaderBit := by decide
theorem test_illegal_X9 : decode ([0x20000000, 0x100] ++ List.replicate 64 0) = .error .stringTooLong := by decide
theorem test_illegal_X10 : decode [0x20000000, 1, 0x00004100] = .error .nonzeroPadByte := by decide
theorem test_illegal_X11 : decode [0x20000000, 0x00010000] = .error .reservedPayloadBit := by decide
theorem test_illegal_X12 : decode [0x20000000, 5, 0x41414141] = .error .missingWord := by decide
theorem test_illegal_X13 : decode [0x21000000, 1, 3, 0] = .error .reservedLineKind := by decide
theorem test_illegal_X14 : decode [0x21000000, 1, 0x10, 0] = .error .reservedPayloadBit := by decide
theorem test_illegal_X15 : decode [0x21000000, 0x100] = .error .reservedPayloadBit := by decide
theorem test_illegal_X16 : decode [0x21000100, 0] = .error .reservedHeaderBit := by decide
theorem test_illegal_X17 : decode [0x23000000, 0x04000000, 0, 0] = .error .reservedPayloadBit := by decide
theorem test_illegal_X18 : decode [0x24000000, 0x00020000] = .error .reservedPayloadBit := by decide
theorem test_illegal_X19 : decode [0x31000000, 0, 0, 1, 1, 0x180] = .error .nonzeroPadByte := by decide
theorem test_illegal_X20 : decode [0x31000000, 0, 0, 4, 9] = .error .missingWord := by decide
theorem test_illegal_X21 : decode [0x12020000] = .error .reservedHeaderBit := by decide
theorem test_illegal_X22 : decode [0x22000001, 0] = .error .reservedHeaderBit := by decide
theorem test_illegal_X23 : decode [0x26000100] = .error .reservedHeaderBit := by decide

/-! ## The words of the opcode table -/

/-- An instruction of one header word (SET_POSITION), one whose operand word the table gives no bits (BLIT_COLUMN), and
one whose payload is several zero words (DRAW_BITMAP): R114. -/
theorem test_table_words : decodeTableWord 32 0x10200003 = some (.setPosition 8 0 3) ∧
    decodeTableWord 32 0x11000000 = some (.blitColumn 0) ∧ decodeTableWord 32 0x31000000 = some (.drawBitmap 0 0 0 0 [])
    ∧ decodeTableWord 32 0x23000000 = some (.drawClock 0 0 0 false false 0 0 []) ∧
    decodeTableWord 32 0x80000000 = none := by decide

/-! ## UTF-8: D1 to D10 -/

theorem test_utf8_D1_to_D5 : utf8Next [0x41] = some (0x41, 1) ∧ utf8Next [0xC3, 0xA9] = some (0xE9, 2) ∧
    utf8Next [0xE4, 0xB8, 0xAD] = some (0x4E2D, 3) ∧ utf8Next [0xF0, 0x9F, 0x98, 0x80] = some (0x1F600, 4) ∧
    utf8Next [0x7F] = some (0x7F, 1) ∧ utf8Next [0xEF, 0xBF, 0xBF] = some (0xFFFF, 3) ∧
    utf8Next [0xF4, 0x8F, 0xBF, 0xBF] = some (0x10FFFF, 4) := by decide
theorem test_utf8_D6_to_D10 : utf8Next [0xC0, 0x80] = none ∧ utf8Next [0xC1, 0xBF] = none ∧
    utf8Next [0xE0, 0x80, 0x80] = none ∧ utf8Next [0xED, 0xA0, 0x80] = none ∧
    utf8Next [0xF4, 0x90, 0x80, 0x80] = none ∧ utf8Next [0xF5, 0x80, 0x80, 0x80] = none ∧ utf8Next [0x80] = none ∧
    utf8Next [0xE4, 0xB8] = none ∧ utf8Next [0x00] = none := by decide

/-! ## One step of each command -/

/-- The state after one frame. -/
def after (s : State) (frame : List Word) : Option State :=
  match step { s with inbox := [.submit frame] } with
  | .next t => some t
  | _ => none

/-- The bytes of logical column `c` on panel 2, the top one first, as the vectors write a column. -/
def columnWord (s : State) (c : Nat) : Nat :=
  (List.range 4).foldl (fun acc p => acc * 256 + (Memory.read s.fb (c * 4 + p)).toNat) 0

/-- What a step leaves, seen through a function. -/
def seen {α : Type} (s : State) (frame : List Word) (f : State → α) : Option α := (after s frame).map f

/-- A FrameBuffer of `n` bytes of one value: the presets "on 5A" and "on FF". -/
def filled (n : Nat) (b : Byte) : Memory := (List.range n).map fun i => (i, b)

/-- Panel 1 after `init 1` on 5A, where the BL vectors start; and with the Cursor of SET_POSITION. -/
def panel1 : State := { entry1 with fb := filled 16 0x5A }
def at1 (h c r : Nat) : State := { panel1 with cur := cursorAt panel1.hw h c r }

/-- A panel of `w` by `h` in a mode of two rows of two 8-pixel characters with inverse bleed, no arrows, the clock
layout L0 with digits of one column, and the small clock of mode 0: the vectors of mode 0 at a size that the kernel
evaluates at once. -/
def tinyMode : DisplayMode := { mode0 with charRows := 2, charCols := 2, arrowKind := .none, zoomTarget := none }
def tinyRom : Rom :=
  { testRom with
    big32W := 1, big32ColonW := 1, big32 := (List.range 10).map fun d => [BitVec.ofNat 32 (0x01010101 * (d + 1))]
    big32Colon := [0x0000FFFF] }
def tiny (w h : Nat) : State :=
  { cleanEntry (panel w h 0 0) 9 with cfg := { testConfig with modes := [(9, tinyMode)], rom := tinyRom } }

theorem test_init_C2 : seen (resetState testConfig) [0x01000002] (fun t => (t.status, t.init, fbLen t)) =
    some (0x00, true, 256) := by decide +kernel
theorem test_init_C3 : seen entry0 [0x01000001] (fun t => (t.status, t.hw.widthPx)) = some (0x15, 64) := by
  decide +kernel
theorem test_select_mode_C6 : seen entry1 [0x02000009] (fun t => (t.status, t.modeValid)) = some (0x07, false) := by
  decide +kernel
theorem test_select_mode_P1 : seen panel1 [0x02000000] (fun t => (t.status, t.modeValid, t.modeId, t.fb)) =
    some (0x00, true, 0, []) := by decide +kernel
theorem test_set_zoom_C8 : seen entry0 [0x03000001]
    (fun t => (t.status, t.result, t.modeId, t.baseModeId, t.zoomed)) = some (0x00, 0x104, 1, 0, true) := by decide +kernel
theorem test_set_zoom_C12 : seen (cleanEntry (panel 64 32 0 0) 2) [0x03000001] (fun t => (t.status, t.result, t.zoomed)) =
    some (0x00, 0x208, false) := by decide +kernel
theorem test_set_contrast_C13 : seen entry1 [0x04000064] (fun t => (t.status, t.contrast)) = some (0x00, 100) := by
  decide +kernel
theorem test_set_contrast_C13_high : seen entry1 [0x04000065] (fun t => (t.status, t.contrast)) = some (0x12, 50) := by
  decide +kernel
theorem test_set_ampm_labels_K27 : seen entry0 [0x05000000, 1, 0x61, 2, 0x6D70]
    (fun t => (t.status, t.amLabel, t.pmLabel)) = some (0x00, [0x61], [0x70, 0x6D]) := by decide +kernel
theorem test_set_ampm_labels_K28 : seen entry0 [0x05000000, 6, 0xE58D88E5, 0x00008D89, 0]
    (fun t => t.status) = some 0x00 := by decide +kernel
theorem test_set_position_BL1 : seen panel1 [0x10200000] (fun t => (t.status, t.cur)) =
    some (0x00, ⟨true, 0, 0, 8, 3, -3, 4, 0xFF, 16⟩) := by decide +kernel
theorem test_set_position_BL12 : seen panel1 [0x10840000] (fun t => (t.status, t.cur.valid)) = some (0x12, false) := by
  decide +kernel
theorem test_blit_column_BL2 : seen (at1 8 0 0) [0x11000000, 0xA5]
    (fun t => (Memory.read t.fb 4, Memory.read t.fb 5, t.cur.column, t.cur.byteOffset)) = some (0x54, 0xBA, 1, 6) := by
  decide +kernel
theorem test_blit_column_BL9 : seen (at1 8 6 0) [0x11000000, 0x81] (fun t => (t.status, t.fb)) =
    some (0x06, filled 16 0x5A) := by decide +kernel
theorem test_draw_blank_columns_BL15 : seen (at1 4 1 2) [0x12010003]
    (fun t => ((List.range 6).map fun i => Memory.read t.fb (6 + i), t.cur.column, t.cur.byteOffset)) =
    some ([0x5F, 0xDA, 0x5F, 0xDA, 0x5F, 0xDA], 4, 12) := by decide +kernel
theorem test_draw_blank_columns_BL14 : seen panel1 [0x12000000] (fun t => (t.status, t.fb)) =
    some (0x00, filled 16 0x5A) := by decide +kernel
theorem test_draw_line_inverted_cursor : seen (tiny 16 16) [0x20020101, 2, 0x4241]
    (fun t => (List.range 13).map fun c => Memory.read t.fb (2 * c)) =
    some [0xBE, 0xBE, 0xBE, 0xBE, 0xBE, 0xFF, 0x42, 0x42, 0x42, 0x42, 0x42, 0x00, 0x00] := by decide +kernel
theorem test_draw_line_T12 : seen entry0 [0x20400000, 1, 0x41] (fun t => (t.status, t.fb)) = some (0x08, []) := by
  decide +kernel
theorem test_draw_screen_bleed : seen (tiny 16 16) [0x21000000, 2, 0, 1, 0x41, 1, 1, 0x42]
    (fun t => (List.range 14).map fun i => Memory.read t.fb i) =
    some [0x41, 0xBD, 0x41, 0xBD, 0x41, 0xBD, 0x41, 0xBD, 0x41, 0xBD, 0x01, 0xFF, 0x01, 0xFF] := by decide +kernel
theorem test_draw_screen_T18 : seen entry0 [0x21000000, 5, 0, 0, 0, 0, 0, 0, 0, 0, 0, 0] (fun t => t.status) =
    some 0x08 := by decide +kernel
theorem test_draw_barcode_B4 : seen (tiny 24 8) [0x22000000, 0] (fun t => (List.range 24).map (Memory.read t.fb)) =
    some [0xFF, 0, 0, 0xFF, 0, 0xFF, 0xFF, 0, 0xFF, 0xFF, 0, 0xFF, 0xFF, 0, 0, 0xFF, 0, 0xFF, 0xFF, 0, 0xFF, 0xFF, 0, 0xFF]
    := by decide +kernel
theorem test_draw_barcode_B10 : seen entry0 [0x22200000, 7, 0x30303047, 0x303030] (fun t => (t.status, t.fb)) =
    some (0x03, []) := by decide +kernel
theorem test_draw_clock_K10 : seen { tiny 8 32 with fb := filled 32 0x33 } [0x23000000, 0x507, 0, 0]
    (fun t => (List.range 6).map (columnWord t)) =
    some [0x01010101, 0x08080808, 0xFFFF, 0x01010101, 0x06060606, 0] := by decide +kernel
theorem test_draw_clock_K19 : seen (cleanEntry (panel 64 32 0 0) 1) [0x23000000, 0x03001E09, 0x1E07, 0]
    (fun t => t.status) = some 0x05 := by decide +kernel
theorem test_draw_small_clock_K24 : seen { tiny 44 8 with fb := filled 44 0xFF, small12 := true } [0x24000000, 0x509]
    (fun t => ([0, 6, 12, 18, 28, 29, 41, 42].map (Memory.read t.fb), t.small12)) =
    some ([0x30, 0x39, 0x3A, 0x30, 0x35, 0x00, 0x00, 0xFF], false) := by decide +kernel
theorem test_draw_small_clock_K25 : seen entry0 [0x24000000, 0x3C00] (fun t => t.status) = some 0x12 := by decide +kernel
theorem test_draw_icons_I2 : seen entry0 [0x25000000, 9]
    (fun t => (columnWord t 0, columnWord t 7, columnWord t 8, columnWord t 16, columnWord t 62)) =
    some (0x101, 1, 0x104, 0x100, 0x100) := by decide +kernel
theorem test_draw_icons_no_icons : seen (cleanEntry (panel 64 32 0 0) 1) [0x25000000, 1] (fun t => t.status) =
    some 0x08 := by decide +kernel
theorem test_draw_signal_SG2 : seen entry0 [0x26000019] (fun t => (columnWord t 55, columnWord t 56, columnWord t 59)) =
    some (0, 0x03000000, 0x03000000) := by decide +kernel
theorem test_draw_signal_SG5 : seen entry0 [0x260000FE] (fun t => t.status) = some 0x12 := by decide +kernel
theorem test_grab_M8 : seen entry0 [0x30000000, 63, 31, 1, 1] (fun t => (t.status, t.rdata)) =
    some (0x00, [63, 24, 1, 8, 0]) := by decide +kernel
theorem test_grab_M7 : seen entry0 [0x30000000, 60, 0, 5, 1] (fun t => (t.status, t.rdata)) = some (0x06, []) := by
  decide +kernel
theorem test_draw_bitmap_M3 : seen entry0 [0x31000000, 2, 5, 3, 10, 0x4081C0FF, 0x80AA]
    (fun t => (columnWord t 2, columnWord t 3, columnWord t 4)) = some (0x07FE0000, 0x040A0000, 0x05540000) := by
  decide +kernel
theorem test_draw_bitmap_M10 : seen { entry0 with fb := filled 256 0xFF } [0x31000000, 0, 1, 1, 3, 0]
    (fun t => Memory.read t.fb 0) = some 0x8F := by decide +kernel

/-- An illegal frame before INIT (section 3.2): 0x10, and the Cursor stays. -/
theorem test_illegal_frame : seen (at1 8 0 0) [0x01000100] (fun t => (t.status, t.cur.valid)) = some (0x10, true) := by
  decide +kernel

end Sys2Proof.Tests
end

