-- ==== Sys2Proof/Tests/Witnesses.lean ====
section
/-! SUPPORT. Witnesses: for every statement with hypotheses, a concrete state and operands that meet them, one for
each clause, at the boundary of its range. The theorem of a statement has its name. -/

namespace Sys2Proof.Tests

-- One evaluation at a time: each waits for the kernel, and in one text they would wait in a hundred threads.
set_option Elab.async false

open Sys2Proof.Machine

/-! ## States -/

/-- The invariants hold in a clean-entry state on a legal panel, in any mode of the table, with an empty FrameBuffer,
whatever SMALL12 and the inbox. -/
theorem cleanEntry_invariant {p : HardwareProfile} {id : BitVec 8} {m : DisplayMode} (hp : profileLegal p = true)
    (hm : mode? testConfig id = some m) : Invariant (cleanEntry p id) where
  configLegal := testConfig_legal
  fbCanonical := rfl
  fbInside := fun _ h => nomatch h
  panelLegal := fun _ => hp
  activeMode := fun _ => ⟨rfl, m, hm⟩
  zoom := fun h => nomatch h
  cursor := fun h => nomatch h
  contrast := by show (50 : BitVec 7).toNat ≤ 100; decide
  amLabel := by
    show labelWidth (resetState testConfig).amLabel ≤ testConfig.ampmCap
    decide +kernel
  pmLabel := by
    show labelWidth (resetState testConfig).pmLabel ≤ testConfig.ampmCap
    decide +kernel
  onlyVisibleInk := fun _ b h => by simp [bitAt, Memory.read, cleanEntry, resetState, clearByte] at h

/-- A clean-entry state is active in its mode. -/
theorem cleanEntry_active {p : HardwareProfile} {id : BitVec 8} {m : DisplayMode} (hp : profileLegal p = true)
    (hm : mode? testConfig id = some m) : Active (cleanEntry p id) m := ⟨cleanEntry_invariant hp hm, rfl, rfl, hm⟩

/-- Panel 2 in mode 0 with the Cursor of SET_POSITION. -/
def cursorEntry (h c r : Nat) : State := { entry0 with cur := cursorAt entry0.hw h c r }

theorem cursorEntry_invariant {h c r : Nat} (h1 : 1 ≤ h) (h2 : h ≤ 32) (hc : c ≤ 1024) (hr : r ≤ 255) :
    Invariant (cursorEntry h c r) := by
  have i : Invariant entry0 := cleanEntry_invariant (by decide) rfl
  exact ⟨i.configLegal, i.fbCanonical, i.fbInside, i.panelLegal, i.activeMode, i.zoom,
    fun _ => ⟨rfl, h1, h2, Nat.mul_mod_right 8 _, hc, hr, rfl⟩, i.contrast, i.amLabel, i.pmLabel, i.onlyVisibleInk⟩

/-- Mode 0 zoomed: mode 1, from mode 0. -/
def zoomEntry : State := { cleanEntry (panel 64 32 0 0) 1 with zoomed := true, baseModeId := 0 }

theorem zoomEntry_active : Active zoomEntry mode1 := by
  have i : Invariant (cleanEntry (panel 64 32 0 0) 1) := cleanEntry_invariant (by decide) rfl
  exact ⟨⟨i.configLegal, i.fbCanonical, i.fbInside, i.panelLegal, i.activeMode,
    fun _ => ⟨rfl, by decide, mode0, rfl, rfl⟩, i.cursor, i.contrast, i.amLabel, i.pmLabel, i.onlyVisibleInk⟩,
    rfl, rfl, rfl⟩

/-- After a 12-hour small clock on panel 2 in mode 0. -/
def small12Entry : State := { entry0 with small12 := true }

theorem small12Entry_active : Active small12Entry mode0 := by
  have i : Invariant entry0 := cleanEntry_invariant (by decide) rfl
  exact ⟨⟨i.configLegal, i.fbCanonical, i.fbInside, i.panelLegal, i.activeMode, i.zoom, i.cursor, i.contrast,
    i.amLabel, i.pmLabel, i.onlyVisibleInk⟩, rfl, rfl, rfl⟩

theorem entry0_active : Active entry0 mode0 := cleanEntry_active (by decide) rfl
theorem entry1_mode (id : BitVec 8) {m : DisplayMode} (hm : mode? testConfig id = some m) :
    Active (cleanEntry (panel 64 32 0 0) id) m := cleanEntry_active (by decide) hm

/-- The state after reset under the test configuration. -/
theorem uninit_invariant : Invariant (resetState testConfig) := by
  have i : Invariant entry0 := cleanEntry_invariant (by decide) rfl
  exact ⟨i.configLegal, i.fbCanonical, fun _ h => (nomatch h), fun h => (nomatch h), fun h => (nomatch h),
    fun h => (nomatch h), fun h => (nomatch h), i.contrast, i.amLabel, i.pmLabel,
    fun _ _ h => by simp [bitAt, Memory.read, resetState, clearByte] at h⟩

/-- A 64 by 64 panel whose one mode has two rows of the 32-pixel font with inverse bleed: row 1 is 33 pixels high;
and a mode of no columns. -/
def tallMode : DisplayMode := { mode1 with charRows := 2, inverseBleed := true }
def emptyMode : DisplayMode := { mode1 with charRows := 2, charCols := 0 }
def tallConfig : Config :=
  { testConfig with profiles := [(1, panel 64 64 0 0)], modes := [(7, tallMode), (8, emptyMode)] }
def tallEntry (id : BitVec 8) : State :=
  { resetState tallConfig with init := true, hw := panel 64 64 0 0, modeValid := true, modeId := id }

theorem tallConfig_legal : configLegal tallConfig = true := by decide +kernel

theorem tallEntry_active {id : BitVec 8} {m : DisplayMode} (hm : mode? tallConfig id = some m) :
    Active (tallEntry id) m := by
  have i : Invariant entry0 := cleanEntry_invariant (by decide) rfl
  exact ⟨⟨tallConfig_legal, rfl, fun _ h => (nomatch h), fun _ => (by decide : profileLegal (panel 64 64 0 0) = true),
    fun _ => ⟨rfl, m, hm⟩, fun h => (nomatch h), fun h => (nomatch h), i.contrast, i.amLabel, i.pmLabel,
    fun _ _ h => by simp [bitAt, Memory.read, tallEntry, resetState, clearByte] at h⟩, rfl, rfl, hm⟩

/-! ## Encoding -/

/-- The longest strings, a screen of two lines, a bitmap of two columns of two bytes. -/
theorem witness_DecodeEncode :
    (Instr.setAmpmLabels (List.replicate 255 0x41) []).WellFormed = true ∧
    (Instr.drawScreen 0xFF 0xF true 0xFF [⟨.barcode, true, true, [0x30]⟩, ⟨.text, false, false, []⟩]).WellFormed = true ∧
    (Instr.drawBitmap 0 0 2 9 [1, 2, 3, 4]).WellFormed = true ∧ (Instr.setPosition 63 1023 255).WellFormed = true := by
  decide +kernel

theorem witness_EncodeDecode :
    decode [0x31000000, 0, 0, 2, 9, 0x04030201] = .ok (.drawBitmap 0 0 2 9 [1, 2, 3, 4]) := by decide

/-- The last byte and the last pad byte of a string of five. -/
theorem witness_PackedStrings :
    4 < 4 * ceilDiv ([1, 2, 3, 4, 5] : List Byte).length 4 ∧ 7 < 4 * ceilDiv ([1, 2, 3, 4, 5] : List Byte).length 4 := by
  decide

theorem witness_HeaderSelectsOneRow :
    (∃ r ∈ opcodeTable, (0x20120000 : Word) &&& r.mask = r.value) ∧
    decode [0x20120000, 0] = .ok (.drawLine 1 [] 0 0 true false false) ∧
    (∀ r ∈ opcodeTable, (0x06000000 : Word) &&& r.mask ≠ r.value) := by decide

theorem witness_FrameLength : decode [0x20120000, 0x00000002, 0x00004241] =
    .ok (.drawLine 1 [0x41, 0x42] 0 0 true false false) := by decide

/-! ## The machine -/

/-- A state whose host has events waiting. -/
def waiting (events : List HostEvent) : State := { entry0 with inbox := events }

theorem witness_StepRunsDecoded :
    ((waiting [.submit [0x10200003], .reset]).inbox = .submit [0x10200003] :: [.reset] ∧
      decode [0x10200003] = .ok (.setPosition 8 0 3)) ∧
    decodeTableWord 32 0x10200003 = some (.setPosition 8 0 3) := by decide

theorem witness_IllegalFrame : (waiting [.submit [0x01000100]]).inbox = .submit [0x01000100] :: [] ∧
    decode [0x01000100] = .error .reservedHeaderBit := by decide

/-- The last byte of the FrameBuffer and the first index past it. -/
theorem witness_HostEvents :
    ((waiting [.readFb 255]).inbox = .readFb 255 :: [] ∧ 255 < fbLen (waiting [.readFb 255])) ∧
    ((waiting [.readFb 256]).inbox = .readFb 256 :: [] ∧ fbLen (waiting [.readFb 256]) ≤ 256) ∧
    (waiting [.reset]).inbox = .reset :: [] ∧ (waiting []).inbox = [] := by decide

theorem waiting_invariant (events : List HostEvent) : Invariant (waiting events) := by
  have i : Invariant entry0 := cleanEntry_invariant (by decide) rfl
  exact ⟨i.configLegal, i.fbCanonical, i.fbInside, i.panelLegal, i.activeMode, i.zoom, i.cursor, i.contrast,
    i.amLabel, i.pmLabel, i.onlyVisibleInk⟩

theorem witness_StepKeepsInvariant : Invariant (waiting [.submit [0x04000064]]) ∧
    ∃ t, step (waiting [.submit [0x04000064]]) = .next t ∧ t.contrast = 100 :=
  ⟨waiting_invariant _, _, rfl, by decide⟩

theorem witness_StepProgress : Invariant (waiting [.readFb 255]) ∧
    (∀ i, (waiting [.readFb 255]).inbox.head? = some (.readFb i) → i < fbLen (waiting [.readFb 255])) := by
  refine ⟨waiting_invariant _, fun i h => ?_⟩
  have : i = 255 := by simpa [waiting] using h.symm
  subst this; decide

/-- A command that fails, a blitter command that fails, and a DRAW_SCREEN that is rejected. -/
theorem witness_ErrorChangesNothing :
    (∃ t, exec (.init 2) entry0 = .next t ∧ t.status = 0x15) ∧
    (∃ t, exec (.setPosition 33 0 0) entry0 = .next t ∧ t.status = 0x12) ∧
    (∃ t, exec (.drawScreen 0 0 false 0 []) (resetState testConfig) = .next t ∧ t.status = 0x11) :=
  ⟨⟨_, rfl, by decide⟩, ⟨_, rfl, by decide⟩, ⟨_, rfl, by decide⟩⟩

theorem witness_StatusCodes : ∃ t, exec (.setContrast 100) entry0 = .next t ∧ t.status = 0x00 := ⟨_, rfl, by decide⟩

theorem witness_Requirements :
    (needsInit (.setContrast 0) = true ∧ (resetState testConfig).init = false) ∧
    (needsMode (.drawIcons 0) = true ∧ entry1.modeValid = false ∧ entry1.init = true) ∧
    (entry0.init = true ∧ entry0.cur.valid = false ∧ 0 < (1 : BitVec 16).toNat) := by decide

theorem witness_ProfileFixed :
    (∃ t, exec (.setContrast 100) entry0 = .next t ∧ entry0.init = true) ∧
    (waiting [.reset]).inbox = .reset :: [] := ⟨⟨_, rfl, rfl⟩, rfl⟩

theorem witness_CursorDropped :
    (∃ t, exec (.setContrast 100) (cursorEntry 8 0 0) = .next t ∧ isBlitter (.setContrast 100) = false) ∧
    (∃ t, exec (.setPosition 0 0 0) (cursorEntry 8 0 0) = .next t ∧ t.status ≠ 0x00) ∧
    decode [0x01000100] = .error .reservedHeaderBit :=
  ⟨⟨_, rfl, rfl⟩, ⟨_, rfl, by decide⟩, by decide⟩

/-- A command other than the two, and each of the two with an error. -/
theorem witness_ResultRegisters :
    (∃ t, exec (.setContrast 100) entry0 = .next t) ∧
    (∃ t, exec (.setZoom true) entry1 = .next t ∧ t.status ≠ 0x00) ∧
    (∃ t, exec (.grabScreenRegion 60 0 5 1) entry0 = .next t ∧ t.status ≠ 0x00) :=
  ⟨⟨_, rfl⟩, ⟨_, rfl, by decide⟩, ⟨_, rfl, by decide⟩⟩

theorem witness_StateWriters : (∃ t, exec (.setContrast 100) entry0 = .next t) ∧
    (∃ t, exec (.setAmpmLabels [] []) entry0 = .next t) := ⟨⟨_, rfl⟩, ⟨_, rfl⟩⟩

/-- Two states that differ in the contrast and in every transmit-side field. -/
theorem witness_TransmitFieldsIgnored :
    let s : State := { entry0 with contrast := 100, hw := ⟨64, 32, 0, 0, [7, 6, 5, 4, 3, 2, 1, 0], true, true, true⟩ }
    forTransmit entry0 = forTransmit s ∧ entry0.contrast ≠ s.contrast ∧ entry0.hw ≠ s.hw := by decide +kernel

/-! ## The blitter -/

theorem witness_SetPosition :
    (resetState testConfig).init = false ∧ entry0.init = true ∧
    (0 : BitVec 6).toNat < 1 ∧ 32 < (33 : BitVec 6).toNat ∧
    (1 ≤ (1 : BitVec 6).toNat ∧ (1 : BitVec 6).toNat ≤ 32) ∧ (1 ≤ (32 : BitVec 6).toNat ∧ (32 : BitVec 6).toNat ≤ 32) := by
  decide

/-- The last visible column at the lowest row; one column, and one row, too far. -/
theorem witness_BlitColumn :
    (Invariant (resetState testConfig) ∧ (resetState testConfig).init = false) ∧
    (Invariant entry0 ∧ entry0.init = true ∧ entry0.cur.valid = false) ∧
    (Invariant (cursorEntry 8 64 24) ∧ (cursorEntry 8 64 24).cur.valid = true ∧
      ¬ ((cursorEntry 8 64 24).cur.column < wVis (cursorEntry 8 64 24).hw ∧
        (cursorEntry 8 64 24).cur.rowPx + (cursorEntry 8 64 24).cur.heightPx ≤ (cursorEntry 8 64 24).hw.heightPx)) ∧
    (Invariant (cursorEntry 8 63 25) ∧ (cursorEntry 8 63 25).cur.valid = true ∧
      ¬ ((cursorEntry 8 63 25).cur.column < wVis (cursorEntry 8 63 25).hw ∧
        (cursorEntry 8 63 25).cur.rowPx + (cursorEntry 8 63 25).cur.heightPx ≤ (cursorEntry 8 63 25).hw.heightPx)) ∧
    (Invariant (cursorEntry 8 63 24) ∧ (cursorEntry 8 63 24).cur.valid = true ∧
      (cursorEntry 8 63 24).cur.column < wVis (cursorEntry 8 63 24).hw ∧
      (cursorEntry 8 63 24).cur.rowPx + (cursorEntry 8 63 24).cur.heightPx ≤ (cursorEntry 8 63 24).hw.heightPx) := by
  refine ⟨⟨uninit_invariant, ?_⟩, ⟨entry0_active.inv, ?_⟩, ⟨cursorEntry_invariant ?_ ?_ ?_ ?_, ?_⟩,
    ⟨cursorEntry_invariant ?_ ?_ ?_ ?_, ?_⟩, cursorEntry_invariant ?_ ?_ ?_ ?_, ?_⟩ <;> decide

/-- The last columns of the visible rectangle, and one column too many; no columns, with and without a Cursor. -/
theorem witness_DrawBlankColumns :
    (Invariant (resetState testConfig) ∧ (resetState testConfig).init = false) ∧
    (Invariant entry0 ∧ entry0.init = true ∧ 0 < (1 : BitVec 16).toNat ∧ entry0.cur.valid = false ∧
      (0 : BitVec 16).toNat = 0) ∧
    (Invariant (cursorEntry 8 60 24) ∧ (cursorEntry 8 60 24).cur.valid = true ∧ 0 < (5 : BitVec 16).toNat ∧
      ¬ ((cursorEntry 8 60 24).cur.column + (5 : BitVec 16).toNat ≤ wVis (cursorEntry 8 60 24).hw ∧
        (cursorEntry 8 60 24).cur.rowPx + (cursorEntry 8 60 24).cur.heightPx ≤ (cursorEntry 8 60 24).hw.heightPx)) ∧
    ((cursorEntry 8 60 24).cur.column + (4 : BitVec 16).toNat ≤ wVis (cursorEntry 8 60 24).hw ∧
      (cursorEntry 8 60 24).cur.rowPx + (cursorEntry 8 60 24).cur.heightPx ≤ (cursorEntry 8 60 24).hw.heightPx) ∧
    (Invariant (cursorEntry 8 64 24) ∧ (cursorEntry 8 64 24).cur.valid = true ∧
      (cursorEntry 8 64 24).cur.column + (0 : BitVec 16).toNat ≤ wVis (cursorEntry 8 64 24).hw ∧
      (cursorEntry 8 64 24).cur.rowPx + (cursorEntry 8 64 24).cur.heightPx ≤ (cursorEntry 8 64 24).hw.heightPx) := by
  refine ⟨⟨uninit_invariant, ?_⟩, ⟨entry0_active.inv, ?_⟩, ⟨cursorEntry_invariant ?_ ?_ ?_ ?_, ?_⟩, ?_,
    cursorEntry_invariant ?_ ?_ ?_ ?_, ?_⟩ <;> decide

/-- The last column, 29 rows from row 3 to the last one: over four bytes, from the fourth bit of the first. -/
theorem witness_ByteLevelBlit : Invariant (cursorEntry 29 63 3) ∧ (cursorEntry 29 63 3).cur.valid = true ∧
    (cursorEntry 29 63 3).cur.column < wVis (cursorEntry 29 63 3).hw ∧
    (cursorEntry 29 63 3).cur.rowPx + (cursorEntry 29 63 3).cur.heightPx ≤ (cursorEntry 29 63 3).hw.heightPx := by
  refine ⟨cursorEntry_invariant ?_ ?_ ?_ ?_, ?_⟩ <;> decide

theorem witness_CursorAfterBlits : Memory.wf entry0.fb = true ∧
    ∃ u t, setpos 8 62 24 entry0 = .ok u ∧ blitAll [0xA5, 0x5A] u = .ok t ∧ t.cur.column = 64 :=
  ⟨rfl, _, _, rfl, rfl, rfl⟩

theorem witness_ShiftCorrectness : Invariant (cursorEntry 8 63 23) ∧ (cursorEntry 8 63 23).cur.valid = true ∧
    (cursorEntry 8 63 23).cur.heightPx = 8 ∧ (cursorEntry 8 63 23).cur.s ≠ 0 ∧
    ∃ t, blit ((0xA5 : Byte).setWidth 32) (cursorEntry 8 63 23) = .ok t ∧ t.cur.column = 64 :=
  ⟨cursorEntry_invariant (by decide) (by decide) (by decide) (by decide), rfl, rfl, by decide, _, rfl, rfl⟩

/-- The last visible pixel. -/
theorem witness_VisiblePixels : visible (panel 64 32 0 0) 63 31 = true ∧ visible (panel 8 12 2 3) 5 11 = true := by
  decide

/-! ## Text decoding -/

/-- Characters of every length up to the greatest scalar value, before a malformed byte. -/
theorem witness_DecodeUtf8 :
    (∀ cp ∈ [0x7F, 0x7FF, 0xFFFF, 0x10FFFF], isScalar cp ∧ cp ≠ 0) ∧
    (∀ cp rest, isScalar cp → cp ≠ 0 → ([0xC0] : List Byte) ≠ utf8Bytes cp ++ rest) := by
  refine ⟨by simp [isScalar], fun cp rest h0 hz h => ?_⟩
  have hl := congrArg List.length h
  unfold utf8Bytes at h hl
  split at h
  · rename_i hlt
    rw [List.singleton_append, List.cons.injEq] at h
    have := congrArg BitVec.toNat h.1
    simp at this; omega
  · rename_i h1
    rw [if_neg h1] at hl
    split at hl
    · simp at hl
    · split at hl <;> simp at hl

/-- A double-width character that ends at the limit. -/
theorem witness_DecodeWidth :
    decodeText testConfig.charMap [0x41, 0xE4, 0xB8, 0xAD] 3 (some .f16x8) = [(0x41, 0)] ++ (0xCE2D, 1) :: [] := by decide +kernel

/-! ## Text lines and screens -/

/-- The last row of mode 0, with bleed; and a line of no columns, wherever its row lies. -/
theorem witness_DrawLineDraws :
    (Active entry0 mode0 ∧ (3 : BitVec 4).toNat < mode0.charRows ∧ lineHeight mode0 (3 : BitVec 4).toNat ≤ 32 ∧
      lineWidth mode0 ≤ wVis entry0.hw ∧
      lineTop mode0 (3 : BitVec 4).toNat + lineHeight mode0 (3 : BitVec 4).toNat ≤ entry0.hw.heightPx) ∧
    (Active (tallEntry 8) emptyMode ∧ (1 : BitVec 4).toNat < emptyMode.charRows ∧
      lineHeight emptyMode (1 : BitVec 4).toNat ≤ 32 ∧ lineWidth emptyMode = 0) := by
  refine ⟨⟨entry0_active, ?_⟩, tallEntry_active rfl, ?_⟩ <;> decide

/-- The first row a mode does not have; row 1 of the 32-pixel font with bleed, 33 pixels high; a line of 96 pixels
on a panel of 64. -/
theorem witness_DrawLineRejects :
    (Active entry0 mode0 ∧ mode0.charRows ≤ (4 : BitVec 4).toNat) ∧
    (Active (tallEntry 7) tallMode ∧ 32 < lineHeight tallMode (1 : BitVec 4).toNat) ∧
    (Active (cleanEntry (panel 64 32 0 0) 4) mode4 ∧ (1 : BitVec 4).toNat < mode4.charRows ∧
      lineHeight mode4 (1 : BitVec 4).toNat ≤ 32 ∧ 0 < lineWidth mode4 ∧
      ¬ (lineWidth mode4 ≤ wVis (cleanEntry (panel 64 32 0 0) 4).hw ∧
        lineTop mode4 (1 : BitVec 4).toNat + lineHeight mode4 (1 : BitVec 4).toNat ≤
          (cleanEntry (panel 64 32 0 0) 4).hw.heightPx)) := by
  refine ⟨⟨entry0_active, ?_⟩, ⟨tallEntry_active rfl, ?_⟩, entry1_mode 4 rfl, ?_⟩ <;> decide

/-- The pieces of a screen of mode 0: a barcode of no characters in row 0 and text in the other rows. -/
def screenLines : List ScreenLine := [⟨.barcode, false, false, []⟩, ⟨.invertedText, true, false, [0x41]⟩]
def screenPieces : List Piece :=
  [barcodePiece testConfig entry0.hw mode0 0 [],
    linePiece testConfig mode0 1 [0x41] 2 1 true true false,
    linePiece testConfig mode0 2 [] 0 0 false false false,
    linePiece testConfig mode0 3 [] 0 0 false false false]

theorem screenPieces_fit : ∀ p ∈ screenPieces, p.fits entry0.hw := by
  simp only [Piece.fits]; decide +kernel

theorem witness_DrawScreenDraws : Active entry0 mode0 ∧ screenLines.length ≤ mode0.charRows ∧
    screenPieces.length = mode0.charRows ∧
    (∀ r p, screenPieces[r]? = some p →
      RowShows entry0.cfg entry0.hw mode0 (2 : BitVec 8).toNat (1 : BitVec 4).toNat true (1 : BitVec 8).toNat
        (screenLines.getD r ⟨.text, false, false, []⟩) r p ∧ p.fits entry0.hw) := by
  refine ⟨entry0_active, by decide, rfl, fun r p h => ⟨?_, screenPieces_fit p (List.mem_of_getElem? h)⟩⟩
  match r, h with
  | 0, h => exact ⟨[], ⟨[], [], rfl, by simp, .inr ⟨rfl, by decide⟩, rfl⟩, by decide, (Option.some.inj h).symm⟩
  | 1, h => exact ⟨by decide, (Option.some.inj h).symm⟩
  | 2, h => exact ⟨by decide, (Option.some.inj h).symm⟩
  | 3, h => exact ⟨by decide, (Option.some.inj h).symm⟩
  | n + 4, h => exact absurd h (by simp [screenPieces])

/-- One line more than the mode has rows, and as many. -/
theorem witness_DrawScreenByRows : Active entry0 mode0 ∧
    mode0.charRows < (List.replicate 5 (⟨.text, false, false, []⟩ : ScreenLine)).length ∧
    (List.replicate 4 (⟨.text, false, false, []⟩ : ScreenLine)).length ≤ mode0.charRows :=
  ⟨entry0_active, by decide, by decide⟩

/-! ## Barcodes -/

/-- The pattern of `'0'`, and a text of it. -/
def zeroPattern : BitVec 9 := (code39? 0x30).getD 0

/-- Three characters in the last row of mode 0 on panel 2: 63 pixels of 64. -/
theorem witness_DrawBarcodeDraws : Active entry0 mode0 ∧ (3 : BitVec 4).toNat < mode0.charRows ∧
    BarcodeText [0x30, 0x30, 0x30] [zeroPattern, zeroPattern, zeroPattern] ∧
    barcodeWidth entry0.cfg [zeroPattern, zeroPattern, zeroPattern].length ≤ wVis entry0.hw ∧
    (3 : BitVec 4).toNat * fontH mode0.fontKind + mode0.topRowOffsetPx + fontH mode0.fontKind ≤ entry0.hw.heightPx :=
  ⟨entry0_active, by decide, ⟨[], [0x30, 0x30, 0x30], rfl, by simp, .inr ⟨rfl, by decide⟩, rfl⟩, by decide, by decide⟩

/-- Panel 3 (128 by 16) in mode 0, whose rows 2 and 3 lie below it. -/
theorem shortPanel_active : Active (cleanEntry (panel 128 16 0 0) 0) mode0 := cleanEntry_active (by decide) rfl

/-- The first row the mode does not have; a seventh character that is not `'0'`; a kept `'G'`, of six and of one;
four characters, 76 pixels on a panel of 64; row 2 on a panel of two rows. -/
theorem witness_DrawBarcodeRejects :
    (Active entry0 mode0 ∧ mode0.charRows ≤ (4 : BitVec 4).toNat ∧ (3 : BitVec 4).toNat < mode0.charRows) ∧
    (untilNul [0x31, 0x30, 0x30, 0x30, 0x30, 0x30, 0x30] = [0x31] ++ [0x30, 0x30, 0x30, 0x30, 0x30, 0x30] ∧
      (0x31 : Byte) ∈ [(0x31 : Byte)] ∧ (0x31 : Byte) ≠ 0x30) ∧
    (untilNul [0x30, 0x47, 0x30, 0x30, 0x30, 0x30, 0x30] = [0x30] ++ [0x47, 0x30, 0x30, 0x30, 0x30, 0x30] ∧
      untilNul [0x47] = [] ++ [0x47] ∧ code39? 0x47 = none) ∧
    (BarcodeText [0x30, 0x30, 0x30, 0x30] [zeroPattern, zeroPattern, zeroPattern, zeroPattern] ∧
      wVis entry0.hw < barcodeWidth entry0.cfg [zeroPattern, zeroPattern, zeroPattern, zeroPattern].length) ∧
    (Active (cleanEntry (panel 128 16 0 0) 0) mode0 ∧ (2 : BitVec 4).toNat < mode0.charRows ∧ BarcodeText [] [] ∧
      barcodeWidth (cleanEntry (panel 128 16 0 0) 0).cfg ([] : List (BitVec 9)).length ≤
        wVis (cleanEntry (panel 128 16 0 0) 0).hw ∧
      (cleanEntry (panel 128 16 0 0) 0).hw.heightPx <
        (2 : BitVec 4).toNat * fontH mode0.fontKind + mode0.topRowOffsetPx + fontH mode0.fontKind) :=
  ⟨⟨entry0_active, by decide⟩, by decide, by decide,
    ⟨⟨[], [0x30, 0x30, 0x30, 0x30], rfl, by simp, .inr ⟨rfl, by decide⟩, rfl⟩, by decide⟩,
    shortPanel_active, by decide, ⟨[], [], rfl, by simp, .inr ⟨rfl, by decide⟩, rfl⟩, by decide⟩

theorem witness_LeadingZeros : (∀ b ∈ [(0x30 : Byte), 0x30], b = 0x30) ∧
    ([0x31, 0x32, 0x33, 0x34, 0x35, 0x46] : List Byte).length = 6 ∧
    (∀ b ∈ ([0x31, 0x32, 0x33, 0x34, 0x35, 0x46] : List Byte), b ≠ 0) := by decide

/-- Two characters, each in turn the one read back. -/
theorem witness_BarcodeReadsBack : configLegal testConfig = true ∧ (1 ≤ 32 ∧ 32 ≤ 32) ∧
    code39Patterns [0x30, 0x31] = some ([] ++ zeroPattern :: [(code39? 0x31).getD 0]) ∧
    code39Patterns [0x30, 0x31] = some ([zeroPattern] ++ (code39? 0x31).getD 0 :: []) ∧
    code39Patterns [0x61] = code39Patterns [0x41] ∧ (code39Patterns [0x61]).isSome = true :=
  ⟨testConfig_legal, by decide⟩

/-! ## Clocks -/

/-- The last second of the day in 12-hour format in mode 0, with an alarm. -/
theorem witness_DrawClockDraws : Active entry0 mode0 ∧ ClockFieldsLegal 23 59 59 23 59 ∧ mode0.clockKind ≠ .none ∧
    (∀ p ∈ clockPieces entry0 mode0 (23 : BitVec 8).toNat (59 : BitVec 8).toNat true true (23 : BitVec 8).toNat
      (59 : BitVec 8).toNat [], p.fits entry0.hw) := by
  refine ⟨entry0_active, ⟨by decide, by decide, by decide, by decide, by decide⟩, by decide, ?_⟩
  simp only [Piece.fits]; decide +kernel

/-- Each field one above its range; a mode without a clock; a face that does not fit its panel. -/
theorem witness_DrawClockRejects :
    (Active entry0 mode0 ∧ ¬ ClockFieldsLegal 24 0 0 0 0 ∧ ¬ ClockFieldsLegal 0 60 0 0 0 ∧
      ¬ ClockFieldsLegal 0 0 60 0 0 ∧ ¬ ClockFieldsLegal 0 0 0 24 0 ∧ ¬ ClockFieldsLegal 0 0 0 0 60) ∧
    (Active (cleanEntry (panel 64 32 0 0) 1) mode1 ∧ ClockFieldsLegal 23 59 59 23 59 ∧ mode1.clockKind = .none) ∧
    (Active (cleanEntry (panel 128 16 0 0) 0) mode0 ∧ mode0.clockKind ≠ .none ∧
      ∃ p ∈ clockPieces (cleanEntry (panel 128 16 0 0) 0) mode0 (23 : BitVec 8).toNat (59 : BitVec 8).toNat false false
        (0 : BitVec 8).toNat (0 : BitVec 8).toNat [], ¬ p.fits (cleanEntry (panel 128 16 0 0) 0).hw) := by
  refine ⟨⟨entry0_active, ?_⟩, ⟨entry1_mode 1 rfl, ?_⟩, shortPanel_active, by decide, ?_⟩
  · unfold ClockFieldsLegal; decide
  · unfold ClockFieldsLegal; decide
  · simp only [Piece.fits]; decide +kernel

/-- A panel of 8 by 32 whose digits have one column: the kernel evaluates a whole clock face on it. -/
def smallMode : DisplayMode := { mode0 with charRows := 1, charCols := 1, arrowKind := .none, zoomTarget := none }
def smallRom : Rom :=
  { testRom with
    big32W := 1, big32ColonW := 1, big32 := (List.range 10).map fun d => [BitVec.ofNat 32 d], big32Colon := [3] }
def smallEntry : State :=
  { cleanEntry (panel 8 32 0 0) 9 with cfg := { testConfig with modes := [(9, smallMode)], rom := smallRom } }

theorem witness_ClockForgetsScreen :
    ∃ t, exec (.drawClock 7 5 0 false false 0 0 []) smallEntry = .next t ∧ t.status = 0x00 := by
  have h : (match exec (.drawClock 7 5 0 false false 0 0 []) smallEntry with
      | .next t => t.status == 0x00
      | _ => false) = true := by decide +kernel
  split at h
  · exact ⟨_, ‹_›, eq_of_beq h⟩
  · exact absurd h (by decide)

/-- 23:59 in 12-hour format, and a 24-hour draw after a 12-hour one. -/
theorem witness_DrawSmallClockDraws :
    (Active entry0 mode0 ∧ (23 : BitVec 8).toNat ≤ 23 ∧ (59 : BitVec 8).toNat ≤ 59 ∧
      mode0.smallClock = some ⟨0, 0, 42⟩ ∧
      ∀ p ∈ smallClockPieces entry0 mode0 ⟨0, 0, 42⟩ (23 : BitVec 8).toNat (59 : BitVec 8).toNat true,
        p.fits entry0.hw) ∧
    (Active small12Entry mode0 ∧
      ∀ p ∈ smallClockPieces small12Entry mode0 ⟨0, 0, 42⟩ (0 : BitVec 8).toNat (0 : BitVec 8).toNat false,
        p.fits small12Entry.hw) := by
  refine ⟨⟨entry0_active, by decide, by decide, rfl, ?_⟩, small12Entry_active, ?_⟩ <;>
    (simp only [Piece.fits]; decide +kernel)

/-- A panel of 64 by 4, less high than the font. -/
theorem flatPanel_active : Active (cleanEntry (panel 64 4 0 0) 0) mode0 := cleanEntry_active (by decide) rfl

/-- An hour and a minute one above their ranges; a mode without a small clock; a text that is not visible. -/
theorem witness_DrawSmallClockRejects :
    (Active entry0 mode0 ∧ 23 < (24 : BitVec 8).toNat ∧ 59 < (60 : BitVec 8).toNat) ∧
    (Active (cleanEntry (panel 64 32 0 0) 1) mode1 ∧ (23 : BitVec 8).toNat ≤ 23 ∧ (59 : BitVec 8).toNat ≤ 59 ∧
      mode1.smallClock = none) ∧
    (Active (cleanEntry (panel 64 4 0 0) 0) mode0 ∧ mode0.smallClock = some ⟨0, 0, 42⟩ ∧
      ∃ p ∈ smallClockPieces (cleanEntry (panel 64 4 0 0) 0) mode0 ⟨0, 0, 42⟩ (23 : BitVec 8).toNat
        (59 : BitVec 8).toNat true, ¬ p.fits (cleanEntry (panel 64 4 0 0) 0).hw) := by
  refine ⟨⟨entry0_active, by decide⟩, ⟨entry1_mode 1 rfl, by decide⟩, flatPanel_active, rfl, ?_⟩
  simp only [Piece.fits]; decide +kernel

/-! ## Icons and the signal glyph -/

/-- 8-pixel icons with their separator, and 16-pixel ones. -/
theorem witness_DrawIconsDraws :
    (Active entry0 mode0 ∧ mode0.iconKind ≠ .none ∧ ∀ p ∈ iconPieces entry0.cfg entry0.hw mode0 0xFF, p.fits entry0.hw) ∧
    (Active (cleanEntry (panel 64 32 0 0) 3) mode3 ∧ mode3.iconKind ≠ .none ∧
      ∀ p ∈ iconPieces (cleanEntry (panel 64 32 0 0) 3).cfg (cleanEntry (panel 64 32 0 0) 3).hw mode3 0,
        p.fits (cleanEntry (panel 64 32 0 0) 3).hw) := by
  refine ⟨⟨entry0_active, by decide, ?_⟩, entry1_mode 3 rfl, by decide, ?_⟩ <;>
    (simp only [Piece.fits]; decide +kernel)

/-- The last slot, with the icon of bit 5 in it (bits 2, 3, 4 and 31, which has no icon, below or above it), and the
last slot when two bits are set. -/
theorem witness_IconSlots : configLegal testConfig = true ∧ mode0.iconKind ≠ .none ∧ 3 < testConfig.maxIcons ∧
    (let mapped : Nat → Bool := fun b => (0x8000003C : Word).getLsbD b && (iconOf testConfig b).isSome;
      5 < 32 ∧ (0x8000003C : Word).getLsbD 5 = true ∧ iconOf testConfig 5 = some 6 ∧
        ((List.range 5).filter mapped).length = 3) ∧
    (let mapped : Nat → Bool := fun b => (0x80000003 : Word).getLsbD b && (iconOf testConfig b).isSome;
      ((List.range 32).filter mapped).length ≤ 3) :=
  ⟨testConfig_legal, by decide⟩

theorem witness_DrawIconsRejects :
    (Active (cleanEntry (panel 64 32 0 0) 1) mode1 ∧ mode1.iconKind = .none) ∧
    (Active (cleanEntry (panel 128 16 0 0) 0) mode0 ∧ mode0.iconKind ≠ .none ∧
      ∃ p ∈ iconPieces (cleanEntry (panel 128 16 0 0) 0).cfg (cleanEntry (panel 128 16 0 0) 0).hw mode0 0,
        ¬ p.fits (cleanEntry (panel 128 16 0 0) 0).hw) := by
  refine ⟨⟨entry1_mode 1 rfl, rfl⟩, shortPanel_active, by decide, ?_⟩
  simp only [Piece.fits]; decide +kernel

/-- A panel of 58 by 32, where the signal glyph of mode 0 ends at column 60. -/
theorem narrowPanel_active : Active (cleanEntry (panel 58 32 0 0) 0) mode0 := cleanEntry_active (by decide) rfl

/-- Levels -2 and 101; levels -1 and 100; a mode without the glyph; a panel it does not fit. -/
theorem witness_DrawSignalStrength :
    (Active entry0 mode0 ∧ (0xFE : BitVec 8).toInt < -1 ∧ 100 < (101 : BitVec 8).toInt) ∧
    (Active (cleanEntry (panel 64 32 0 0) 1) mode1 ∧ mode1.signalPos = none) ∧
    (-1 ≤ (0xFF : BitVec 8).toInt ∧ (0xFF : BitVec 8).toInt ≤ 100 ∧ -1 ≤ (100 : BitVec 8).toInt ∧
      (100 : BitVec 8).toInt ≤ 100 ∧ mode0.signalPos = some ⟨56, 0⟩) ∧
    Piece.fits entry0.hw
      ⟨56, 0, entry0.cfg.rom.signalH, romSignal entry0.cfg.rom (signalSelect entry0.cfg (100 : BitVec 8).toInt)⟩ ∧
    (Active (cleanEntry (panel 58 32 0 0) 0) mode0 ∧
      ¬ Piece.fits (cleanEntry (panel 58 32 0 0) 0).hw
        ⟨56, 0, entry0.cfg.rom.signalH, romSignal entry0.cfg.rom (signalSelect entry0.cfg (0xFF : BitVec 8).toInt)⟩) := by
  refine ⟨⟨entry0_active, by decide⟩, ⟨entry1_mode 1 rfl, rfl⟩, by decide, ?_, narrowPanel_active, ?_⟩ <;>
    (unfold Piece.fits; decide +kernel)

/-! ## Configuration -/

theorem witness_InitSelectsProfile : entry0.init = true ∧ (resetState testConfig).init = false ∧
    profile? testConfig 0 = none ∧ profile? testConfig 3 = some (panel 128 16 0 0) := by decide

theorem witness_SelectMode : (resetState testConfig).init = false ∧ entry1.init = true ∧ mode? testConfig 5 = none ∧
    mode? testConfig 4 = some mode4 := by decide

/-- Before INIT and before SELECT_MODE; a mode with a zoom target, one without, and a zoomed one. -/
theorem witness_SetZoom : (resetState testConfig).init = false ∧ entry1.modeValid = false ∧
    (Active entry0 mode0 ∧ entry0.zoomed = false ∧ mode0.zoomTarget = some 1) ∧
    (Active (cleanEntry (panel 64 32 0 0) 2) mode2 ∧ mode2.zoomTarget = none) ∧
    (Active zoomEntry mode1 ∧ zoomEntry.zoomed = true) :=
  ⟨rfl, rfl, ⟨entry0_active, rfl, rfl⟩, ⟨entry1_mode 2 rfl, rfl⟩, zoomEntry_active, rfl⟩

theorem witness_ZoomResult : Active entry0 mode0 ∧ Active zoomEntry mode1 := ⟨entry0_active, zoomEntry_active⟩

theorem witness_ZoomRoundTrip : Active entry0 mode0 ∧ entry0.zoomed = false ∧ mode0.zoomTarget = some 1 :=
  ⟨entry0_active, rfl, rfl⟩

theorem witness_SetContrast : (resetState testConfig).init = false ∧ entry0.init = true ∧
    100 < (101 : BitVec 8).toNat ∧ (100 : BitVec 8).toNat ≤ 100 := by decide

/-! ## Bitmap transfer -/

/-- The last pixel; an empty rectangle; a rectangle one column, and one row, too far. -/
theorem witness_GrabScreenRegion : (resetState testConfig).init = false ∧ entry0.init = true ∧
    ((63 : Word).toNat + (1 : Word).toNat ≤ wVis entry0.hw ∧ (31 : Word).toNat + (1 : Word).toNat ≤ entry0.hw.heightPx) ∧
    ¬ ((60 : Word).toNat + (5 : Word).toNat ≤ wVis entry0.hw ∧
      (31 : Word).toNat + (1 : Word).toNat ≤ entry0.hw.heightPx) ∧
    ¬ ((63 : Word).toNat + (1 : Word).toNat ≤ wVis entry0.hw ∧
      (31 : Word).toNat + (2 : Word).toNat ≤ entry0.hw.heightPx) := by decide

theorem witness_DrawBitmap : Memory.wf entry0.fb = true ∧ (resetState testConfig).init = false ∧ entry0.init = true ∧
    ((63 : Word).toNat + (1 : Word).toNat ≤ wVis entry0.hw ∧ (31 : Word).toNat + (1 : Word).toNat ≤ entry0.hw.heightPx) ∧
    ¬ ((60 : Word).toNat + (5 : Word).toNat ≤ wVis entry0.hw ∧
      (31 : Word).toNat + (1 : Word).toNat ≤ entry0.hw.heightPx) := by decide

/-- A grab that succeeds, and a record with pad bits: one column of three rows at row 24. -/
theorem witness_ScreenshotRoundTrip :
    (Invariant entry0 ∧ (1 : Word) ≠ 0 ∧
      ∃ t, exec (.grabScreenRegion 63 31 1 1) entry0 = .next t ∧ t.status = 0x00) ∧
    (entry0.init = true ∧ (24 : Word).toNat % 8 = 0 ∧ ([0xE0] : List Byte).length = bitmapBytes 1 3 ∧
      (∀ i r, i < (1 : Word).toNat → (3 : Word).toNat ≤ r → r < 8 * recordPitch (3 : Word).toNat →
        recordPixel (3 : Word).toNat [0xE0] i r = false) ∧
      (63 : Word).toNat + (1 : Word).toNat ≤ wVis entry0.hw ∧ (24 : Word).toNat + (3 : Word).toNat ≤ entry0.hw.heightPx) := by
  refine ⟨⟨entry0_active.inv, by decide, _, rfl, by decide⟩, rfl, by decide, by decide, ?_, by decide, by decide⟩
  intro i r hi h3 hr
  have hi : i = 0 := by simpa using hi
  have hr : r < 8 := by simpa [recordPitch, ceilDiv] using hr
  have h3 : 3 ≤ r := by simpa using h3
  subst hi
  interval_cases r <;> decide

end Sys2Proof.Tests
end

section
/-! SUPPORT. The frame of every command, whether it fails or succeeds: which state it leaves as it is (R35 to R50).
One lemma over all of them, from `exec_next`. -/

namespace Sys2Proof.Machine

/-- What the command `i` leaves as it is from `s` to `t`, part by part of the state: each part is kept by every command
but the ones its field names (R35 to R48). -/
structure Frame (i : Instr) (s t : State) : Prop where
  cfg : t.cfg = s.cfg
  inbox : t.inbox = s.inbox
  panel : (∀ id, i ≠ .init id) → t.init = s.init ∧ t.hw = s.hw
  mode : (∀ id, i ≠ .init id) → (∀ id, i ≠ .selectMode id) → (∀ on, i ≠ .setZoom on) →
    t.modeValid = s.modeValid ∧ t.modeId = s.modeId ∧ t.zoomed = s.zoomed ∧ t.baseModeId = s.baseModeId
  small12 : (∀ id, i ≠ .init id) → (∀ id, i ≠ .selectMode id) → (∀ on, i ≠ .setZoom on) →
    (∀ h m is12h, i ≠ .drawSmallClock h m is12h) → t.small12 = s.small12
  labels : (∀ am pm, i ≠ .setAmpmLabels am pm) → t.amLabel = s.amLabel ∧ t.pmLabel = s.pmLabel
  contrast : (∀ level, i ≠ .setContrast level) → t.contrast = s.contrast
  fb : (∃ am pm, i = .setAmpmLabels am pm) ∨ (∃ level, i = .setContrast level) ∨ (∃ h c r, i = .setPosition h c r) ∨
    (∃ l p w h, i = .grabScreenRegion l p w h) → t.fb = s.fb
  cursorDropped : isBlitter i = false → t.cur.valid = false
  cursorKept : isBlitter i = true → t.status ≠ 0x00 → t.cur = s.cur
  result : (t.status ≠ 0x00 ∨ ∀ on, i ≠ .setZoom on) → t.result = 0
  rdata : (t.status ≠ 0x00 ∨ ∀ left top width height, i ≠ .grabScreenRegion left top width height) → t.rdata = []

/-- A failed command writes the result registers and the Cursor's `valid` only (R300). -/
theorem Fails.frame {i : Instr} {s t : State} (h : Fails i s t) : Frame i s t := by
  obtain ⟨e, -, rfl⟩ := h
  cases hb : isBlitter i <;> constructor <;> simp [hb, failed, failedKeepingCursor]

/-- A successful command writes its own state, the screen, the Cursor and the result registers. -/
theorem Succeeds.frame {i : Instr} {s t : State} (h : Succeeds i s t) : Frame i s t := by
  cases i with
  | init _ => obtain ⟨p, rfl⟩ := h; constructor <;> simp [drawn, isBlitter]
  | setZoom _ =>
    obtain ⟨-, -, r, rfl⟩ | ⟨r, base, id, zoomed, -, -, rfl⟩ := h <;> constructor <;> simp [drawn, isBlitter]
  | setAmpmLabels _ _ => obtain ⟨am, pm, rfl⟩ := h; constructor <;> simp [drawn, isBlitter]
  | setPosition _ _ _ => obtain ⟨-, cur, rfl⟩ := h; constructor <;> simp [isBlitter]
  | blitColumn _ | drawBlankColumns _ _ => obtain ⟨-, fb, cur, rfl⟩ := h; constructor <;> simp [isBlitter]
  | grabScreenRegion _ _ _ _ => obtain ⟨-, words, rfl⟩ := h; constructor <;> simp [drawn, isBlitter]
  | selectMode _ | setContrast _ | drawBitmap _ _ _ _ _ =>
    obtain ⟨-, ht⟩ := h
    rw [ht]
    constructor <;> simp [drawn, isBlitter]
  | drawScreen _ _ _ _ _ =>
    obtain ⟨-, -, ht | ht | ht⟩ := h <;> rw [ht] <;> constructor <;> simp [drawn, isBlitter]
  | drawLine _ _ _ _ _ _ _ | drawBarcode _ _ | drawClock _ _ _ _ _ _ _ _ | drawSmallClock _ _ _ | drawIcons _
  | drawSignalStrength _ =>
    obtain ⟨-, -, ht⟩ := h
    rw [ht]
    constructor <;> simp [drawn, isBlitter]

theorem exec_frame {i : Instr} {s t : State} (h : exec i s = .next t) : Frame i s t :=
  (exec_next h).elim Fails.frame Succeeds.frame

/-- Settles O18, from the frame of every command. -/
theorem resultRegisters : Obligations.ResultRegisters := by
  intro i s t hx
  exact ⟨(exec_frame hx).result, (exec_frame hx).rdata⟩

/-- Settles O19, from the frame of every command. -/
theorem stateWriters : Obligations.StateWriters := by
  intro i s t hx
  have hf := exec_frame hx
  refine ⟨⟨hf.cfg, hf.inbox⟩, hf.panel, fun hi hm hz => ?_, hf.labels, hf.contrast, hf.fb⟩
  obtain ⟨hvalid, hid, hzoomed, hbase⟩ := hf.mode hi hm hz
  exact ⟨hvalid, hid, hzoomed, hbase, hf.small12 hi hm hz⟩

end Sys2Proof.Machine
end

section
/-! SUPPORT. What a step can do (R31, R110, R350, R360), one equation per event and one lemma over all of them. -/

namespace Sys2Proof.Machine

/-! ## The decoder of table words -/

theorem decodeTableWord_eq_some {nbits w : Nat} {i : Instr} (h : decodeTableWord nbits w = some i) :
    decode (tableFrame nbits w) = .ok i := by
  unfold decodeTableWord at h
  split at h
  · rename_i j hj
    rw [hj, Option.some.inj h]
  · exact absurd h (by simp)

/-! ## One step -/

theorem runFrame_ok {f : List Word} {i : Instr} (h : decode f = .ok i) (s : State) : runFrame f s = exec i s := by
  simp only [runFrame, h]

theorem runFrame_error {f : List Word} {e : DecodeError} (h : decode f = .error e) (s : State) :
    runFrame f s = .next (illegalFrame s) := by
  simp only [runFrame, h]

theorem step_idle {s : State} (h : s.inbox = []) : step s = .next s := by
  simp only [step, h]

theorem step_submit {s : State} {f : List Word} {rest : List HostEvent} (h : s.inbox = .submit f :: rest) :
    step s = runFrame f { s with inbox := rest } := by
  simp only [step, h]

theorem step_readFb {s : State} {i : Nat} {rest : List HostEvent} (h : s.inbox = .readFb i :: rest) :
    step s = if i < fbLen s then .next { s with inbox := rest } else .refused .fbReadOutOfRange := by
  by_cases hi : i < fbLen s <;> simp [step, h, hostReadFb, hi]

theorem step_reset {s : State} {rest : List HostEvent} (h : s.inbox = .reset :: rest) :
    step s = .next (resetEvent { s with inbox := rest }) := by
  simp only [step, h]

/-- Settles O6: a step hands its frame to the decoder, and `withFetchWord` puts the table word's frame first. -/
theorem stepRunsDecoded : Obligations.StepRunsDecoded := by
  refine ⟨fun s f rest i hs hd => ?_, fun s nbits w i hd => ?_⟩
  · rw [step_submit hs, runFrame_ok hd]
  · rw [step_submit (s := s.withFetchWord nbits w) rfl, runFrame_ok (decodeTableWord_eq_some hd)]
    rfl

/-- Settles O17: the frame of every command, and `illegalFrame`, which keeps the Cursor. -/
theorem cursorDropped : Obligations.CursorDropped := by
  refine ⟨fun i s t hx => ?_, fun s f e hd => ?_⟩
  · exact ⟨(exec_frame hx).cursorDropped, (exec_frame hx).cursorKept⟩
  · exact ⟨illegalFrame s, runFrame_error hd s, rfl⟩

end Sys2Proof.Machine
end

section
/-! SUPPORT. The invariants of the core (R51, R72): what they say of the reset state, and the changes of a state that
keep them, whatever command makes the change. -/

namespace Sys2Proof.Machine

/-! ## The commands that write no settings -/

/-- INIT, SELECT_MODE, SET_ZOOM, SET_CONTRAST and SET_AMPM_LABELS: the commands that write the panel, the mode, the
contrast or the labels. -/
def isSetting : Instr → Bool
  | .init _ => true
  | .selectMode _ => true
  | .setZoom _ => true
  | .setContrast _ => true
  | .setAmpmLabels _ _ => true
  | _ => false

/-- A command that writes no settings keeps all of them. -/
theorem Frame.settings {i : Instr} {s t : State} (hf : Frame i s t) (hi : isSetting i = false) :
    (t.init = s.init ∧ t.hw = s.hw) ∧
    (t.modeValid = s.modeValid ∧ t.modeId = s.modeId ∧ t.zoomed = s.zoomed ∧ t.baseModeId = s.baseModeId) ∧
    (t.amLabel = s.amLabel ∧ t.pmLabel = s.pmLabel) ∧ t.contrast = s.contrast := by
  have ne : ∀ j, isSetting j = true → i ≠ j := fun j hj hij => by simp [← hij, hi] at hj
  exact ⟨hf.panel fun _ => ne _ rfl, hf.mode (fun _ => ne _ rfl) (fun _ => ne _ rfl) (fun _ => ne _ rfl),
    hf.labels fun _ _ => ne _ rfl, hf.contrast fun _ => ne _ rfl⟩

/-- A command that writes no settings succeeds on an initialized core only (R305). -/
theorem Succeeds.initialized {i : Instr} {s t : State} (h : Succeeds i s t) (hi : isSetting i = false) :
    s.init = true := by
  cases i with
  | init _ | selectMode _ | setZoom _ | setContrast _ | setAmpmLabels _ _ => exact absurd hi (by simp [isSetting])
  | _ => exact h.1

/-! ## What the invariants give -/

theorem Invariant.goodCanvas {s : State} (h : Invariant s) : GoodCanvas s := ⟨h.fbCanonical, h.onlyVisibleInk⟩

theorem Invariant.romLegal {s : State} (h : Invariant s) : RomLegal s.cfg.rom := (configLegal_parts h.configLegal).rom

/-! ## Labels (R43) -/

theorem labelWidth_map_fst (l : List (GlyphCode × Nat)) : labelWidth (l.map Prod.fst) = textWidth l := by
  induction l with
  | nil => rfl
  | cons g l ih => simpa [labelWidth, textWidth] using ih

/-- A decoded string is no wider than its limit (R154). -/
theorem labelWidth_decodeCodes_le (m : CharMap) (bytes : List Byte) (limit : Nat) (k : Option FontKind) :
    labelWidth (decodeCodes m bytes limit k) ≤ limit := by
  have h := textWidth_le m limit k bytes.length bytes 0 (Nat.zero_le _)
  rw [decodeCodes, labelWidth_map_fst]
  simpa [decodeText] using h

/-! ## Reset (R351, R352) -/

theorem resetState_invariant {c : Config} (hc : configLegal c = true) : Invariant (resetState c) where
  configLegal := hc
  fbCanonical := rfl
  fbInside := fun _ h => nomatch h
  panelLegal := fun h => nomatch h
  activeMode := fun h => nomatch h
  zoom := fun h => nomatch h
  cursor := fun h => nomatch h
  contrast := by show (50 : BitVec 7).toNat ≤ 100; decide
  amLabel := labelWidth_decodeCodes_le _ _ _ _
  pmLabel := labelWidth_decodeCodes_le _ _ _ _
  onlyVisibleInk := (GoodCanvas.empty (s := resetState c) rfl).2

/-- Settles O10: the implementation's configuration is legal, and the reset state of every legal one keeps the
invariants. -/
theorem resetInvariant : Obligations.ResetInvariant := resetState_invariant params_legal

/-! ## Changes that keep the invariants -/

/-- The inbox is no part of the invariants. -/
theorem Invariant.withInbox {s : State} (h : Invariant s) (events : List HostEvent) :
    Invariant { s with inbox := events } := { h with }

theorem Invariant.failed {s : State} (h : Invariant s) (code : BitVec 8) : Invariant (failed s code) :=
  { h with cursor := fun hv => nomatch hv }

theorem Invariant.failedKeepingCursor {s : State} (h : Invariant s) (code : BitVec 8) :
    Invariant (failedKeepingCursor s code) := { h with }

/-- A failed command (R300). -/
theorem Invariant.fails {i : Instr} {s t : State} (h : Invariant s) (hf : Fails i s t) : Invariant t := by
  obtain ⟨e, -, rfl⟩ := hf
  split
  · exact h.failedKeepingCursor _
  · exact h.failed _

/-- A command that ends with the screen as it was and the Cursor dropped. -/
theorem Invariant.drawnSame {s : State} (h : Invariant s) : Invariant (drawn s s.fb) :=
  { h with cursor := fun hv => nomatch hv }

/-- A switch to a mode of the table, over a cleared screen (R288, R289). -/
theorem Invariant.switched {s : State} (h : Invariant s) (hi : s.init = true) {valid zoomed : Bool} {id base : BitVec 8}
    {r : BitVec 32} (hm : ∃ m, mode? s.cfg id = some m)
    (hz : zoomed = true → valid = true ∧ id ≠ base ∧ ∃ m, mode? s.cfg base = some m ∧ m.zoomTarget = some id) :
    Invariant { drawn s [] with
      modeValid := valid, modeId := id, zoomed := zoomed, baseModeId := base, small12 := false, result := r } :=
  { h with
    fbCanonical := rfl
    fbInside := fun _ hc => nomatch hc
    activeMode := fun _ => ⟨hi, hm⟩
    zoom := hz
    cursor := fun hv => nomatch hv
    onlyVisibleInk := (GoodCanvas.empty (s := drawn s []) rfl).2 }

/-- A command that writes no settings on an initialized core, and leaves a good canvas and a consistent Cursor. -/
theorem Invariant.redrawn {i : Instr} {s t : State} (h : Invariant s) (hf : Frame i s t) (hi : isSetting i = false)
    (hinit : s.init = true) (hg : GoodCanvas t) (hc : CursorConsistent t) : Invariant t := by
  obtain ⟨⟨hinit', hhw⟩, ⟨hvalid, hid, hzoomed, hbase⟩, ⟨ham, hpm⟩, hcontrast⟩ := hf.settings hi
  refine ⟨by rw [hf.cfg]; exact h.configLegal, hg.1, ?_, by rw [hinit', hhw]; exact h.panelLegal, ?_, ?_, hc,
    by rw [hcontrast]; exact h.contrast, by rw [ham, hf.cfg]; exact h.amLabel, by rw [hpm, hf.cfg]; exact h.pmLabel,
    hg.2⟩
  · rw [fbLen, if_pos (hinit'.trans hinit)]
    exact hg.inside
  · rw [ActiveModeDefined, hvalid, hinit', hf.cfg, hid]
    exact h.activeMode
  · rw [ZoomConsistent, hzoomed, hvalid, hid, hbase, hf.cfg]
    exact h.zoom

end Sys2Proof.Machine
end

section
/-! SUPPORT. Every command keeps the invariants of the core (R51, R72). The settings one by one; the blitter commands
as a run of columns at a consistent Cursor; every other command by its good canvas. -/

namespace Sys2Proof.Machine

/-! ## The settings -/

/-- A command that drops the Cursor keeps the invariants when its success does. -/
theorem endCommand_invariant {s : State} {r : Result State} (h : Invariant s)
    (hr : ∀ u, r = .ok u → Invariant (endCommand s (.ok u))) : Invariant (endCommand s r) := by
  cases r with
  | error e => exact h.failed _
  | ok u => exact hr u rfl

theorem needInit_ok {s u : State} {body : State → Result State} (h : needInit s body = .ok u) :
    s.init = true ∧ body (beginCommand s) = .ok u := by
  unfold needInit at h
  split at h
  · exact absurd h (by simp)
  · rename_i hi
    exact ⟨by simpa using hi, h⟩

theorem initBody_ok {id : BitVec 8} {s u : State} (h : initBody id s = .ok u) :
    ∃ p, profile? s.cfg id = some p ∧
      u = { s with init := true, hw := p, fb := [], modeValid := false, zoomed := false, small12 := false } := by
  unfold initBody at h
  split at h
  · exact absurd h (by simp)
  · split at h
    · exact absurd h (by simp)
    · rename_i p hp
      exact ⟨p, hp, (Except.ok.inj h).symm⟩

theorem contrastBody_ok {level : BitVec 8} {s u : State} (h : contrastBody level s = .ok u) :
    level.toNat ≤ 100 ∧ u = { s with contrast := level.setWidth 7 } := by
  unfold contrastBody at h
  split at h
  · exact absurd h (by simp)
  · exact ⟨by omega, (Except.ok.inj h).symm⟩

/-- INIT selects a legal panel, clears the screen and drops the mode (R286). -/
theorem init_invariant {id : BitVec 8} {s t : State} (h : Invariant s) (hx : exec (.init id) s = .next t) :
    Invariant t := by
  obtain rfl := Host.Outcome.next.inj hx
  refine endCommand_invariant h fun u hu => ?_
  obtain ⟨p, hp, rfl⟩ := initBody_ok hu
  exact { h with
    fbCanonical := rfl
    fbInside := fun _ hc => nomatch hc
    panelLegal := fun _ => profileLegal_of_profile h.configLegal hp
    activeMode := fun hv => nomatch hv
    zoom := fun hz => nomatch hz
    cursor := fun hv => nomatch hv
    onlyVisibleInk := (GoodCanvas.empty rfl).2 }

/-- SELECT_MODE switches to a mode of the table, not zoomed (R288). -/
theorem selectMode_invariant {id : BitVec 8} {s t : State} (h : Invariant s)
    (hx : exec (.selectMode id) s = .next t) : Invariant t := by
  simp only [exec, execSelectMode] at hx
  split at hx
  · obtain rfl := Host.Outcome.next.inj hx
    exact h.failed _
  · rename_i hi
    split at hx <;> obtain rfl := Host.Outcome.next.inj hx
    · exact h.failed _
    · rename_i m hm
      exact h.switched (by simpa using hi) ⟨m, hm⟩ (fun hz => nomatch hz)

theorem keepMode_invariant {s t : State} {m : DisplayMode} (h : Invariant s) (hx : keepMode s m = .next t) :
    Invariant t := by
  obtain rfl := Host.Outcome.next.inj hx
  exact { h.drawnSame with }

/-- Zooming in switches to the zoom target, which is another mode of the table (R10, R289). -/
theorem zoomOn_invariant {s t : State} {m : DisplayMode} (h : Invariant s) (hi : s.init = true)
    (hv : s.modeValid = true) (hm : mode? s.cfg s.modeId = some m) (hx : zoomOn s m = .next t) : Invariant t := by
  unfold zoomOn at hx
  split at hx
  · exact keepMode_invariant h hx
  · rename_i target htarget
    have hzt : m.zoomTarget = some target := by
      split at htarget
      · exact absurd htarget (by simp)
      · exact htarget
    split at hx
    · exact absurd hx (by simp)
    · rename_i m' hm'
      obtain rfl := Host.Outcome.next.inj hx
      obtain ⟨hne, -⟩ := zoomTarget_defined h.configLegal hm hzt
      exact h.switched hi ⟨m', hm'⟩ fun _ => ⟨hv, hne, m, hm, hzt⟩

/-- Zooming out switches back to the base mode (R289). -/
theorem zoomOff_invariant {s t : State} {m : DisplayMode} (h : Invariant s) (hi : s.init = true)
    (hx : zoomOff s m = .next t) : Invariant t := by
  unfold zoomOff at hx
  split at hx
  · exact keepMode_invariant h hx
  · split at hx
    · exact absurd hx (by simp)
    · rename_i m' hm'
      obtain rfl := Host.Outcome.next.inj hx
      exact h.switched hi ⟨m', hm'⟩ (fun hz => nomatch hz)

theorem setZoom_invariant {on : Bool} {s t : State} (h : Invariant s) (hx : exec (.setZoom on) s = .next t) :
    Invariant t := by
  simp only [exec, execSetZoom] at hx
  split at hx
  · obtain rfl := Host.Outcome.next.inj hx
    exact h.failed _
  · rename_i hiv
    obtain ⟨hi, hv⟩ : s.init = true ∧ s.modeValid = true := by simpa using hiv
    split at hx
    · exact absurd hx (by simp)
    · rename_i m hm
      split at hx
      · exact zoomOn_invariant h hi hv hm hx
      · exact zoomOff_invariant h hi hx

/-- SET_CONTRAST keeps the contrast at most 100 (R293). -/
theorem setContrast_invariant {level : BitVec 8} {s t : State} (h : Invariant s)
    (hx : exec (.setContrast level) s = .next t) : Invariant t := by
  obtain rfl := Host.Outcome.next.inj hx
  refine endCommand_invariant h fun u hu => ?_
  obtain ⟨hlevel, rfl⟩ := contrastBody_ok (needInit_ok hu).2
  refine { h.drawnSame with contrast := ?_ }
  show (level.setWidth 7).toNat ≤ 100
  rw [BitVec.toNat_setWidth]
  exact (Nat.mod_le _ _).trans hlevel

/-- SET_AMPM_LABELS cuts both labels to AMPM_CAP cells (R262). -/
theorem setAmpmLabels_invariant {am pm : List Byte} {s t : State} (h : Invariant s)
    (hx : exec (.setAmpmLabels am pm) s = .next t) : Invariant t := by
  obtain rfl := Host.Outcome.next.inj hx
  exact { h.drawnSame with
    amLabel := labelWidth_decodeCodes_le _ _ _ _
    pmLabel := labelWidth_decodeCodes_le _ _ _ _ }

/-! ## The blitter commands -/

theorem cursorAt_consistent {s : State} {h c r : Nat} (hs : s.cur = cursorAt s.hw h c r) (hi : s.init = true)
    (h1 : 1 ≤ h) (h32 : h ≤ 32) (hc : c ≤ 1024) (hr : r ≤ 255) : CursorConsistent s := by
  intro _
  rw [hs]
  exact ⟨hi, h1, h32, Nat.mul_mod_right 8 _, hc, hr, rfl⟩

/-- A legal panel has at most 1024 visible columns (R9), which the Cursor's column can count (R40). -/
theorem wVis_le {hw : HardwareProfile} (h : profileLegal hw = true) : wVis hw ≤ 1024 := by
  simp only [profileLegal, Bool.and_eq_true, decide_eq_true_eq] at h
  unfold wVis
  omega

/-- A run of blits keeps the Cursor consistent: it advances it inside the visible columns (R133, R137). -/
theorem Blitted.cursorConsistent {s t : State} {vs : List Column} (h : Invariant s) (hb : Blitted s t vs)
    (hfit : vs = [] ∨ s.cur.heightPx = 0 ∨
      (s.cur.column + vs.length ≤ wVis s.hw ∧ s.cur.rowPx + s.cur.heightPx ≤ s.hw.heightPx)) : CursorConsistent t := by
  intro hv
  rw [hb.cur, advance_valid] at hv
  obtain ⟨hi, h1, h32, -, hc, hr, hat⟩ := h.cursor hv
  have hcol : s.cur.column + vs.length ≤ 1024 := by
    have hw := wVis_le (h.panelLegal hi)
    rcases hfit with rfl | h0 | ⟨hfit, -⟩
    · simpa using hc
    · omega
    · omega
  refine cursorAt_consistent ?_ (hb.canvas.init_of hi) h1 h32 hcol hr (by rw [hb.cur]; exact hv)
  rw [hb.cur, hb.canvas.hw_eq, ← advance_cursorAt, ← hat]

theorem blit_eq_blitAll (v : Column) (s : State) : blit v s = blitAll [v] s := by
  simp only [blitAll]
  cases blit v s <;> rfl

/-- The end of a blitter command that drew a run of columns. -/
theorem blitAll_invariant {i : Instr} {vs : List Column} {s t : State} (h : Invariant s) (hf : Frame i s t)
    (hset : isSetting i = false) (hi : s.init = true) (hd : blitAll vs (beginCommand s) = .ok t) : Invariant t := by
  have hs : Invariant (beginCommand s) := { h with }
  obtain ⟨hb, -, hfit⟩ := blitAll_ok (s := beginCommand s) h.fbCanonical hd
  exact h.redrawn hf hset hi (blitAll_good hs.goodCanvas hd) (hb.cursorConsistent hs hfit)

theorem setPosition_invariant {height : BitVec 6} {column : BitVec 10} {row : BitVec 8} {s t : State}
    (h : Invariant s) (hx : exec (.setPosition height column row) s = .next t) : Invariant t := by
  have hf := exec_frame hx
  obtain rfl := Host.Outcome.next.inj hx
  rcases setpos_cases height.toNat column.toNat row.toNat (beginCommand s) with
    ⟨-, he⟩ | ⟨-, -, he⟩ | ⟨hi, h1, h32, he⟩ <;> rw [he] at hf ⊢
  · exact h.failedKeepingCursor _
  · exact h.failedKeepingCursor _
  · exact h.redrawn hf rfl hi (h.goodCanvas.congr rfl rfl rfl)
      (cursorAt_consistent rfl hi h1 h32 column.isLt.le (by have := row.isLt; omega))

/-- A blitter command that needs INIT and draws a run of columns keeps the invariants. -/
theorem blitter_invariant {i : Instr} {vs : List Column} {s t : State} {body : State → Result State} (h : Invariant s)
    (hset : isSetting i = false) (hbody : body (beginCommand s) = blitAll vs (beginCommand s))
    (he : exec i s = .next (endBlitter s (needInit s body))) (hx : exec i s = .next t) : Invariant t := by
  have hf := exec_frame hx
  obtain rfl := Host.Outcome.next.inj (he.symm.trans hx)
  cases hr : needInit s body with
  | error e => exact h.failedKeepingCursor _
  | ok u =>
    rw [hr] at hf
    obtain ⟨hi, hd⟩ := needInit_ok hr
    exact blitAll_invariant h hf hset hi (hbody.symm.trans hd)

theorem blitColumn_invariant {v : Word} {s t : State} (h : Invariant s) (hx : exec (.blitColumn v) s = .next t) :
    Invariant t :=
  blitter_invariant h rfl (blit_eq_blitAll v _) rfl hx

theorem drawBlankColumns_invariant {n : BitVec 16} {inverted : Bool} {s t : State} (h : Invariant s)
    (hx : exec (.drawBlankColumns n inverted) s = .next t) : Invariant t :=
  blitter_invariant h rfl (blankColumns_eq n.toNat inverted (beginCommand s) h.fbCanonical) rfl hx

/-! ## The drawing commands -/

theorem screenBody_good {cx cy : Nat} {on : Bool} {cw : Nat} {lines : List ScreenLine} {m : DisplayMode} {s t : State}
    (hr : RomLegal s.cfg.rom) (hi : s.init = true) (h : GoodCanvas s) (hd : screenBody cx cy on cw lines m s = .ok t) :
    GoodCanvas t := by
  unfold screenBody at hd
  split at hd
  · exact absurd hd (by simp)
  · split at hd
    · exact absurd hd (by simp)
    · rename_i u hu
      obtain rfl := Except.ok.inj hd
      exact screenRows_good hr hi h hu
    · rename_i u e hu
      obtain rfl := Except.ok.inj hd
      exact (screenRows_good hr hi h hu).congr rfl rfl rfl

theorem clockBody_good {hours minutes seconds : BitVec 8} {is12h on : Bool} {ah am : BitVec 8} {date : List Byte}
    {m : DisplayMode} {s t : State} (hr : RomLegal s.cfg.rom)
    (hd : clockBody hours minutes seconds is12h on ah am date m s = .ok t) : GoodCanvas t := by
  rw [clockBody_eq hr] at hd
  split at hd
  · exact absurd hd (by simp)
  · split at hd
    · exact absurd hd (by simp)
    · exact drawPieces_good (GoodCanvas.empty rfl) hd

theorem smallClockBody_good {hours minutes : BitVec 8} {is12h : Bool} {m : DisplayMode} {s t : State}
    (hr : RomLegal s.cfg.rom) (h : GoodCanvas s) (hd : smallClockBody hours minutes is12h m s = .ok t) :
    GoodCanvas t := by
  rw [smallClockBody_eq h.1 hr] at hd
  split at hd
  · exact absurd hd (by simp)
  · split at hd
    · exact absurd hd (by simp)
    · rename_i p _
      cases hp : drawPieces (smallClockPieces s m p hours.toNat minutes.toNat is12h) s with
      | error e => rw [hp] at hd; exact absurd hd (by simp [Except.bind])
      | ok u =>
        rw [hp] at hd
        obtain rfl := Except.ok.inj hd
        exact (drawPieces_good h hp).congr rfl rfl rfl

theorem iconsBody_good {mask : Word} {m : DisplayMode} {s t : State} (h : GoodCanvas s)
    (hd : iconsBody mask m s = .ok t) : GoodCanvas t := by
  unfold iconsBody at hd
  split at hd
  · exact absurd hd (by simp)
  · rw [iconRender_eq h.1] at hd
    exact drawPieces_good h hd

theorem signalBody_good {level : Int} {m : DisplayMode} {s t : State} (h : GoodCanvas s)
    (hd : signalBody level m s = .ok t) : GoodCanvas t := by
  rw [signalBody_eq h.1] at hd
  split at hd
  · exact absurd hd (by simp)
  · split at hd
    · exact absurd hd (by simp)
    · exact drawPieces_good h hd

/-- A bitmap paints visible pixels only (R296). -/
theorem bitmapBody_good {left top width height : Word} {bytes : List Byte} {s t : State} (h : GoodCanvas s)
    (hd : bitmapBody left top width height bytes s = .ok t) : GoodCanvas t := by
  unfold bitmapBody at hd
  split at hd
  · obtain rfl := Except.ok.inj hd
    exact h
  · split at hd
    · exact absurd hd (by simp)
    · rename_i hin
      obtain rfl := Except.ok.inj hd
      have hv : ∀ k j, 0 ≤ k → k < 0 + width.toNat → j < height.toNat →
          visible s.hw (left.toNat + k) (top.toNat + j) = true := fun k j _ hk hj => by
        simp only [outsideVisible, Bool.or_eq_true, decide_eq_true_eq, not_or] at hin
        rw [visible_iff]
        omega
      exact h.of_painted (bitmapColumns_painted h.1 hv) (bitmapColumns_wf h.1) (bitmapColumns_canvas ..)

/-- Ending a command keeps a good canvas when its body does. -/
theorem endCommand_good {s : State} {r : Result State} (h : GoodCanvas s) (hr : ∀ u, r = .ok u → GoodCanvas u) :
    GoodCanvas (endCommand s r) := by
  cases r with
  | error e => exact h.congr rfl rfl rfl
  | ok u => exact (hr u rfl).congr rfl rfl rfl

theorem withMode_good {s t : State} {body : DisplayMode → State → Result State} (h : GoodCanvas s)
    (hbody : ∀ m u, s.init = true → body m (beginCommand s) = .ok u → GoodCanvas u) (hx : withMode s body = .next t) :
    GoodCanvas t := by
  rcases withMode_next hx with rfl | ⟨m, hi, -, -, rfl⟩
  · exact h.congr rfl rfl rfl
  · exact endCommand_good h fun u hu => hbody m u hi hu

/-- A command that is no setting and no blitter command leaves a good canvas (R72, R86). -/
theorem exec_good {i : Instr} {s t : State} (h : Invariant s) (hset : isSetting i = false) (hb : isBlitter i = false)
    (hx : exec i s = .next t) : GoodCanvas t := by
  have hg : GoodCanvas (beginCommand s) := h.goodCanvas.congr rfl rfl rfl
  have hr : RomLegal (beginCommand s).cfg.rom := h.romLegal
  cases i with
  | init _ | selectMode _ | setZoom _ | setContrast _ | setAmpmLabels _ _ => exact absurd hset (by simp [isSetting])
  | setPosition _ _ _ | blitColumn _ | drawBlankColumns _ _ => exact absurd hb (by simp [isBlitter])
  | drawLine _ _ _ _ _ _ _ => exact withMode_good h.goodCanvas (fun _ _ _ hd => lineRender_good hr hg hd) hx
  | drawScreen _ _ _ _ _ => exact withMode_good h.goodCanvas (fun _ _ hi hd => screenBody_good hr hi hg hd) hx
  | drawBarcode _ _ => exact withMode_good h.goodCanvas (fun _ _ _ hd => barcodeRender_good hg hd) hx
  | drawClock _ _ _ _ _ _ _ _ => exact withMode_good h.goodCanvas (fun _ _ _ hd => clockBody_good hr hd) hx
  | drawSmallClock _ _ _ =>
    exact withMode_good h.goodCanvas (fun _ _ _ hd => smallClockBody_good hr hg hd) hx
  | drawIcons _ => exact withMode_good h.goodCanvas (fun _ _ _ hd => iconsBody_good hg hd) hx
  | drawSignalStrength _ => exact withMode_good h.goodCanvas (fun _ _ _ hd => signalBody_good hg hd) hx
  | grabScreenRegion _ _ _ _ =>
    have hf := exec_frame hx
    exact h.goodCanvas.congr (hf.fb (by simp)) (hf.panel (by simp)).2 hf.cfg
  | drawBitmap _ _ _ _ _ =>
    obtain rfl := Host.Outcome.next.inj hx
    exact endCommand_good h.goodCanvas fun u hu => bitmapBody_good hg (needInit_ok hu).2

/-- A command that is no setting and no blitter command keeps the invariants. -/
theorem drawing_invariant {i : Instr} {s t : State} (h : Invariant s) (hset : isSetting i = false)
    (hb : isBlitter i = false) (hx : exec i s = .next t) : Invariant t := by
  rcases exec_next hx with hf | hs
  · exact h.fails hf
  · refine h.redrawn hs.frame hset (hs.initialized hset) (exec_good h hset hb hx) fun hv => ?_
    exact absurd hv (by simp [hs.frame.cursorDropped hb])

/-! ## Every command and every step -/

theorem exec_invariant {i : Instr} {s t : State} (h : Invariant s) (hx : exec i s = .next t) : Invariant t := by
  cases i with
  | init _ => exact init_invariant h hx
  | selectMode _ => exact selectMode_invariant h hx
  | setZoom _ => exact setZoom_invariant h hx
  | setContrast _ => exact setContrast_invariant h hx
  | setAmpmLabels _ _ => exact setAmpmLabels_invariant h hx
  | setPosition _ _ _ => exact setPosition_invariant h hx
  | blitColumn _ => exact blitColumn_invariant h hx
  | drawBlankColumns _ _ => exact drawBlankColumns_invariant h hx
  | _ => exact drawing_invariant h rfl rfl hx

/-- Settles O11: a step without an event keeps the state, a frame runs one command or is illegal, a host read changes
nothing, and the reset state keeps the invariants under every legal configuration. -/
theorem stepKeepsInvariant : Obligations.StepKeepsInvariant := by
  intro s t h hx
  match hs : s.inbox with
  | [] =>
    rw [step_idle hs] at hx
    exact Host.Outcome.next.inj hx ▸ h
  | .submit f :: rest =>
    rw [step_submit hs] at hx
    cases hd : decode f with
    | ok i =>
      rw [runFrame_ok hd] at hx
      exact exec_invariant (h.withInbox rest) hx
    | error e =>
      rw [runFrame_error hd] at hx
      exact Host.Outcome.next.inj hx ▸ (h.withInbox rest).failedKeepingCursor 0x10
  | .readFb i :: rest =>
    rw [step_readFb hs] at hx
    split at hx
    · exact Host.Outcome.next.inj hx ▸ h.withInbox rest
    · exact absurd hx (by simp)
  | .reset :: rest =>
    rw [step_reset hs] at hx
    exact Host.Outcome.next.inj hx ▸ (resetState_invariant h.configLegal).withInbox rest

/-- Settles O12: `exec_exists` for a frame that decodes, and the frame of the command for what it keeps. -/
theorem stepProgress : Obligations.StepProgress := by
  intro s h hread
  match hs : s.inbox with
  | [] => exact ⟨s, step_idle hs, hs, rfl⟩
  | .submit f :: rest =>
    rw [step_submit hs]
    cases hd : decode f with
    | ok i =>
      obtain ⟨t, ht⟩ := exec_exists i (h.withInbox rest)
      exact ⟨t, (runFrame_ok hd _).trans ht, (exec_frame ht).inbox, (exec_frame ht).cfg⟩
    | error e => exact ⟨_, runFrame_error hd _, rfl, rfl⟩
  | .readFb i :: rest =>
    rw [step_readFb hs, if_pos (hread i (by rw [hs]; rfl))]
    exact ⟨_, rfl, rfl, rfl⟩
  | .reset :: rest => exact ⟨_, step_reset hs, rfl, rfl⟩

end Sys2Proof.Machine
end

section
/-! SUPPORT. The host's events (R79, R314, R350) and the place of every visible pixel (R75). -/

namespace Sys2Proof.Machine

/-- Settles O8, one equation of `step` per event. -/
theorem hostEvents : Obligations.HostEvents := by
  refine fun s rest => ⟨fun i hs hi => ?_, fun i hs hi => ?_, fun hs => step_reset hs, fun hs => step_idle hs⟩
  · rw [step_readFb hs, if_pos hi]
  · rw [step_readFb hs, if_neg (Nat.not_lt.2 hi)]

/-- Settles O27: a visible pixel's page lies in its column of the FrameBuffer, and index and bit give back column,
page and row. -/
theorem visiblePixels : Obligations.VisiblePixels := by
  intro o hw c y hv
  refine ⟨pixIndex_lt_fbSize hv, pixBit_lt o hw y, fun c' y' hv' hat => ?_⟩
  obtain ⟨hindex, hbit⟩ := Prod.mk.inj hat
  exact pixel_inj hv hv' hindex hbit

end Sys2Proof.Machine
end

section
/-! SUPPORT. No command reads the transmit-side fields or the contrast (R76): `forTransmit`, which sets them to one
value each, commutes with every operation that writes none of them. One equation per operation, from the pixel up to
the command; INIT and SET_CONTRAST, which write them, agree after it. -/

namespace Sys2Proof.Machine

/-! ## What `forTransmit` keeps -/

section
variable (s : State)

@[simp] theorem forTransmit_cfg : (forTransmit s).cfg = s.cfg := rfl
@[simp] theorem forTransmit_init : (forTransmit s).init = s.init := rfl
@[simp] theorem forTransmit_modeValid : (forTransmit s).modeValid = s.modeValid := rfl
@[simp] theorem forTransmit_modeId : (forTransmit s).modeId = s.modeId := rfl
@[simp] theorem forTransmit_zoomed : (forTransmit s).zoomed = s.zoomed := rfl
@[simp] theorem forTransmit_baseModeId : (forTransmit s).baseModeId = s.baseModeId := rfl
@[simp] theorem forTransmit_cur : (forTransmit s).cur = s.cur := rfl
@[simp] theorem forTransmit_small12 : (forTransmit s).small12 = s.small12 := rfl
@[simp] theorem wVis_forTransmit : wVis (forTransmit s).hw = wVis s.hw := rfl
@[simp] theorem visible_forTransmit (c y : Nat) : visible (forTransmit s).hw c y = visible s.hw c y := rfl
@[simp] theorem outsideVisible_forTransmit (left top width height : Nat) :
    outsideVisible (forTransmit s).hw left top width height = outsideVisible s.hw left top width height := rfl
@[simp] theorem forTransmit_forTransmit : forTransmit (forTransmit s) = forTransmit s := rfl

end

/-! ## Sequencing -/

/-- A body in two parts commutes with a map when both parts do. -/
theorem bind_eq_map {α β : Type} {a : α → α} {b : β → β} {r r' : Result α} {f f' : α → Result β} (h : r' = r.map a)
    (hf : ∀ t, f' (a t) = (f t).map b) : (r' >>= f') = (r >>= f).map b := by
  subst h
  cases r with
  | error e => rfl
  | ok t => exact hf t

/-! ## The blitter -/

theorem pixWrite_forTransmit (c y : Nat) (b : Bool) (s : State) :
    pixWrite c y b (forTransmit s) = forTransmit (pixWrite c y b s) := rfl

theorem writeRows_forTransmit (c r h : Nat) (v : Column) (n j : Nat) (s : State) :
    writeRows c r h v n j (forTransmit s) = forTransmit (writeRows c r h v n j s) := by
  induction n generalizing j s with
  | zero => rfl
  | succ n ih => simp only [writeRows, pixWrite_forTransmit, ih]

theorem setpos_forTransmit (h c r : Nat) (s : State) :
    setpos h c r (forTransmit s) = (setpos h c r s).map forTransmit := by
  unfold setpos
  rw [forTransmit_init]
  split
  · rfl
  · split <;> rfl

theorem blit_forTransmit (v : Column) (s : State) : blit v (forTransmit s) = (blit v s).map forTransmit := by
  unfold blit
  simp only [forTransmit_cur, visible_forTransmit, writeRows_forTransmit]
  split
  · rfl
  · split <;> rfl

theorem blitAll_forTransmit (vs : List Column) (s : State) :
    blitAll vs (forTransmit s) = (blitAll vs s).map forTransmit := by
  induction vs generalizing s with
  | nil => rfl
  | cons v vs ih =>
    simp only [blitAll, blit_forTransmit]
    cases blit v s with
    | error e => rfl
    | ok t => exact ih t

theorem blankColumns_forTransmit (n : Nat) (inverted : Bool) (s : State) :
    blankColumns n inverted (forTransmit s) = (blankColumns n inverted s).map forTransmit := by
  induction n generalizing s with
  | zero => rfl
  | succ n ih =>
    simp only [blankColumns, forTransmit_cur, blit_forTransmit]
    cases blit (blankColumn inverted s.cur.heightPx) s with
    | error e => rfl
    | ok t => exact ih t

/-! ## Text lines, barcodes and screens -/

theorem arrowCell_forTransmit (m : DisplayMode) (side : Side) (flag invert : Bool) (s : State) :
    arrowCell m side flag invert (forTransmit s) = (arrowCell m side flag invert s).map forTransmit := by
  unfold arrowCell
  split
  · rfl
  · split
    · exact blitAll_forTransmit _ _
    · exact blankColumns_forTransmit _ _ _

theorem lineRender_forTransmit (m : DisplayMode) (row : Nat) (text : List Byte) (cc cw : Nat)
    (invert arrowLeft arrowRight : Bool) (s : State) :
    lineRender m row text cc cw invert arrowLeft arrowRight (forTransmit s) =
      (lineRender m row text cc cw invert arrowLeft arrowRight s).map forTransmit := by
  unfold lineRender
  split
  · rfl
  · simp only []
    split
    · rfl
    · exact bind_eq_map (setpos_forTransmit _ _ _ _) fun t =>
        bind_eq_map (arrowCell_forTransmit _ _ _ _ _) fun t =>
        bind_eq_map (blankColumns_forTransmit _ _ _) fun t =>
        bind_eq_map (blitAll_forTransmit _ _) fun t =>
        bind_eq_map (blankColumns_forTransmit _ _ _) fun t =>
        arrowCell_forTransmit _ _ _ _ _

theorem barcodeRender_forTransmit (m : DisplayMode) (row : Nat) (hex : List Byte) (s : State) :
    barcodeRender m row hex (forTransmit s) = (barcodeRender m row hex s).map forTransmit := by
  unfold barcodeRender
  split
  · rfl
  · cases barcodeData hex with
    | error e => rfl
    | ok patterns =>
      simp only []
      rw [forTransmit_cfg, wVis_forTransmit]
      split
      · rfl
      · exact bind_eq_map (setpos_forTransmit _ _ _ _) fun t =>
          bind_eq_map (blankColumns_forTransmit _ _ _) fun t =>
          bind_eq_map (blitAll_forTransmit _ _) fun t =>
          blankColumns_forTransmit _ _ _

theorem screenRow_forTransmit (m : DisplayMode) (cx cy : Nat) (on : Bool) (cw : Nat) (line : ScreenLine) (r : Nat)
    (s : State) :
    screenRow m cx cy on cw line r (forTransmit s) = (screenRow m cx cy on cw line r s).map forTransmit := by
  unfold screenRow
  cases line.kind with
  | text | invertedText => exact lineRender_forTransmit _ _ _ _ _ _ _ _ _
  | barcode => exact barcodeRender_forTransmit _ _ _ _

theorem screenRows_forTransmit (m : DisplayMode) (cx cy : Nat) (on : Bool) (cw : Nat) (lines : List ScreenLine)
    (rows : List Nat) (s : State) (first : Option ErrorKind) :
    screenRows m cx cy on cw lines rows (forTransmit s) first =
      (screenRows m cx cy on cw lines rows s first).map (Prod.map forTransmit id) := by
  induction rows generalizing s first with
  | nil => rfl
  | cons r rows ih =>
    simp only [screenRows, screenRow_forTransmit]
    cases screenRow m cx cy on cw (screenLine lines r) r s with
    | ok t => exact ih t first
    | error e =>
      simp only [Except.map]
      split
      · exact ih s _
      · rfl

theorem screenBody_forTransmit (cx cy : Nat) (on : Bool) (cw : Nat) (lines : List ScreenLine) (m : DisplayMode)
    (s : State) :
    screenBody cx cy on cw lines m (forTransmit s) = (screenBody cx cy on cw lines m s).map forTransmit := by
  unfold screenBody
  rw [screenRows_forTransmit]
  split
  · rfl
  · match screenRows m cx cy on cw lines (List.range m.charRows) s none with
    | .error e => rfl
    | .ok (t, none) => rfl
    | .ok (t, some e) => rfl

/-! ## Icons and the signal glyph -/

theorem iconRender_forTransmit (m : DisplayMode) (mask : Word) (s : State) :
    iconRender m mask (forTransmit s) = (iconRender m mask s).map forTransmit := by
  unfold iconRender
  refine bind_eq_map (setpos_forTransmit _ _ _ _) fun t => bind_eq_map (blitAll_forTransmit _ _) fun u => ?_
  split
  · exact bind_eq_map (setpos_forTransmit _ _ _ _) fun v => blitAll_forTransmit _ _
  · rfl

theorem iconsBody_forTransmit (mask : Word) (m : DisplayMode) (s : State) :
    iconsBody mask m (forTransmit s) = (iconsBody mask m s).map forTransmit := by
  unfold iconsBody
  split
  · rfl
  · exact iconRender_forTransmit _ _ _

theorem signalBody_forTransmit (level : Int) (m : DisplayMode) (s : State) :
    signalBody level m (forTransmit s) = (signalBody level m s).map forTransmit := by
  unfold signalBody
  split
  · rfl
  · cases m.signalPos with
    | none => rfl
    | some p => exact bind_eq_map (setpos_forTransmit _ _ _ _) fun t => blitAll_forTransmit _ _

/-! ## Texts and clocks -/

/-- A text also answers the number of its columns, which is the same. -/
theorem drawItems_forTransmit (k : FontKind) (x : Nat) (items : List TextItem) (used : Nat) (s : State) :
    drawItems k x items used (forTransmit s) = (drawItems k x items used s).map (Prod.map forTransmit id) := by
  induction items generalizing used s with
  | nil => rfl
  | cons item items ih =>
    cases item with
    | blank =>
      simp only [drawItems]
      rw [wVis_forTransmit]
      split
      · rfl
      · exact bind_eq_map (blankColumns_forTransmit _ _ _) fun t => ih _ t
    | glyph g =>
      simp only [drawItems]
      rw [wVis_forTransmit]
      split
      · exact ih _ s
      · split
        · rfl
        · exact bind_eq_map (blitAll_forTransmit _ _) fun t => ih _ t

theorem drawText_forTransmit (k : FontKind) (x y : Nat) (items : List TextItem) (s : State) :
    drawText k x y items (forTransmit s) = (drawText k x y items s).map (Prod.map forTransmit id) :=
  bind_eq_map (setpos_forTransmit _ _ _ _) fun _ => drawItems_forTransmit _ _ _ _ _

theorem drawCodes_forTransmit (k : FontKind) (x y : Nat) (codes : List GlyphCode) (s : State) :
    drawCodes k x y codes (forTransmit s) = (drawCodes k x y codes s).map forTransmit :=
  bind_eq_map (drawText_forTransmit _ _ _ _ _) fun _ => rfl

theorem drawString_forTransmit (k : FontKind) (x y : Nat) (bytes : List Byte) (s : State) :
    drawString k x y bytes (forTransmit s) = (drawString k x y bytes s).map forTransmit :=
  drawCodes_forTransmit _ _ _ _ _

theorem drawElem_forTransmit (t : DigitTable) (e : TimeElem) (s : State) :
    drawElem t e (forTransmit s) = (drawElem t e s).map forTransmit := by
  cases e with
  | colon => exact blitAll_forTransmit _ _
  | blank => exact blankColumns_forTransmit _ _ _
  | digit d =>
    simp only [drawElem]
    split
    · exact blitAll_forTransmit _ _
    · exact blankColumns_forTransmit _ _ _

theorem drawElems_forTransmit (t : DigitTable) (es : List TimeElem) (s : State) :
    drawElems t es (forTransmit s) = (drawElems t es s).map forTransmit := by
  induction es generalizing s with
  | nil => rfl
  | cons e es ih => exact bind_eq_map (drawElem_forTransmit _ _ _) ih

theorem drawDigits_forTransmit (t : DigitTable) (x y : Nat) (es : List TimeElem) (s : State) :
    drawDigits t x y es (forTransmit s) = (drawDigits t x y es s).map forTransmit :=
  bind_eq_map (setpos_forTransmit _ _ _ _) fun _ => drawElems_forTransmit _ _ _

theorem drawClockIcon_forTransmit (icon : ClockIcon) (x y : Nat) (s : State) :
    drawClockIcon icon x y (forTransmit s) = (drawClockIcon icon x y s).map forTransmit :=
  bind_eq_map (setpos_forTransmit _ _ _ _) fun _ => blitAll_forTransmit _ _

theorem drawLabel_forTransmit (m : DisplayMode) (hours : Nat) (is12h : Bool) (s : State) :
    drawLabel m hours is12h (forTransmit s) = (drawLabel m hours is12h s).map forTransmit := by
  unfold drawLabel
  split
  · rfl
  · split
    · exact drawClockIcon_forTransmit _ _ _ _
    · exact drawCodes_forTransmit _ _ _ _ _

theorem drawAlarmRow_forTransmit (m : DisplayMode) (on : Bool) (s : State) :
    drawAlarmRow m on (forTransmit s) = (drawAlarmRow m on s).map forTransmit := by
  unfold drawAlarmRow
  split
  · rfl
  · exact iconRender_forTransmit _ _ _

theorem drawLayoutRest_forTransmit (m : DisplayMode) (alarm : List Byte) (on : Bool) (date : List Byte) (s : State) :
    drawLayoutRest m alarm on date (forTransmit s) = (drawLayoutRest m alarm on date s).map forTransmit := by
  unfold drawLayoutRest
  cases m.clockKind with
  | none => rfl
  | l0 =>
    simp only []
    split
    · exact drawString_forTransmit _ _ _ _ _
    · rfl
  | l1 =>
    simp only []
    rw [forTransmit_cfg]
    split
    · exact bind_eq_map (drawString_forTransmit _ _ _ _ _) fun t => drawAlarmRow_forTransmit _ _ _
    · exact drawAlarmRow_forTransmit _ _ _
  | l2 =>
    simp only []
    split
    · exact drawClockIcon_forTransmit _ _ _ _
    · rfl
  | l3 =>
    simp only []
    split
    · exact drawString_forTransmit _ _ _ _ _
    · rfl
  | l4 => exact drawAlarmRow_forTransmit _ _ _

theorem clockBody_forTransmit (hours minutes seconds : BitVec 8) (is12h on : Bool) (ah am : BitVec 8)
    (date : List Byte) (m : DisplayMode) (s : State) :
    clockBody hours minutes seconds is12h on ah am date m (forTransmit s) =
      (clockBody hours minutes seconds is12h on ah am date m s).map forTransmit := by
  unfold clockBody
  split
  · rfl
  · split
    · rfl
    · exact bind_eq_map (drawDigits_forTransmit _ _ _ _ (clearFb s)) fun t =>
        bind_eq_map (drawLabel_forTransmit _ _ _ _) fun u =>
        drawLayoutRest_forTransmit _ _ _ _ _

theorem smallClockBody_forTransmit (hours minutes : BitVec 8) (is12h : Bool) (m : DisplayMode) (s : State) :
    smallClockBody hours minutes is12h m (forTransmit s) =
      (smallClockBody hours minutes is12h m s).map forTransmit := by
  unfold smallClockBody
  split
  · rfl
  · cases m.smallClock with
    | none => rfl
    | some p =>
      refine bind_eq_map (drawText_forTransmit _ _ _ _ _) fun (t, used) => ?_
      simp only [Prod.map, id]
      rw [forTransmit_small12]
      split
      · exact bind_eq_map (blankColumns_forTransmit _ _ _) fun u => rfl
      · rfl

/-! ## Bitmaps -/

theorem grabBody_forTransmit (left top width height : Word) (s : State) :
    grabBody left top width height (forTransmit s) = (grabBody left top width height s).map forTransmit := by
  unfold grabBody
  rw [outsideVisible_forTransmit]
  split
  · rfl
  · split <;> rfl

theorem bitmapRows_forTransmit (left top h : Nat) (bytes : List Byte) (i n r : Nat) (s : State) :
    bitmapRows left top h bytes i n r (forTransmit s) = forTransmit (bitmapRows left top h bytes i n r s) := by
  induction n generalizing r s with
  | zero => rfl
  | succ n ih => simp only [bitmapRows, pixWrite_forTransmit, ih]

theorem bitmapColumns_forTransmit (left top h : Nat) (bytes : List Byte) (n i : Nat) (s : State) :
    bitmapColumns left top h bytes n i (forTransmit s) = forTransmit (bitmapColumns left top h bytes n i s) := by
  induction n generalizing i s with
  | zero => rfl
  | succ n ih => simp only [bitmapColumns, bitmapRows_forTransmit, ih]

theorem bitmapBody_forTransmit (left top width height : Word) (bytes : List Byte) (s : State) :
    bitmapBody left top width height bytes (forTransmit s) =
      (bitmapBody left top width height bytes s).map forTransmit := by
  unfold bitmapBody
  rw [outsideVisible_forTransmit, bitmapColumns_forTransmit]
  split
  · rfl
  · split <;> rfl

/-! ## Ending a command -/

theorem endCommand_forTransmit (s : State) (r : Result State) :
    endCommand (forTransmit s) (r.map forTransmit) = forTransmit (endCommand s r) := by
  cases r <;> rfl

theorem endBlitter_forTransmit (s : State) (r : Result State) :
    endBlitter (forTransmit s) (r.map forTransmit) = forTransmit (endBlitter s r) := by
  cases r <;> rfl

/-- A command that ends as a blitter command does, from a body that commutes with `forTransmit`. -/
theorem next_endBlitter_forTransmit {s : State} {r r' : Result State} (h : r' = r.map forTransmit) :
    (.next (endBlitter (forTransmit s) r') : Host.Outcome State Fault Refusal) =
      mapNext forTransmit (.next (endBlitter s r)) := by
  rw [h, endBlitter_forTransmit]
  rfl

/-- A command that drops the Cursor, from a body that commutes with `forTransmit`. -/
theorem next_endCommand_forTransmit {s : State} {r r' : Result State} (h : r' = r.map forTransmit) :
    (.next (endCommand (forTransmit s) r') : Host.Outcome State Fault Refusal) =
      mapNext forTransmit (.next (endCommand s r)) := by
  rw [h, endCommand_forTransmit]
  rfl

theorem needInit_forTransmit {body : State → Result State}
    (hbody : ∀ t, body (forTransmit t) = (body t).map forTransmit) (s : State) :
    needInit (forTransmit s) body = (needInit s body).map forTransmit := by
  unfold needInit
  rw [forTransmit_init]
  split
  · rfl
  · exact hbody (beginCommand s)

theorem withMode_forTransmit {body : DisplayMode → State → Result State}
    (hbody : ∀ m t, body m (forTransmit t) = (body m t).map forTransmit) (s : State) :
    withMode (forTransmit s) body = mapNext forTransmit (withMode s body) := by
  unfold withMode
  rw [forTransmit_init, forTransmit_modeValid, forTransmit_cfg, forTransmit_modeId]
  split
  · rfl
  · cases mode? s.cfg s.modeId with
    | none => rfl
    | some m => exact next_endCommand_forTransmit (hbody m (beginCommand s))

/-! ## The commands -/

theorem execSelectMode_forTransmit (id : BitVec 8) (s : State) :
    execSelectMode id (forTransmit s) = mapNext forTransmit (execSelectMode id s) := by
  unfold execSelectMode
  rw [forTransmit_init, forTransmit_cfg]
  split
  · rfl
  · cases mode? s.cfg id <;> rfl

theorem zoomOn_forTransmit (s : State) (m : DisplayMode) :
    zoomOn (forTransmit s) m = mapNext forTransmit (zoomOn s m) := by
  unfold zoomOn
  rw [forTransmit_zoomed, forTransmit_cfg]
  cases (if s.zoomed then none else m.zoomTarget) with
  | none => rfl
  | some target =>
    simp only []
    cases mode? s.cfg target <;> rfl

theorem zoomOff_forTransmit (s : State) (m : DisplayMode) :
    zoomOff (forTransmit s) m = mapNext forTransmit (zoomOff s m) := by
  unfold zoomOff
  rw [forTransmit_zoomed, forTransmit_cfg, forTransmit_baseModeId]
  split
  · rfl
  · cases mode? s.cfg s.baseModeId <;> rfl

theorem execSetZoom_forTransmit (on : Bool) (s : State) :
    execSetZoom on (forTransmit s) = mapNext forTransmit (execSetZoom on s) := by
  unfold execSetZoom
  rw [forTransmit_init, forTransmit_modeValid, forTransmit_cfg, forTransmit_modeId]
  split
  · rfl
  · cases mode? s.cfg s.modeId with
    | none => rfl
    | some m =>
      cases on with
      | true => exact zoomOn_forTransmit s m
      | false => exact zoomOff_forTransmit s m

/-- A command that writes neither HW nor CONTRAST commutes with `forTransmit`. -/
theorem exec_forTransmit {i : Instr} (hpanel : ∀ id, i ≠ .init id) (hcontrast : ∀ level, i ≠ .setContrast level)
    (s : State) : exec i (forTransmit s) = mapNext forTransmit (exec i s) := by
  cases i with
  | init id => exact absurd rfl (hpanel id)
  | setContrast level => exact absurd rfl (hcontrast level)
  | selectMode id => exact execSelectMode_forTransmit id s
  | setZoom on => exact execSetZoom_forTransmit on s
  | setAmpmLabels _ _ => rfl
  | setPosition _ _ _ => exact next_endBlitter_forTransmit (setpos_forTransmit _ _ _ (beginCommand s))
  | blitColumn v => exact next_endBlitter_forTransmit (needInit_forTransmit (blit_forTransmit v) s)
  | drawBlankColumns n inverted =>
    exact next_endBlitter_forTransmit (needInit_forTransmit (blankColumns_forTransmit n.toNat inverted) s)
  | drawLine _ _ _ _ _ _ _ => exact withMode_forTransmit (fun _ _ => lineRender_forTransmit _ _ _ _ _ _ _ _ _) s
  | drawScreen _ _ _ _ _ => exact withMode_forTransmit (screenBody_forTransmit _ _ _ _ _) s
  | drawBarcode _ _ => exact withMode_forTransmit (fun _ _ => barcodeRender_forTransmit _ _ _ _) s
  | drawClock _ _ _ _ _ _ _ _ => exact withMode_forTransmit (clockBody_forTransmit _ _ _ _ _ _ _ _) s
  | drawSmallClock _ _ _ => exact withMode_forTransmit (smallClockBody_forTransmit _ _ _) s
  | drawIcons mask => exact withMode_forTransmit (iconsBody_forTransmit mask) s
  | drawSignalStrength _ => exact withMode_forTransmit (signalBody_forTransmit _) s
  | grabScreenRegion left top width height =>
    exact next_endCommand_forTransmit (needInit_forTransmit (grabBody_forTransmit left top width height) s)
  | drawBitmap left top width height bytes =>
    exact next_endCommand_forTransmit (needInit_forTransmit (bitmapBody_forTransmit left top width height bytes) s)

/-- INIT takes the whole of HW from its profile, so only the contrast can still differ (R286). -/
theorem initBody_map_forTransmit (id : BitVec 8) (s : State) :
    (initBody id (forTransmit s)).map forTransmit = (initBody id s).map forTransmit := by
  unfold initBody
  rw [forTransmit_init, forTransmit_cfg]
  split
  · rfl
  · cases profile? s.cfg id <;> rfl

/-- SET_CONTRAST writes the contrast, whatever it was and whatever HW holds (R293). -/
theorem contrastBody_map_forTransmit (level : BitVec 8) (s : State) :
    (needInit (forTransmit s) (contrastBody level)).map forTransmit =
      (needInit s (contrastBody level)).map forTransmit := by
  unfold needInit contrastBody
  rw [forTransmit_init]
  split
  · rfl
  · split <;> rfl

/-- A command that drops the Cursor, from a body that agrees after `forTransmit`. -/
theorem mapNext_endCommand_forTransmit {s : State} {r r' : Result State} (h : r'.map forTransmit = r.map forTransmit) :
    mapNext forTransmit (.next (endCommand (forTransmit s) r')) = mapNext forTransmit (.next (endCommand s r)) := by
  simp only [mapNext, ← endCommand_forTransmit, h, forTransmit_forTransmit]

theorem mapNext_forTransmit_idem (o : Host.Outcome State Fault Refusal) :
    mapNext forTransmit (mapNext forTransmit o) = mapNext forTransmit o := by
  cases o <;> rfl

/-- Every command ends alike, up to the transmit-side fields, when they are first set to one value each. -/
theorem mapNext_exec_forTransmit (i : Instr) (s : State) :
    mapNext forTransmit (exec i (forTransmit s)) = mapNext forTransmit (exec i s) := by
  cases i with
  | init id => exact mapNext_endCommand_forTransmit (initBody_map_forTransmit id (beginCommand s))
  | setContrast level => exact mapNext_endCommand_forTransmit (contrastBody_map_forTransmit level s)
  | _ => rw [exec_forTransmit (by simp) (by simp), mapNext_forTransmit_idem]

/-- Settles O20: both states end as their common `forTransmit` does. -/
theorem transmitFieldsIgnored : Obligations.TransmitFieldsIgnored := by
  intro i s s' h
  rw [← mapNext_exec_forTransmit i s, h, mapNext_exec_forTransmit i s']

end Sys2Proof.Machine
end

section
/-! SUPPORT. The decoder as a whole (R101, R110, R112): the row that a header selects, and each command's payload in
both directions. -/

namespace Sys2Proof.Laws

open Sys2Proof.Machine

/-! ## Fields of a word -/

/-- A field that a mask keeps whole is the field of the masked value. -/
theorem field_of_masked {w mask value : Word} (hw : w &&& mask = value) (start len : Nat)
    (hkeep : mask.extractLsb' start len = BitVec.allOnes len) :
    value.extractLsb' start len = w.extractLsb' start len := by
  rw [← hw, BitVec.extractLsb'_and, hkeep, BitVec.and_allOnes]

/-- A one-bit field is its flag. -/
theorem ofBool_flag (w : Word) (k : Nat) : BitVec.ofBool (w.getLsbD k) = w.extractLsb' k 1 := by
  ext j hj
  obtain rfl : j = 0 := by omega
  simp

theorem getLsbD_append_high {v w k : Nat} (x : BitVec v) (y : BitVec w) (hk : w ≤ k) :
    (x ++ y).getLsbD k = x.getLsbD (k - w) := by
  rw [BitVec.getLsbD_append, if_neg (by omega)]

theorem getLsbD_append_low {v w k : Nat} (x : BitVec v) (y : BitVec w) (hk : k < w) :
    (x ++ y).getLsbD k = y.getLsbD k := by
  rw [BitVec.getLsbD_append, if_pos hk]

/-- The flag in a one-bit field. -/
theorem getLsbD_flag (b : Bool) : (BitVec.ofBool b).getLsbD 0 = b := by simp

/-! ## The opcode map (R112) -/

/-- Every row masks the whole opcode field, and its value holds its opcode there. -/
theorem row_opcode_byte : ∀ row ∈ opcodeTable,
    row.mask.extractLsb' 24 8 = BitVec.allOnes 8 ∧ row.value.extractLsb' 24 8 = row.code := by decide

/-- The opcodes of the map are distinct: each finds its own row. -/
theorem opcodeRow?_code : ∀ row ∈ opcodeTable, opcodeRow? row.code = some row := by decide

/-- A header that selects a row holds the row's opcode. -/
theorem opcodeField_of_selects {h : Word} {row : OpcodeRow} (hrow : row ∈ opcodeTable)
    (hsel : h &&& row.mask = row.value) : opcodeField h = row.code := by
  obtain ⟨hkeep, hcode⟩ := row_opcode_byte row hrow
  rw [opcodeField, ← field_of_masked hsel 24 8 hkeep, hcode]

theorem opcodeRow?_of_selects {h : Word} {row : OpcodeRow} (hrow : row ∈ opcodeTable)
    (hsel : h &&& row.mask = row.value) : opcodeRow? (opcodeField h) = some row := by
  rw [opcodeField_of_selects hrow hsel, opcodeRow?_code row hrow]

/-! ## The decoder -/

/-- A frame decodes to a command exactly when its header selects a row of the map and the row's payload is the whole
rest of the frame (R110). -/
theorem decode_ok_iff {f : List Word} {i : Instr} : decode f = .ok i ↔
    ∃ h payload row, f = h :: payload ∧ row ∈ opcodeTable ∧ h &&& row.mask = row.value ∧
      parsePayload row.opcode h payload = .ok (i, []) := by
  constructor
  · intro hd
    cases f with
    | nil => simp [decode] at hd
    | cons h payload =>
      simp only [decode] at hd
      split at hd
      · simp at hd
      · rename_i row hrow
        split at hd
        · simp at hd
        · rename_i hsel
          split at hd
          · simp at hd
          · rename_i hp
            simp only [Except.ok.injEq] at hd
            exact ⟨h, payload, row, rfl, List.mem_of_find?_eq_some hrow, not_not.1 hsel, hd ▸ hp⟩
          · simp at hd
  · rintro ⟨h, payload, row, rfl, hrow, hsel, hp⟩
    simp [decode, opcodeRow?_of_selects hrow hsel, hsel, hp]

/-! ## The payload of an encoded command -/

theorem parseStr_encodeStr_all {bytes : List Byte} (h : strFits bytes = true) :
    parseStr (encodeStr bytes) = .ok (bytes, []) := by
  simpa using parseStr_encodeStr h []

theorem parseBytes_packBytes_all (bytes : List Byte) :
    parseBytes bytes.length (packBytes bytes) = .ok (bytes, []) := by
  simpa using parseBytes_packBytes bytes []

theorem parseLines_encodeLines_all {lines : List ScreenLine} (h : ∀ l ∈ lines, strFits l.text = true) :
    parseLines lines.length (lines.flatMap encodeLine) = .ok (lines, []) := by
  simpa using parseLines_encodeLines h []

/-- The count word of a screen (R109). -/
theorem count_word {n : Nat} (h : n ≤ 255) :
    (BitVec.ofNat 32 n).extractLsb' 8 24 = 0 ∧ ((BitVec.ofNat 32 n).extractLsb' 0 8).toNat = n := by
  constructor
  · apply BitVec.eq_of_toNat_eq
    rw [BitVec.extractLsb'_toNat, BitVec.toNat_ofNat, Nat.shiftRight_eq_div_pow]
    change _ = 0
    omega
  · rw [BitVec.extractLsb'_toNat, BitVec.toNat_ofNat, Nat.shiftRight_zero]
    omega

/-- The header and operand words of the encoder, read field by field, give the operands back; `hi` is what the strings,
lines and bytes need. -/
theorem parsePayload_encode {i : Instr} (hi : i.WellFormed = true) {h : Word} {payload : List Word}
    (he : encode i = h :: payload) : parsePayload (opcodeOf i) h payload = .ok (i, []) := by
  cases i with
  | blitColumn _ | drawIcons _ | grabScreenRegion _ _ _ _ =>
    cases he
    rfl
  | init _ | selectMode _ | setZoom _ | setContrast _ | setPosition _ _ _ | drawBlankColumns _ _
  | drawSignalStrength _ | drawSmallClock _ _ _ =>
    cases he
    simp (disch := decide) only [opcodeOf, parsePayload, parseWord, parseThen,
      BitVec.extractLsb'_append_eq_of_le, BitVec.extractLsb'_append_eq_of_add_le, BitVec.extractLsb'_eq_self,
      getLsbD_append_high, getLsbD_append_low, getLsbD_flag, Nat.reduceSub, BitVec.ofNat_eq_ofNat, ne_eq,
      not_true_eq_false, if_false]
  | drawLine _ _ _ _ _ _ _ | drawBarcode _ _ | drawClock _ _ _ _ _ _ _ _ =>
    cases he
    simp (disch := decide) only [opcodeOf, parsePayload, parseWord, parseStr_encodeStr_all hi, parseThen,
      BitVec.extractLsb'_append_eq_of_le, BitVec.extractLsb'_append_eq_of_add_le, BitVec.extractLsb'_eq_self,
      getLsbD_append_high, getLsbD_append_low, getLsbD_flag, Nat.reduceSub, BitVec.ofNat_eq_ofNat, ne_eq,
      not_true_eq_false, if_false]
  | setAmpmLabels am pm =>
    cases he
    simp only [Instr.WellFormed, Bool.and_eq_true] at hi
    simp only [opcodeOf, parsePayload, parseStr_encodeStr hi.1, parseStr_encodeStr_all hi.2, parseThen]
  | drawScreen _ _ _ _ lines =>
    cases he
    simp only [Instr.WellFormed, Bool.and_eq_true, decide_eq_true_eq, List.all_eq_true] at hi
    obtain ⟨hcount, hlines⟩ := hi
    obtain ⟨hreserved, hn⟩ := count_word hcount
    simp (disch := decide) only [opcodeOf, parsePayload, parseWord, hreserved, hn, parseLines_encodeLines_all hlines,
      parseThen, BitVec.extractLsb'_append_eq_of_le, BitVec.extractLsb'_append_eq_of_add_le, BitVec.extractLsb'_eq_self,
      getLsbD_append_high, getLsbD_append_low, getLsbD_flag, Nat.reduceSub, BitVec.ofNat_eq_ofNat, ne_eq,
      not_true_eq_false, if_false]
  | drawBitmap _ _ width height bytes =>
    cases he
    simp only [Instr.WellFormed, decide_eq_true_eq] at hi
    simp only [opcodeOf, parsePayload, parseWord, parseThen, ← hi, parseBytes_packBytes_all]

/-- The first word of every command's frame (R101, R112). -/
theorem header_statement : ∀ i : Instr, Header.Statement i
  | .init id => Header.init id
  | .selectMode id => Header.selectMode id
  | .setZoom on => Header.setZoom on
  | .setContrast level => Header.setContrast level
  | .setAmpmLabels am pm => Header.setAmpmLabels am pm
  | .setPosition h c r => Header.setPosition h c r
  | .blitColumn v => Header.blitColumn v
  | .drawBlankColumns n inverted => Header.drawBlankColumns n inverted
  | .drawLine row text cc cw inv aL aR => Header.drawLine row text cc cw inv aL aR
  | .drawScreen x y on w lines => Header.drawScreen x y on w lines
  | .drawBarcode row hex => Header.drawBarcode row hex
  | .drawClock h mi sec is12h on ah am date => Header.drawClock h mi sec is12h on ah am date
  | .drawSmallClock h mi is12h => Header.drawSmallClock h mi is12h
  | .drawIcons mask => Header.drawIcons mask
  | .drawSignalStrength level => Header.drawSignalStrength level
  | .grabScreenRegion l t w h => Header.grabScreenRegion l t w h
  | .drawBitmap l t w h bytes => Header.drawBitmap l t w h bytes

/-- Settles O1: the header selects the command's row, and the row's payload parser reads the operands back. -/
theorem decodeEncode : Obligations.DecodeEncode := by
  intro i hi
  obtain ⟨h, payload, row, he, hrow, hop, -, hsel⟩ := header_statement i
  rw [he]
  exact decode_ok_iff.2 ⟨h, payload, row, rfl, hrow, hsel, hop ▸ parsePayload_encode hi he⟩

/-! ## Headers and operand words, put together again from their fields

The fields that a mask or a check fixes are fields of the word too, so the word is the concatenation of its fields. -/

theorem eq_of_full_mask {h value : Word} (hsel : h &&& 0xFFFFFFFF = value) : h = value :=
  BitVec.and_allOnes.symm.trans hsel

/-- A header with one byte operand (R106). -/
theorem byteHeader_eq {h : Word} {code : BitVec 8} (hsel : h &&& 0xFFFFFF00 = code ++ 0#24) :
    (code ++ 0#16 ++ h.extractLsb' 0 8 : BitVec 32) = h := by
  have hop : code = h.extractLsb' 24 8 := by
    rw [← field_of_masked hsel 24 8 (by decide), BitVec.extractLsb'_append_eq_of_le (by decide)]
    exact BitVec.extractLsb'_eq_self.symm
  have hreserved : 0#16 = h.extractLsb' 8 16 := by
    rw [← field_of_masked hsel 8 16 (by decide), BitVec.extractLsb'_append_eq_of_add_le (by decide)]
    rfl
  rw [hop, hreserved]
  simp (disch := decide) only [BitVec.extractLsb'_append_extractLsb'_eq_extractLsb']
  exact BitVec.extractLsb'_eq_self

theorem setZoomHeader_eq {h : Word} (hsel : h &&& 0xFFFFFFFE = 0x03000000) :
    (0x03#8 ++ 0#23 ++ BitVec.ofBool (h.getLsbD 0) : BitVec 32) = h := by
  have hop : 0x03#8 = h.extractLsb' 24 8 := field_of_masked hsel 24 8 (by decide)
  have hreserved : 0#23 = h.extractLsb' 1 23 := field_of_masked hsel 1 23 (by decide)
  rw [hop, hreserved]
  simp (disch := decide) only [ofBool_flag, BitVec.extractLsb'_append_extractLsb'_eq_extractLsb']
  exact BitVec.extractLsb'_eq_self

theorem setPositionHeader_eq {h : Word} (hsel : h &&& 0xFF000000 = 0x10000000) :
    (0x10#8 ++ h.extractLsb' 18 6 ++ h.extractLsb' 8 10 ++ h.extractLsb' 0 8 : BitVec 32) = h := by
  have hop : 0x10#8 = h.extractLsb' 24 8 := field_of_masked hsel 24 8 (by decide)
  rw [hop]
  simp (disch := decide) only [BitVec.extractLsb'_append_extractLsb'_eq_extractLsb']
  exact BitVec.extractLsb'_eq_self

theorem drawBlankColumnsHeader_eq {h : Word} (hsel : h &&& 0xFFFE0000 = 0x12000000) :
    (0x12#8 ++ 0#7 ++ BitVec.ofBool (h.getLsbD 16) ++ h.extractLsb' 0 16 : BitVec 32) = h := by
  have hop : 0x12#8 = h.extractLsb' 24 8 := field_of_masked hsel 24 8 (by decide)
  have hreserved : 0#7 = h.extractLsb' 17 7 := field_of_masked hsel 17 7 (by decide)
  rw [hop, hreserved]
  simp (disch := decide) only [ofBool_flag, BitVec.extractLsb'_append_extractLsb'_eq_extractLsb']
  exact BitVec.extractLsb'_eq_self

theorem drawLineHeader_eq {h : Word} (hsel : h &&& 0xFF010000 = 0x20000000) :
    (0x20#8 ++ h.extractLsb' 20 4 ++ BitVec.ofBool (h.getLsbD 19) ++ BitVec.ofBool (h.getLsbD 18)
      ++ BitVec.ofBool (h.getLsbD 17) ++ 0#1 ++ h.extractLsb' 8 8 ++ h.extractLsb' 0 8 : BitVec 32) = h := by
  have hop : 0x20#8 = h.extractLsb' 24 8 := field_of_masked hsel 24 8 (by decide)
  have hreserved : 0#1 = h.extractLsb' 16 1 := field_of_masked hsel 16 1 (by decide)
  rw [hop, hreserved]
  simp (disch := decide) only [ofBool_flag, BitVec.extractLsb'_append_extractLsb'_eq_extractLsb']
  exact BitVec.extractLsb'_eq_self

theorem drawScreenHeader_eq {h : Word} (hsel : h &&& 0xFF000700 = 0x21000000) :
    (0x21#8 ++ h.extractLsb' 16 8 ++ h.extractLsb' 12 4 ++ BitVec.ofBool (h.getLsbD 11) ++ 0#3
      ++ h.extractLsb' 0 8 : BitVec 32) = h := by
  have hop : 0x21#8 = h.extractLsb' 24 8 := field_of_masked hsel 24 8 (by decide)
  have hreserved : 0#3 = h.extractLsb' 8 3 := field_of_masked hsel 8 3 (by decide)
  rw [hop, hreserved]
  simp (disch := decide) only [ofBool_flag, BitVec.extractLsb'_append_extractLsb'_eq_extractLsb']
  exact BitVec.extractLsb'_eq_self

theorem drawBarcodeHeader_eq {h : Word} (hsel : h &&& 0xFF0FFFFF = 0x22000000) :
    (0x22#8 ++ h.extractLsb' 20 4 ++ 0#20 : BitVec 32) = h := by
  have hop : 0x22#8 = h.extractLsb' 24 8 := field_of_masked hsel 24 8 (by decide)
  have hreserved : 0#20 = h.extractLsb' 0 20 := field_of_masked hsel 0 20 (by decide)
  rw [hop, hreserved]
  simp (disch := decide) only [BitVec.extractLsb'_append_extractLsb'_eq_extractLsb']
  exact BitVec.extractLsb'_eq_self

/-- The count word of a screen, whose upper bits are reserved (R109). -/
theorem countWord_eq {w : Word} (hreserved : w.extractLsb' 8 24 = 0) :
    BitVec.ofNat 32 (w.extractLsb' 0 8).toNat = w := by
  have hz : w.toNat / 256 % 2 ^ 24 = 0 := by
    simpa [Nat.shiftRight_eq_div_pow] using congrArg BitVec.toNat hreserved
  apply BitVec.eq_of_toNat_eq
  rw [BitVec.toNat_ofNat, BitVec.extractLsb'_toNat, Nat.shiftRight_zero]
  omega

theorem clockTimeWord_eq {w : Word} (hreserved : w.extractLsb' 26 6 = 0) :
    (0#6 ++ BitVec.ofBool (w.getLsbD 25) ++ BitVec.ofBool (w.getLsbD 24) ++ w.extractLsb' 16 8 ++ w.extractLsb' 8 8
      ++ w.extractLsb' 0 8 : BitVec 32) = w := by
  rw [← BitVec.ofNat_eq_ofNat, ← hreserved]
  simp (disch := decide) only [ofBool_flag, BitVec.extractLsb'_append_extractLsb'_eq_extractLsb']
  exact BitVec.extractLsb'_eq_self

theorem clockAlarmWord_eq {w : Word} (hreserved : w.extractLsb' 16 16 = 0) :
    (0#16 ++ w.extractLsb' 8 8 ++ w.extractLsb' 0 8 : BitVec 32) = w := by
  rw [← BitVec.ofNat_eq_ofNat, ← hreserved]
  simp (disch := decide) only [BitVec.extractLsb'_append_extractLsb'_eq_extractLsb']
  exact BitVec.extractLsb'_eq_self

theorem smallClockWord_eq {w : Word} (hreserved : w.extractLsb' 17 15 = 0) :
    (0#15 ++ BitVec.ofBool (w.getLsbD 16) ++ w.extractLsb' 8 8 ++ w.extractLsb' 0 8 : BitVec 32) = w := by
  rw [← BitVec.ofNat_eq_ofNat, ← hreserved]
  simp (disch := decide) only [ofBool_flag, BitVec.extractLsb'_append_extractLsb'_eq_extractLsb']
  exact BitVec.extractLsb'_eq_self

/-! ## The frames that decode -/

/-- A check of reserved bits that a parsed payload has passed. -/
theorem check_ok {α : Type} {c : Prop} [Decidable c] {e : DecodeError} {p : Parsed α} {b : α × List Word}
    (h : (if c then .error e else p) = .ok b) : ¬ c ∧ p = .ok b := by
  split at h
  · simp at h
  · exact ⟨‹_›, h⟩

theorem parseThen_word_ok {β : Type} {ws : List Word} {k : Word → List Word → Parsed β} {b : β × List Word}
    (h : parseThen (parseWord ws) k = .ok b) : ∃ w ws', ws = w :: ws' ∧ k w ws' = .ok b := by
  obtain ⟨w, ws', hw, hk⟩ := parseThen_ok h
  exact ⟨w, ws', parseWord_ok hw, hk⟩

theorem parseThen_str_ok {β : Type} {ws : List Word} {k : List Byte → List Word → Parsed β} {b : β × List Word}
    (h : parseThen (parseStr ws) k = .ok b) :
    ∃ bytes ws', strFits bytes = true ∧ ws = encodeStr bytes ++ ws' ∧ k bytes ws' = .ok b := by
  obtain ⟨bytes, ws', hs, hk⟩ := parseThen_ok h
  obtain ⟨hfits, hws⟩ := parseStr_ok hs
  exact ⟨bytes, ws', hfits, hws, hk⟩

/-- The operands of a selected row's payload are those of a well-formed command, and the words read are its frame. -/
theorem parsePayload_ok {row : OpcodeRow} {h : Word} {ws rest : List Word} {i : Instr} (hrow : row ∈ opcodeTable)
    (hsel : h &&& row.mask = row.value) (hp : parsePayload row.opcode h ws = .ok (i, rest)) :
    i.WellFormed = true ∧ h :: ws = encode i ++ rest := by
  obtain ⟨op, code, format, value, mask⟩ := row
  simp only [opcodeTable, List.mem_cons, List.not_mem_nil, OpcodeRow.mk.injEq] at hrow
  cases op <;> simp only [reduceCtorEq, false_and, true_and, false_or, or_false] at hrow <;>
    obtain ⟨-, -, rfl, rfl⟩ := hrow
  case init | selectMode | setContrast | drawSignalStrength =>
    cases hp
    exact ⟨rfl, congrArg (· :: ws) (Eq.symm (byteHeader_eq hsel))⟩
  case setZoom =>
    cases hp
    exact ⟨rfl, congrArg (· :: ws) (setZoomHeader_eq hsel).symm⟩
  case setPosition =>
    cases hp
    exact ⟨rfl, congrArg (· :: ws) (setPositionHeader_eq hsel).symm⟩
  case drawBlankColumns =>
    cases hp
    exact ⟨rfl, congrArg (· :: ws) (drawBlankColumnsHeader_eq hsel).symm⟩
  case blitColumn | drawIcons =>
    obtain ⟨operand, ws1, rfl, hk⟩ := parseThen_word_ok hp
    cases hk
    exact ⟨rfl, congrArg (· :: _) (eq_of_full_mask hsel)⟩
  case drawSmallClock =>
    obtain ⟨time, ws1, rfl, hk1⟩ := parseThen_word_ok hp
    obtain ⟨hreserved, hk2⟩ := check_ok hk1
    cases hk2
    refine ⟨rfl, ?_⟩
    simp only [encode, smallClockWord_eq (not_not.1 hreserved), eq_of_full_mask hsel]
    rfl
  case setAmpmLabels =>
    obtain ⟨am, ws1, ham, rfl, hk1⟩ := parseThen_str_ok hp
    obtain ⟨pm, ws2, hpm, rfl, hk2⟩ := parseThen_str_ok hk1
    cases hk2
    refine ⟨Bool.and_eq_true_iff.2 ⟨ham, hpm⟩, ?_⟩
    rw [eq_of_full_mask hsel, ← List.append_assoc]
    rfl
  case drawLine =>
    obtain ⟨text, ws1, hfits, rfl, hk⟩ := parseThen_str_ok hp
    cases hk
    exact ⟨hfits, congrArg (· :: _) (drawLineHeader_eq hsel).symm⟩
  case drawBarcode =>
    obtain ⟨hex, ws1, hfits, rfl, hk⟩ := parseThen_str_ok hp
    cases hk
    exact ⟨hfits, congrArg (· :: _) (drawBarcodeHeader_eq hsel).symm⟩
  case drawScreen =>
    obtain ⟨count, ws1, rfl, hk1⟩ := parseThen_word_ok hp
    obtain ⟨hreserved, hk2⟩ := check_ok hk1
    obtain ⟨lines, ws2, hlines, hk3⟩ := parseThen_ok hk2
    obtain ⟨hlen, hfits, rfl⟩ := parseLines_ok hlines
    cases hk3
    have hbyte : lines.length ≤ 255 := by have := (count.extractLsb' 0 8).isLt; omega
    refine ⟨by simpa [Instr.WellFormed, hbyte] using hfits, ?_⟩
    simp only [encode, hlen, countWord_eq (not_not.1 hreserved), drawScreenHeader_eq hsel, List.cons_append]
  case drawClock =>
    obtain ⟨time, ws1, rfl, hk1⟩ := parseThen_word_ok hp
    obtain ⟨htime, hk2⟩ := check_ok hk1
    obtain ⟨alarm, ws2, rfl, hk3⟩ := parseThen_word_ok hk2
    obtain ⟨halarm, hk4⟩ := check_ok hk3
    obtain ⟨date, ws3, hfits, rfl, hk5⟩ := parseThen_str_ok hk4
    cases hk5
    refine ⟨hfits, ?_⟩
    simp only [encode, clockTimeWord_eq (not_not.1 htime), clockAlarmWord_eq (not_not.1 halarm), eq_of_full_mask hsel,
      List.cons_append]
    rfl
  case grabScreenRegion =>
    obtain ⟨left, ws1, rfl, hk1⟩ := parseThen_word_ok hp
    obtain ⟨top, ws2, rfl, hk2⟩ := parseThen_word_ok hk1
    obtain ⟨width, ws3, rfl, hk3⟩ := parseThen_word_ok hk2
    obtain ⟨height, ws4, rfl, hk4⟩ := parseThen_word_ok hk3
    cases hk4
    exact ⟨rfl, congrArg (· :: _) (eq_of_full_mask hsel)⟩
  case drawBitmap =>
    obtain ⟨left, ws1, rfl, hk1⟩ := parseThen_word_ok hp
    obtain ⟨top, ws2, rfl, hk2⟩ := parseThen_word_ok hk1
    obtain ⟨width, ws3, rfl, hk3⟩ := parseThen_word_ok hk2
    obtain ⟨height, ws4, rfl, hk4⟩ := parseThen_word_ok hk3
    obtain ⟨bytes, ws5, hbytes, hk5⟩ := parseThen_ok hk4
    obtain ⟨hlen, rfl⟩ := parseBytes_ok hbytes
    cases hk5
    exact ⟨decide_eq_true hlen, congrArg (· :: _) (eq_of_full_mask hsel)⟩

/-- Settles O2: a header that selects a row and a payload that is read to its end are the words of the encoder. -/
theorem encodeDecode : Obligations.EncodeDecode := by
  intro f i hd
  obtain ⟨h, payload, row, rfl, hrow, hsel, hp⟩ := decode_ok_iff.1 hd
  obtain ⟨hi, hwords⟩ := parsePayload_ok hrow hsel hp
  exact ⟨hi, by rw [hwords, List.append_nil]⟩

/-! ## Headers and lengths (R112, R114) -/

/-- Settles O4: the selected row is the one of the header's opcode field. -/
theorem headerSelectsOneRow : Obligations.HeaderSelectsOneRow := by
  have hselects : ∀ (h : Word) (payload : List Word) (i : Instr), decode (h :: payload) = .ok i →
      ∃ r ∈ opcodeTable, h &&& r.mask = r.value := by
    intro h payload i hd
    obtain ⟨h', payload', row, he, hrow, hsel, -⟩ := decode_ok_iff.1 hd
    cases he
    exact ⟨row, hrow, hsel⟩
  refine ⟨fun h r r' hr hr' hs hs' => ?_, hselects, fun h payload hnone => ?_⟩
  · have hrow := opcodeRow?_of_selects hr hs
    rw [opcodeRow?_of_selects hr' hs'] at hrow
    exact (Option.some.inj hrow).symm
  · cases hd : decode (h :: payload) with
    | error e => exact ⟨e, rfl⟩
    | ok i =>
      obtain ⟨r, hr, hs⟩ := hselects h payload i hd
      exact absurd hs (hnone r hr)

theorem encodeStr_length (bytes : List Byte) : (encodeStr bytes).length = 1 + ceilDiv bytes.length 4 := by
  simp only [encodeStr, List.length_cons, packBytes_length]
  omega

theorem encodeLine_length (l : ScreenLine) : (encodeLine l).length = 2 + ceilDiv l.text.length 4 := by
  simp only [encodeLine, List.length_cons, encodeStr_length]
  omega

/-- The frame of a well-formed command has the length that its format implies (R114). -/
theorem encode_length {i : Instr} (hi : i.WellFormed = true) : (encode i).length = impliedLength i := by
  cases i with
  | setAmpmLabels _ _ | drawLine _ _ _ _ _ _ _ | drawBarcode _ _ | drawClock _ _ _ _ _ _ _ _ =>
    simp only [encode, impliedLength, List.length_cons, List.length_append, encodeStr_length]
    omega
  | drawScreen _ _ _ _ lines =>
    simp only [encode, impliedLength, List.length_cons, List.length_flatMap, encodeLine_length]
    omega
  | drawBitmap _ _ width height bytes =>
    have hlen : bytes.length = width.toNat * ceilDiv height.toNat 8 := of_decide_eq_true hi
    simp only [encode, impliedLength, List.length_cons, packBytes_length, hlen]
    omega
  | _ => rfl

/-- Settles O5: the frame is the encoding of its command. -/
theorem frameLength : Obligations.FrameLength := by
  intro f i hd
  obtain ⟨hi, rfl⟩ := encodeDecode f i hd
  exact encode_length hi

/-! ## Strings (R103, R104) -/

/-- Byte `i` of a run of words is byte `i mod 4` of word `i div 4`. -/
theorem unpackWords_getD (ws : List Word) (i : Nat) :
    (unpackWords ws).getD i 0 = byteOfWord (ws.getD (i / 4) 0) (i % 4) := by
  induction ws generalizing i with
  | nil => simp [unpackWords, byteOfWord]
  | cons w ws ih =>
    match i with
    | 0 | 1 | 2 | 3 => rfl
    | i + 4 =>
      rw [show (i + 4) / 4 = i / 4 + 1 by omega, Nat.add_mod_right]
      exact ih i

theorem getD_append_zeros (bytes : List Byte) (n i : Nat) :
    (bytes ++ List.replicate n 0).getD i 0 = bytes.getD i 0 := by
  rcases Nat.lt_or_ge i bytes.length with hi | hi
  · rw [List.getD_append _ _ _ _ hi]
  · rw [List.getD_append_right _ _ _ _ hi, List.getD_eq_default _ _ hi, List.getD_eq_getElem?_getD,
      List.getElem?_getD_replicate_default_eq]

/-- Settles O59: byte by byte, from the bytes of packed words. -/
theorem packedStrings : Obligations.PackedStrings := by
  refine fun bytes => ⟨rfl, packBytes_length bytes, fun i _ => ?_⟩
  calc ((packBytes bytes).getD (i / 4) 0).extractLsb' (8 * (i % 4)) 8
      = (unpackWords (packBytes bytes)).getD i 0 := (unpackWords_getD _ i).symm
    _ = (bytes ++ List.replicate (4 * ceilDiv bytes.length 4 - bytes.length) 0).getD i 0 := by
        rw [unpackWords_packBytes]
    _ = bytes.getD i 0 := getD_append_zeros bytes _ i

/-! ## Worked encodings (R117) -/

/-- Settles O3: the worked frames by evaluation, the others from the encoder's equations. -/
theorem workedEncodings : Obligations.WorkedEncodings := by
  exact ⟨by decide, by decide, by decide, by decide, by decide, fun _ _ _ _ _ _ _ => rfl, fun _ _ _ _ _ => rfl,
    fun _ _ => rfl, fun _ _ _ _ _ _ _ _ => rfl, fun _ _ _ => rfl, fun _ => rfl, fun _ => rfl⟩

/-! ## Frames that do not decode (R110) -/

/-- Settles O7: the step hands the frame to the decoder, and an illegal one writes the result registers only. -/
theorem illegalFrame : Obligations.IllegalFrame := by
  intro s f rest e hs hd
  rw [step_submit hs, runFrame_error hd]
  rfl

end Sys2Proof.Laws
end

section
/-! SUPPORT. DRAW_SIGNAL_STRENGTH in an active mode (R280): its checks in order, then one piece. -/

namespace Sys2Proof.Machine

theorem levelLegal_iff (level : Int) : levelLegal level = true ↔ -1 ≤ level ∧ level ≤ 100 := by
  simp [levelLegal]

theorem exec_drawSignalStrength (level : BitVec 8) (s : State) :
    exec (.drawSignalStrength level) s = withMode s (signalBody level.toInt) := rfl

/-- Settles O49: the level, the mode's signal position and the glyph's place are checked in this order. -/
theorem drawSignalStrength : Obligations.DrawSignalStrength := by
  intro level s m ha
  rw [exec_drawSignalStrength]
  have hbody := signalBody_eq (level := level.toInt) (m := m) (s := beginCommand s) ha.inv.fbCanonical
  refine ⟨fun hout => ?_, fun hlo hhi hpos => ?_, fun pos hlo hhi hpos => ?_⟩
  · have hillegal : levelLegal level.toInt = false := by
      rw [← Bool.not_eq_true, levelLegal_iff]
      omega
    rw [if_pos hillegal] at hbody
    exact body_error ha hbody
  · rw [if_neg (by simp [levelLegal_iff, hlo, hhi]), hpos] at hbody
    exact body_error ha hbody
  · intro p
    rw [if_neg (by simp [levelLegal_iff, hlo, hhi]), hpos] at hbody
    have hheight : HeightsLegal [p] := List.forall_mem_singleton.2 ha.rom.signalH
    refine ⟨romSignal_length ha.rom _, fun hfit => ?_, fun hfit => ?_⟩
    · exact draw_error ha hbody hheight (by rwa [List.forall_mem_singleton])
    · exact draw_active ha hbody hheight (List.forall_mem_singleton.2 hfit)

end Sys2Proof.Machine
end

section
/-! SUPPORT. The BitBlitter commands (R131 to R137): each is `setpos` or one run of blits, with the result registers
written around it. -/

namespace Sys2Proof.Machine

/-! ## The ends of a blitter command -/

theorem needInit_of_init {s : State} (h : s.init = true) (body : State → Result State) :
    needInit s body = body (beginCommand s) := by simp [needInit, h]

theorem needInit_of_not_init {s : State} (h : s.init = false) (body : State → Result State) :
    needInit s body = .error .notInitialized := by simp [needInit, h]

/-- The result registers are no pixels: what a command paints, it paints from the state it started in. -/
theorem Painted.of_beginCommand {s t : State} {r : Nat → Nat → Prop} {v : Nat → Nat → Bool}
    (h : Painted (beginCommand s) t r v) : Painted s t r v :=
  ⟨h.visible, h.inside, h.outsideByte, h.outsideBit⟩

/-- A run of blits that fits, as a command (R133, R136, R137). -/
theorem endBlitter_blitAll_draws {s : State} {vs : List Column} (hw : Memory.wf s.fb = true) (hv : s.cur.valid = true)
    (hfit : s.cur.column + vs.length ≤ wVis s.hw ∧ s.cur.rowPx + s.cur.heightPx ≤ s.hw.heightPx) :
    ∃ t, endBlitter s (blitAll vs (beginCommand s)) = t ∧
      t = { s with
        fb := t.fb, cur := advance s.hw s.cur vs.length, status := 0x00, result := 0, rdata := [] } ∧
      Painted s t (inRect s.cur.column s.cur.rowPx vs.length s.cur.heightPx)
        (columnPixel vs s.cur.heightPx s.cur.column s.cur.rowPx) := by
  obtain ⟨t, ht⟩ := blitAll_exists (s := beginCommand s) hw hv hfit
  obtain ⟨hb, -, -⟩ := blitAll_ok (s := beginCommand s) hw ht
  refine ⟨t, by rw [ht, endBlitter_ok], ?_, hb.painted.of_beginCommand⟩
  have hcur : t.cur = advance s.hw s.cur vs.length := hb.cur
  rw [← hcur]
  exact hb.canvas

/-- A run of blits that does not fit, as a command (R74, R136, R303). -/
theorem endBlitter_blitAll_overrun {s : State} {vs : List Column} (h : Invariant s) (hv : s.cur.valid = true)
    (hne : vs ≠ [])
    (hfit : ¬ (s.cur.column + vs.length ≤ wVis s.hw ∧ s.cur.rowPx + s.cur.heightPx ≤ s.hw.heightPx)) :
    endBlitter s (blitAll vs (beginCommand s)) = failedKeepingCursor s 0x06 := by
  obtain ⟨-, hheight, -⟩ := h.cursor hv
  rw [blitAll_error (s := beginCommand s) h.fbCanonical hv hheight hne hfit]
  rfl

/-- Columns without a valid Cursor, as a command (R133). -/
theorem endBlitter_blitAll_noPosition {s : State} {vs : List Column} (hv : s.cur.valid = false) (hne : vs ≠ []) :
    endBlitter s (blitAll vs (beginCommand s)) = failedKeepingCursor s 0x13 := by
  obtain ⟨v, vs, rfl⟩ := List.exists_cons_of_ne_nil hne
  rw [blitAll, blit_noPosition (s := beginCommand s) hv]
  rfl

/-! ## SET_POSITION (R131) -/

theorem exec_setPosition (h : BitVec 6) (c : BitVec 10) (r : BitVec 8) (s : State) :
    exec (.setPosition h c r) s = .next (endBlitter s (setpos h.toNat c.toNat r.toNat (beginCommand s))) := rfl

theorem setpos_notInitialized {h c r : Nat} {s : State} (hi : s.init = false) :
    setpos h c r s = .error .notInitialized := by simp [setpos, hi]

theorem setpos_argumentOutOfRange {h c r : Nat} {s : State} (hi : s.init = true) (hh : h < 1 ∨ 32 < h) :
    setpos h c r s = .error .argumentOutOfRange := by
  rw [setpos, if_neg (by simp [hi]), if_pos hh]

/-- Settles O21: the three cases of `setpos`, as a command. -/
theorem setPosition : Obligations.SetPosition := by
  intro h c r s
  rw [exec_setPosition]
  refine ⟨rfl, fun hi => ?_, fun hi hh => ?_, fun hi h1 h32 => ?_⟩
  · rw [setpos_notInitialized (s := beginCommand s) hi]
    rfl
  · rw [setpos_argumentOutOfRange (s := beginCommand s) hi hh]
    rfl
  · rw [setpos_ok (s := beginCommand s) hi h1 h32]
    rfl

/-! ## BLIT_COLUMN (R134) -/

theorem exec_blitColumn (v : Word) (s : State) :
    exec (.blitColumn v) s = .next (endBlitter s (needInit s (blitAll [v]))) := by
  rw [← funext (blit_eq_blitAll v)]
  rfl

/-- Settles O22: BLIT_COLUMN is a run of one column. -/
theorem blitColumn : Obligations.BlitColumn := by
  intro v s h
  rw [exec_blitColumn]
  refine ⟨rfl, fun hi => ?_, fun hi hv => ?_, fun hv hfit => ?_, fun hv hcol hrow => ?_⟩
  · rw [needInit_of_not_init hi]; rfl
  · rw [needInit_of_init hi, endBlitter_blitAll_noPosition hv (by simp)]
  · rw [needInit_of_init (h.cursor hv).1, endBlitter_blitAll_overrun (vs := [v]) h hv (by simp) hfit]
  · rw [needInit_of_init (h.cursor hv).1]
    obtain ⟨t, ht, hframe, hp⟩ := endBlitter_blitAll_draws (vs := [v]) h.fbCanonical hv ⟨hcol, hrow⟩
    refine ⟨t, by rw [ht], ?_, hp.congr (fun _ _ => Iff.rfl) fun c y hcy => ?_⟩
    · simpa [advance] using hframe
    · simp [columnPixel, show c - s.cur.column = 0 by simp only [inRect, List.length_singleton] at hcy; omega]

/-! ## DRAW_BLANK_COLUMNS (R136) -/

theorem exec_drawBlankColumns (n : BitVec 16) (inverted : Bool) (s : State) :
    exec (.drawBlankColumns n inverted) s =
      .next (endBlitter s (needInit s (blankColumns n.toNat inverted))) := rfl

theorem exec_drawBlankColumns_of_init (n : BitVec 16) (inverted : Bool) {s : State} (hw : Memory.wf s.fb = true)
    (hi : s.init = true) :
    exec (.drawBlankColumns n inverted) s =
      .next (endBlitter s (blitAll (blanks n.toNat s.cur.heightPx inverted) (beginCommand s))) := by
  rw [exec_drawBlankColumns, needInit_of_init hi, blankColumns_eq _ _ (beginCommand s) hw, blankColumn_eq,
    beginCommand_cur]

@[simp] theorem blanks_length (n h : Nat) (inverted : Bool) : (blanks n h inverted).length = n := List.length_replicate

theorem blanks_ne_nil {n : Nat} (h : 0 < n) (he : Nat) (inverted : Bool) : blanks n he inverted ≠ [] := by
  rw [← List.length_pos_iff, blanks_length]
  exact h

/-- `ones n` has its low `n` bits set (R12). -/
theorem getLsbD_ones {n : Nat} (hn : n ≤ 32) (k : Nat) : (ones n).getLsbD k = decide (k < n) := by
  rw [ones, BitVec.getLsbD_ofNat, Nat.testBit_two_pow_sub_one, ← Bool.decide_and, decide_eq_decide]
  omega

/-- Every pixel of blank columns is background, or ink when inverted (R136). -/
theorem columnPixel_blanks {n h c0 y0 c y : Nat} {inverted : Bool} (h32 : h ≤ 32) (hin : inRect c0 y0 n h c y) :
    columnPixel (blanks n h inverted) h c0 y0 c y = inverted := by
  obtain ⟨hc0, hcn, hy0, hyh⟩ := hin
  have hcol : c - c0 < n := by omega
  have hbit : h - 1 - (y - y0) < h := by omega
  cases inverted
  · simp [columnPixel, blanks, hcol]
  · simp [columnPixel, blanks, hcol, getLsbD_ones h32, hbit]

/-- Settles O23: DRAW_BLANK_COLUMNS is a run of columns of one value. -/
theorem drawBlankColumns : Obligations.DrawBlankColumns := by
  intro n inverted s h
  have hx := exec_drawBlankColumns_of_init n inverted h.fbCanonical
  have hlen := blanks_length n.toNat s.cur.heightPx inverted
  refine ⟨rfl, fun hi => ?_, fun hi hn hv => ?_, fun hv hn hfit => ?_, fun hi hn => ?_, fun hv hcol hrow => ?_⟩
  · rw [exec_drawBlankColumns, needInit_of_not_init hi]
    rfl
  · rw [hx hi, endBlitter_blitAll_noPosition hv (blanks_ne_nil hn _ _)]
  · rw [hx (h.cursor hv).1, endBlitter_blitAll_overrun h hv (blanks_ne_nil hn _ _) (by rwa [hlen])]
  · rw [hx hi, hn]
    rfl
  · obtain ⟨hi, -, h32, -⟩ := h.cursor hv
    rw [hx hi]
    obtain ⟨t, ht, hframe, hp⟩ := endBlitter_blitAll_draws h.fbCanonical hv (by rw [hlen]; exact ⟨hcol, hrow⟩)
    rw [hlen] at hframe hp
    exact ⟨t, by rw [ht], hframe, hp.congr (fun _ _ => Iff.rfl) fun c y hcy => (columnPixel_blanks h32 hcy).symm⟩

/-! ## Positions and runs (R137) -/

/-- Settles O25: `setpos` and the blits are one `drawAt`. -/
theorem cursorAfterBlits : Obligations.CursorAfterBlits := by
  intro h c r vs s u t hw hu ht
  have hd : DrawnAt s t h c r vs := drawAt_ok hw (by rw [drawAt, hu]; exact ht)
  refine ⟨?_, ?_, fun i j hi hj => ?_⟩
  · rw [hd.cur]; rfl
  · rw [hd.cur, advance_cursorAt]; rfl
  · rw [hd.painted.inside _ _ (by simp only [inRect]; omega)]
    simp [columnPixel]

end Sys2Proof.Machine
end

section
/-! SUPPORT. One column, byte by byte (R135, R138): which bits of which bytes a column takes, and that these bits and the
bytes' old values determine the FrameBuffer, whether it was written pixel by pixel or by masks and shifts. -/

namespace Sys2Proof.Machine

/-! ## The bits of a column -/

/-- From `fb` to `fb'` exactly the column of value `v` at the Cursor was written, said in bits: position `p`, counted
down from the top bit of the byte at `byteOffset`, is bit `7 - p % 8` of byte `p / 8` from there; the column's row `j`
stands at position `s + j`. -/
structure WritesColumn (cur : Cursor) (v : Column) (fb fb' : Memory) : Prop where
  inside : ∀ p, cur.s ≤ p → p < cur.s + cur.heightPx →
    (Memory.read fb' (cur.byteOffset + p / 8)).getLsbD (7 - p % 8) = v.getLsbD (cur.heightPx - 1 - (p - cur.s))
  outside : ∀ i b, (∀ p, cur.s ≤ p → p < cur.s + cur.heightPx → ¬ (cur.byteOffset + p / 8 = i ∧ 7 - p % 8 = b)) →
    (Memory.read fb' i).getLsbD b = (Memory.read fb i).getLsbD b

/-- A column determines the FrameBuffer after it. -/
theorem WritesColumn.unique {cur : Cursor} {v : Column} {fb fb' fb'' : Memory} (h : WritesColumn cur v fb fb')
    (h' : WritesColumn cur v fb fb'') (hw : Memory.wf fb' = true) (hw' : Memory.wf fb'' = true) : fb' = fb'' := by
  refine Memory.ext_read hw hw' fun i => byte_ext fun b => ?_
  by_cases hb : ∃ p, cur.s ≤ p ∧ p < cur.s + cur.heightPx ∧ cur.byteOffset + p / 8 = i ∧ 7 - p % 8 = b
  · obtain ⟨p, hlo, hhi, rfl, rfl⟩ := hb
    rw [h.inside p hlo hhi, h'.inside p hlo hhi]
  · have hout : ∀ p, cur.s ≤ p → p < cur.s + cur.heightPx → ¬ (cur.byteOffset + p / 8 = i ∧ 7 - p % 8 = b) :=
      fun p hlo hhi he => hb ⟨p, hlo, hhi, he⟩
    rw [h.outside i b hout, h'.outside i b hout]

/-! ## Pixel by pixel (R133) -/

theorem pixIndex_column (hw : HardwareProfile) (h c r j : Nat) :
    pixIndex hw c (r + j) = (cursorAt hw h c r).byteOffset + ((cursorAt hw h c r).s + j) / 8 := by
  simp only [pixIndex, cursorAt]
  omega

theorem pixBit_column (hw : HardwareProfile) (h c r j : Nat) :
    pixBit .msbTop hw (r + j) = 7 - ((cursorAt hw h c r).s + j) % 8 := by
  simp only [pixBit, cursorAt]
  omega

/-- A blit writes its column (R133), with the top pixel of a page in the most significant bit (R73). -/
theorem Blitted.writesColumn {s t : State} {v : Column} (hb : Blitted s t [v])
    (hat : s.cur = cursorAt s.hw s.cur.heightPx s.cur.column s.cur.rowPx) (ho : s.cfg.pixelBitOrder = .msbTop) :
    WritesColumn s.cur v s.fb t.fb := by
  have hpos : ∀ j, pixIndex s.hw s.cur.column (s.cur.rowPx + j) = s.cur.byteOffset + (s.cur.s + j) / 8 ∧
      pixBit .msbTop s.hw (s.cur.rowPx + j) = 7 - (s.cur.s + j) % 8 := fun j => by
    have hi := pixIndex_column s.hw s.cur.heightPx s.cur.column s.cur.rowPx j
    have hbit := pixBit_column s.hw s.cur.heightPx s.cur.column s.cur.rowPx j
    rw [← hat] at hi hbit
    exact ⟨hi, hbit⟩
  constructor
  case inside =>
    intro p hlo hhi
    have hpix := hb.painted.inside s.cur.column (s.cur.rowPx + (p - s.cur.s))
      (by simp only [inRect, List.length_singleton]; omega)
    obtain ⟨hi, hbit⟩ := hpos (p - s.cur.s)
    rw [pixRead, hb.canvas.hw_eq, hb.canvas.cfg_eq, ho, hi, hbit, Nat.add_sub_cancel' hlo] at hpix
    rw [hpix]
    simp [columnPixel]
  case outside =>
    intro i b hout
    refine hb.painted.outsideBit i b fun c y hcy hib => ?_
    obtain ⟨hlo, hhi, htop, hbottom⟩ := hcy
    obtain rfl : c = s.cur.column := by rw [List.length_singleton] at hhi; omega
    obtain ⟨j, rfl⟩ := Nat.exists_eq_add_of_le htop
    obtain ⟨hi, hbit⟩ := hpos j
    rw [ho, hi, hbit] at hib
    exact hout (s.cur.s + j) (by omega) (by omega) hib

/-- The same under the core's invariants. -/
theorem blit_writesColumn {v : Column} {s t : State} (h : Invariant s) (hx : blit v s = .ok t) :
    WritesColumn s.cur v s.fb t.fb ∧ Memory.wf t.fb = true := by
  obtain ⟨hv, -, hb⟩ := blit_ok h.fbCanonical hx
  obtain ⟨-, -, -, -, -, -, hat⟩ := h.cursor hv
  exact ⟨hb.writesColumn hat (configLegal_parts h.configLegal).pixelBitOrder, hb.wf⟩

/-! ## Byte by byte (R135) -/

/-- `n` bytes from `base` on, byte `k` replaced by `f k` of its value. -/
def updateBytes (base : Nat) (f : Nat → Byte → Byte) (n : Nat) (fb : Memory) : Memory :=
  (List.range n).foldl (fun fb k => Memory.write fb (base + k) (f k (Memory.read fb (base + k)))) fb

theorem updateBytes_succ (base : Nat) (f : Nat → Byte → Byte) (n : Nat) (fb : Memory) :
    updateBytes base f (n + 1) fb = Memory.write (updateBytes base f n fb) (base + n)
      (f n (Memory.read (updateBytes base f n fb) (base + n))) := by
  simp [updateBytes, List.range_succ]

theorem updateBytes_wf {base : Nat} {f : Nat → Byte → Byte} {n : Nat} {fb : Memory} (hw : Memory.wf fb = true) :
    Memory.wf (updateBytes base f n fb) = true := by
  induction n with
  | zero => exact hw
  | succ n ih => rw [updateBytes_succ]; exact Memory.wf_write ih _ _

theorem read_updateBytes_outside {base : Nat} {f : Nat → Byte → Byte} {n : Nat} {fb : Memory} {i : Nat}
    (hw : Memory.wf fb = true) (hi : ∀ k, k < n → base + k ≠ i) :
    Memory.read (updateBytes base f n fb) i = Memory.read fb i := by
  induction n with
  | zero => rfl
  | succ n ih =>
    rw [updateBytes_succ, Memory.read_write (updateBytes_wf hw), if_neg (hi n (by omega)), ih fun k hk => hi k (by omega)]

theorem read_updateBytes_inside {base : Nat} {f : Nat → Byte → Byte} {n : Nat} {fb : Memory} {k : Nat}
    (hw : Memory.wf fb = true) (hk : k < n) :
    Memory.read (updateBytes base f n fb) (base + k) = f k (Memory.read fb (base + k)) := by
  induction n with
  | zero => omega
  | succ n ih =>
    rw [updateBytes_succ, Memory.read_write (updateBytes_wf hw)]
    by_cases hkn : k = n
    · subst hkn
      rw [if_pos rfl, read_updateBytes_outside hw fun j hj => by omega]
    · rw [if_neg (by omega), ih (by omega)]

/-- Byte `k` of a column value that is aligned in a span of bits, the span's first byte on top (R135). -/
def spanByte (span a : Nat) (x : Column) (k : Nat) : Byte := BitVec.ofNat 8 (x.toNat * 2 ^ a / 2 ^ (span - 8 - 8 * k))

/-- A byte with the bits of a mask replaced (R135). -/
def maskedByte (mask data old : Byte) : Byte := (old &&& ~~~mask) ||| (data &&& mask)

theorem byteBlit_eq_updateBytes (cur : Cursor) (v : Column) (fb : Memory) :
    byteBlit cur v fb = updateBytes cur.byteOffset
      (fun k => maskedByte (spanByte cur.roundedHeight (cur.roundedHeight - cur.s - cur.heightPx) cur.bitMask k)
        (spanByte cur.roundedHeight (cur.roundedHeight - cur.s - cur.heightPx) (v &&& cur.bitMask) k))
      (cur.roundedHeight / 8) fb := rfl

theorem getLsbD_maskedByte (mask data old : Byte) {b : Nat} (hb : b < 8) :
    (maskedByte mask data old).getLsbD b = if mask.getLsbD b then data.getLsbD b else old.getLsbD b := by
  simp only [maskedByte, BitVec.getLsbD_or, BitVec.getLsbD_and, BitVec.getLsbD_not, hb]
  cases mask.getLsbD b <;> simp

/-- Position `p` of the span is bit `span - 1 - p` of the aligned value. -/
theorem getLsbD_spanByte {n a : Nat} (x : Column) {p : Nat} (hp : p < 8 * n) :
    (spanByte (8 * n) a x (p / 8)).getLsbD (7 - p % 8) =
      (decide (a ≤ 8 * n - 1 - p) && x.getLsbD (8 * n - 1 - p - a)) := by
  have hbit : 7 - p % 8 + (8 * n - 8 - 8 * (p / 8)) = 8 * n - 1 - p := by omega
  rw [spanByte, BitVec.getLsbD_ofNat, Nat.testBit_div_two_pow, hbit, Nat.testBit_mul_two_pow,
    BitVec.testBit_toNat]
  simp [show 7 - p % 8 < 8 by omega]

section

variable {cur : Cursor} {n : Nat} {fb : Memory} (v : Column) (hfb : Memory.wf fb = true)
    (hspan : cur.roundedHeight = 8 * n) (hfit : cur.s + cur.heightPx ≤ 8 * n)
    (hmask : cur.bitMask = ones cur.heightPx) (h32 : cur.heightPx ≤ 32)
include hfb hspan hfit hmask h32

/-- What the byte-level blit leaves at position `p` of its span (R135): the mask is set at the column's rows only. -/
theorem getLsbD_read_byteBlit {p : Nat} (hp : p < 8 * n) :
    (Memory.read (byteBlit cur v fb) (cur.byteOffset + p / 8)).getLsbD (7 - p % 8) =
      if cur.s ≤ p ∧ p < cur.s + cur.heightPx then v.getLsbD (cur.heightPx - 1 - (p - cur.s))
      else (Memory.read fb (cur.byteOffset + p / 8)).getLsbD (7 - p % 8) := by
  rw [byteBlit_eq_updateBytes, read_updateBytes_inside hfb (by omega), getLsbD_maskedByte _ _ _ (by omega), hspan, hmask,
    getLsbD_spanByte _ hp, getLsbD_spanByte _ hp, BitVec.getLsbD_and, getLsbD_ones h32]
  by_cases hrow : cur.s ≤ p ∧ p < cur.s + cur.heightPx
  · have ha : 8 * n - cur.s - cur.heightPx ≤ 8 * n - 1 - p := by omega
    have hbit : 8 * n - 1 - p - (8 * n - cur.s - cur.heightPx) = cur.heightPx - 1 - (p - cur.s) := by omega
    have hlt : cur.heightPx - 1 - (p - cur.s) < cur.heightPx := by omega
    simp [hrow, ha, hbit, hlt]
  · have hmask0 : ¬ (8 * n - cur.s - cur.heightPx ≤ 8 * n - 1 - p ∧
        8 * n - 1 - p - (8 * n - cur.s - cur.heightPx) < cur.heightPx) := by omega
    rw [if_neg hrow, ← Bool.decide_and, if_neg (by simpa using hmask0)]

/-- The byte-level blit writes its column (R135). -/
theorem byteBlit_writesColumn : WritesColumn cur v fb (byteBlit cur v fb) := by
  constructor
  case inside =>
    intro p hlo hhi
    rw [getLsbD_read_byteBlit v hfb hspan hfit hmask h32 (by omega), if_pos ⟨hlo, hhi⟩]
  case outside =>
    intro i b hout
    by_cases hin : cur.byteOffset ≤ i ∧ i < cur.byteOffset + n ∧ b < 8
    · have hi : cur.byteOffset + (8 * (i - cur.byteOffset) + (7 - b)) / 8 = i := by omega
      have hb : 7 - (8 * (i - cur.byteOffset) + (7 - b)) % 8 = b := by omega
      have hread := getLsbD_read_byteBlit v hfb hspan hfit hmask h32
        (show 8 * (i - cur.byteOffset) + (7 - b) < 8 * n by omega)
      rwa [if_neg fun hrow => hout _ hrow.1 hrow.2 ⟨hi, hb⟩, hi, hb] at hread
    · by_cases hb : b < 8
      · rw [byteBlit_eq_updateBytes, read_updateBytes_outside hfb fun k hk => by omega]
      · rw [BitVec.getLsbD_of_ge _ _ (by omega), BitVec.getLsbD_of_ge _ _ (by omega)]

end

theorem byteBlit_wf {cur : Cursor} {v : Column} {fb : Memory} (hw : Memory.wf fb = true) :
    Memory.wf (byteBlit cur v fb) = true := by
  rw [byteBlit_eq_updateBytes]
  exact updateBytes_wf hw

/-- The span of a Cursor that `setpos` set holds its column (R131). -/
theorem cursorAt_span (hw : HardwareProfile) (h c r : Nat) :
    ∃ n, (cursorAt hw h c r).roundedHeight = 8 * n ∧ (cursorAt hw h c r).s + (cursorAt hw h c r).heightPx ≤ 8 * n := by
  refine ⟨ceilDiv ((r + hw.yOffset) % 8 + h) 8, rfl, ?_⟩
  simp only [cursorAt, ceilDiv]
  omega

/-- Settles O24: both blits write the Cursor's column, which determines the FrameBuffer. -/
theorem byteLevelBlit : Obligations.ByteLevelBlit := by
  intro v s h hv hcol hrow
  obtain ⟨-, -, h32, -, -, -, hat⟩ := h.cursor hv
  obtain ⟨t, ht⟩ := blit_exists (v := v) hv ⟨hcol, hrow⟩
  obtain ⟨hpixels, hwf⟩ := blit_writesColumn h ht
  obtain ⟨n, hspan, hfit⟩ := cursorAt_span s.hw s.cur.heightPx s.cur.column s.cur.rowPx
  rw [← hat] at hspan hfit
  have hmask : s.cur.bitMask = ones s.cur.heightPx := congrArg Cursor.bitMask hat
  have hbytes := byteBlit_writesColumn v h.fbCanonical hspan hfit hmask h32
  exact ⟨t, ht, hpixels.unique hbytes hwf (byteBlit_wf h.fbCanonical)⟩

/-! ## A value over two bytes (R138) -/

theorem getLsbD_lowMask (n : Nat) {k : Nat} (hk : k < 8) :
    (BitVec.ofNat 8 (2 ^ n - 1)).getLsbD k = decide (k < n) := by
  rw [BitVec.getLsbD_ofNat, Nat.testBit_two_pow_sub_one]
  simp [hk]

/-- An 8-bit column value at an unaligned row is read back from the two bytes it lies in. -/
theorem WritesColumn.readBack {cur : Cursor} {v : Byte} {fb fb' : Memory}
    (hc : WritesColumn cur (v.setWidth 32) fb fb') (hheight : cur.heightPx = 8) (hs : cur.s < 8) :
    ((Memory.read fb' cur.byteOffset &&& BitVec.ofNat 8 (2 ^ (8 - cur.s) - 1)) <<< cur.s) |||
      (Memory.read fb' (cur.byteOffset + 1) >>> (8 - cur.s)) = v := by
  refine BitVec.eq_of_getLsbD_eq fun b hb => ?_
  have hinside := hc.inside (cur.s + (7 - b)) (by omega) (by omega)
  rw [hheight, show 8 - 1 - (cur.s + (7 - b) - cur.s) = b by omega, BitVec.getLsbD_setWidth,
    decide_eq_true (show b < 32 by omega), Bool.true_and] at hinside
  simp only [BitVec.getLsbD_or, BitVec.getLsbD_shiftLeft, BitVec.getLsbD_and, BitVec.getLsbD_ushiftRight]
  by_cases hbs : b < cur.s
  · rw [show (cur.s + (7 - b)) / 8 = 1 by omega, show 7 - (cur.s + (7 - b)) % 8 = 8 - cur.s + b by omega] at hinside
    simp [hbs, hinside]
  · rw [show (cur.s + (7 - b)) / 8 = 0 by omega, show 7 - (cur.s + (7 - b)) % 8 = b - cur.s by omega] at hinside
    rw [getLsbD_lowMask _ (by omega)]
    have hhigh : (Memory.read fb' (cur.byteOffset + 1)).getLsbD (8 - cur.s + b) = false :=
      BitVec.getLsbD_of_ge _ _ (by omega)
    simpa [hbs, hhigh, hb, show b - cur.s < 8 - cur.s by omega] using hinside

/-- Settles O26: a column's bits are the value's, and every other bit is the old one. -/
theorem shiftCorrectness : Obligations.ShiftCorrectness := by
  intro v s t h hv hheight hs ht
  obtain ⟨hc, -⟩ := blit_writesColumn h ht
  obtain ⟨-, -, -, -, -, -, hat⟩ := h.cursor hv
  have hs8 : s.cur.s < 8 := by rw [hat]; exact Nat.mod_lt _ (by omega)
  refine ⟨hc.readBack hheight hs8, byte_ext fun b => ?_, byte_ext fun b => ?_, fun i h0 h1 => byte_ext fun b => ?_⟩
  · rw [BitVec.getLsbD_ushiftRight, BitVec.getLsbD_ushiftRight]
    exact hc.outside _ _ fun p hlo hhi => by omega
  · by_cases hb : b < 8 - s.cur.s
    · rw [BitVec.getLsbD_and, BitVec.getLsbD_and, hc.outside _ b fun p hlo hhi => by omega]
    · by_cases hb8 : b < 8
      · rw [BitVec.getLsbD_and, BitVec.getLsbD_and, getLsbD_lowMask _ hb8]
        simp [hb]
      · rw [BitVec.getLsbD_of_ge _ _ (by omega), BitVec.getLsbD_of_ge _ _ (by omega)]
  · exact hc.outside i b fun p hlo hhi => by omega

end Sys2Proof.Machine
end

section
/-! SUPPORT. Text decoding (R153 to R157): `utf8Next` reads exactly the UTF-8 sequences of the scalar values other than
NUL, so that the rounds of `decode` over a string are the steps of the layout over its characters. -/

namespace Sys2Proof.Machine

/-! ## The first byte of a sequence (R153) -/

theorem utf8Lead_one {b : Nat} (h : b ≤ 0x7F) : utf8Lead b = some (b, []) := if_pos h

theorem utf8Lead_two {b : Nat} (hlo : 0xC2 ≤ b) (hhi : b ≤ 0xDF) : utf8Lead b = some (b - 0xC0, [(0x80, 0xBF)]) := by
  rw [utf8Lead, if_neg (by omega), if_neg (by omega), if_pos hhi]

theorem utf8Lead_three {b : Nat} (hlo : 0xE0 ≤ b) (hhi : b ≤ 0xEF) :
    utf8Lead b = some (b - 0xE0,
      [(if b = 0xE0 then 0xA0 else 0x80, if b = 0xED then 0x9F else 0xBF), (0x80, 0xBF)]) := by
  interval_cases b <;> rfl

theorem utf8Lead_four {b : Nat} (hlo : 0xF0 ≤ b) (hhi : b ≤ 0xF4) :
    utf8Lead b = some (b - 0xF0,
      [(if b = 0xF0 then 0x90 else 0x80, if b = 0xF4 then 0x8F else 0xBF), (0x80, 0xBF), (0x80, 0xBF)]) := by
  interval_cases b <;> rfl

/-- The first bytes that begin a sequence, by its length; no other byte begins one. -/
theorem utf8Lead_cases (b : Nat) :
    b ≤ 0x7F ∨ (0xC2 ≤ b ∧ b ≤ 0xDF) ∨ (0xE0 ≤ b ∧ b ≤ 0xEF) ∨ (0xF0 ≤ b ∧ b ≤ 0xF4) ∨ utf8Lead b = none := by
  by_cases hcont : 0x80 ≤ b ∧ b < 0xC2
  · have hnone : utf8Lead b = none := by rw [utf8Lead, if_neg (by omega), if_pos hcont.2]
    simp [hnone]
  · by_cases hhigh : 0xF4 < b
    · have hnone : utf8Lead b = none := by
        rw [utf8Lead]
        iterate 10 rw [if_neg (by omega)]
      simp [hnone]
    · omega

/-! ## The bytes that follow (R153) -/

@[simp] theorem utf8Follow_nil (acc : Nat) (bytes : List Byte) : utf8Follow acc [] bytes = some acc := by
  cases bytes <;> rfl

@[simp] theorem utf8Follow_cons_eq_some {acc lo hi cp : Nat} {ranges : List (Nat × Nat)} {bytes : List Byte} :
    utf8Follow acc ((lo, hi) :: ranges) bytes = some cp ↔
      ∃ b rest, bytes = b :: rest ∧ (lo ≤ b.toNat ∧ b.toNat ≤ hi) ∧
        utf8Follow (acc * 64 + (b.toNat - 0x80)) ranges rest = some cp := by
  cases bytes with
  | nil => simp [utf8Follow]
  | cons b rest => simp [utf8Follow]

/-! ## One sequence (R153) -/

theorem utf8Next_cons_eq_some {b : Byte} {bytes : List Byte} {acc cp n : Nat} {ranges : List (Nat × Nat)}
    (hlead : utf8Lead b.toNat = some (acc, ranges)) :
    utf8Next (b :: bytes) = some (cp, n) ↔
      b.toNat ≠ 0 ∧ utf8Follow acc ranges bytes = some cp ∧ 1 + ranges.length = n := by
  by_cases hb : b = 0#8
  · simp [utf8Next, hb]
  · have hpos : b.toNat ≠ 0 := fun h => hb (BitVec.eq_of_toNat_eq h)
    simp [utf8Next, hb, hpos, hlead]

theorem toNat_byteOfNat {x : Nat} (h : x < 256) : (BitVec.ofNat 8 x).toNat = x := by
  rw [BitVec.toNat_ofNat, Nat.mod_eq_of_lt h]

theorem utf8Bytes_length_pos (cp : Nat) : 0 < (utf8Bytes cp).length := by
  unfold utf8Bytes
  split_ifs <;> simp

/-- `utf8Next` reads the UTF-8 of a scalar value other than NUL, whatever follows it. -/
theorem utf8Next_utf8Bytes_append {cp : Nat} (hs : isScalar cp) (h0 : cp ≠ 0) (rest : List Byte) :
    utf8Next (utf8Bytes cp ++ rest) = some (cp, (utf8Bytes cp).length) := by
  unfold isScalar at hs
  unfold utf8Bytes
  split_ifs with h1 h2 h3
  · have hb := toNat_byteOfNat (show cp < 256 by omega)
    refine (utf8Next_cons_eq_some (utf8Lead_one (by omega))).2 ⟨by omega, ?_, rfl⟩
    rw [utf8Follow_nil, hb]
  · have hb := toNat_byteOfNat (show 0xC0 + cp / 64 < 256 by omega)
    have hc := toNat_byteOfNat (show 0x80 + cp % 64 < 256 by omega)
    refine (utf8Next_cons_eq_some (utf8Lead_two (by omega) (by omega))).2 ⟨by omega, ?_, rfl⟩
    simp only [utf8Follow_cons_eq_some, utf8Follow_nil, Option.some.injEq]
    exact ⟨_, _, rfl, by omega, by omega⟩
  · have hb := toNat_byteOfNat (show 0xE0 + cp / 4096 < 256 by omega)
    have hc := toNat_byteOfNat (show 0x80 + cp / 64 % 64 < 256 by omega)
    have hd := toNat_byteOfNat (show 0x80 + cp % 64 < 256 by omega)
    refine (utf8Next_cons_eq_some (utf8Lead_three (by omega) (by omega))).2 ⟨by omega, ?_, rfl⟩
    simp only [utf8Follow_cons_eq_some, utf8Follow_nil, Option.some.injEq]
    refine ⟨_, _, rfl, ?_, _, _, rfl, by omega, by omega⟩
    split_ifs <;> omega
  · have hb := toNat_byteOfNat (show 0xF0 + cp / 262144 < 256 by omega)
    have hc := toNat_byteOfNat (show 0x80 + cp / 4096 % 64 < 256 by omega)
    have hd := toNat_byteOfNat (show 0x80 + cp / 64 % 64 < 256 by omega)
    have he := toNat_byteOfNat (show 0x80 + cp % 64 < 256 by omega)
    refine (utf8Next_cons_eq_some (utf8Lead_four (by omega) (by omega))).2 ⟨by omega, ?_, rfl⟩
    simp only [utf8Follow_cons_eq_some, utf8Follow_nil, Option.some.injEq]
    refine ⟨_, _, rfl, ?_, _, _, rfl, by omega, _, _, rfl, by omega, by omega⟩
    split_ifs <;> omega

theorem byteOfNat_eq {b : Byte} {x : Nat} (h : x = b.toNat) : BitVec.ofNat 8 x = b := by
  rw [h, BitVec.ofNat_toNat, BitVec.setWidth_eq]

/-- What `utf8Next` reads is the UTF-8 of a scalar value other than NUL. -/
theorem scalar_of_utf8Next_eq_some {bytes : List Byte} {cp n : Nat} (h : utf8Next bytes = some (cp, n)) :
    isScalar cp ∧ cp ≠ 0 ∧ ∃ rest, bytes = utf8Bytes cp ++ rest := by
  cases bytes with
  | nil => cases h
  | cons b bytes =>
    unfold isScalar utf8Bytes
    obtain hb | ⟨hlo, hhi⟩ | ⟨hlo, hhi⟩ | ⟨hlo, hhi⟩ | hnone := utf8Lead_cases b.toNat
    · obtain ⟨h0, hfollow, -⟩ := (utf8Next_cons_eq_some (utf8Lead_one hb)).1 h
      simp only [utf8Follow_nil, Option.some.injEq] at hfollow
      refine ⟨by omega, by omega, bytes, ?_⟩
      rw [if_pos (by omega), byteOfNat_eq hfollow.symm]
      rfl
    · obtain ⟨h0, hfollow, -⟩ := (utf8Next_cons_eq_some (utf8Lead_two hlo hhi)).1 h
      simp only [utf8Follow_cons_eq_some, utf8Follow_nil, Option.some.injEq] at hfollow
      obtain ⟨c, rest, rfl, hc, hcp⟩ := hfollow
      refine ⟨by omega, by omega, rest, ?_⟩
      rw [if_neg (by omega), if_pos (by omega), byteOfNat_eq (b := b) (by omega), byteOfNat_eq (b := c) (by omega)]
      rfl
    · obtain ⟨h0, hfollow, -⟩ := (utf8Next_cons_eq_some (utf8Lead_three hlo hhi)).1 h
      simp only [utf8Follow_cons_eq_some, utf8Follow_nil, Option.some.injEq] at hfollow
      obtain ⟨c, _, rfl, hc, d, rest, rfl, hd, hcp⟩ := hfollow
      have hcont : 0x80 ≤ c.toNat ∧ c.toNat ≤ 0xBF := by split_ifs at hc <;> omega
      have hrange : 0x800 ≤ cp ∧ cp < 0x10000 ∧ (cp < 0xD800 ∨ 0xE000 ≤ cp) := by split_ifs at hc <;> omega
      refine ⟨by omega, by omega, rest, ?_⟩
      rw [if_neg (by omega), if_neg (by omega), if_pos (by omega), byteOfNat_eq (b := b) (by omega),
        byteOfNat_eq (b := c) (by omega), byteOfNat_eq (b := d) (by omega)]
      rfl
    · obtain ⟨h0, hfollow, -⟩ := (utf8Next_cons_eq_some (utf8Lead_four hlo hhi)).1 h
      simp only [utf8Follow_cons_eq_some, utf8Follow_nil, Option.some.injEq] at hfollow
      obtain ⟨c, _, rfl, hc, d, _, rfl, hd, e, rest, rfl, he, hcp⟩ := hfollow
      have hcont : 0x80 ≤ c.toNat ∧ c.toNat ≤ 0xBF := by split_ifs at hc <;> omega
      have hrange : 0x10000 ≤ cp ∧ cp < 0x110000 := by split_ifs at hc <;> omega
      refine ⟨by omega, by omega, rest, ?_⟩
      rw [if_neg (by omega), if_neg (by omega), if_neg (by omega), byteOfNat_eq (b := b) (by omega),
        byteOfNat_eq (b := c) (by omega), byteOfNat_eq (b := d) (by omega), byteOfNat_eq (b := e) (by omega)]
      rfl
    · simp [utf8Next, hnone] at h

/-- `utf8Next` stops at bytes that begin with the UTF-8 of no scalar value other than NUL. -/
theorem utf8Next_eq_none {bytes : List Byte} (h : ∀ cp rest, isScalar cp → cp ≠ 0 → bytes ≠ utf8Bytes cp ++ rest) :
    utf8Next bytes = none := by
  rw [Option.eq_none_iff_forall_ne_some]
  rintro ⟨cp, n⟩ hnext
  obtain ⟨hs, h0, rest, he⟩ := scalar_of_utf8Next_eq_some hnext
  exact h cp rest hs h0 he

/-! ## The rounds of `decode` (R154, R155) -/

theorem decodeLoop_of_stop {bytes : List Byte} (h : utf8Next bytes = none) (m : CharMap) (limit : Nat)
    (k : Option FontKind) (fuel w : Nat) : decodeLoop m limit k fuel bytes w = [] := by
  cases fuel with
  | zero => rfl
  | succ fuel => simp [decodeLoop, h]

/-- One round reads one character, as one step of the layout does. -/
theorem decodeLoop_utf8Bytes_append {cp : Nat} (hs : isScalar cp) (h0 : cp ≠ 0) (m : CharMap) (limit : Nat)
    (k : Option FontKind) (fuel : Nat) (rest : List Byte) (w : Nat) :
    decodeLoop m limit k (fuel + 1) (utf8Bytes cp ++ rest) w =
      if limit ≤ w then []
      else if dbl (charCode m cp) = true ∧ k = some .f8x6 then decodeLoop m limit k fuel rest w
      else if limit < w + cells (charCode m cp) then []
      else (charCode m cp, w) :: decodeLoop m limit k fuel rest (w + cells (charCode m cp)) := by
  simp only [decodeLoop, utf8Next_utf8Bytes_append hs h0, List.drop_left]

/-- The rounds over the UTF-8 of `chars` lay those characters out, from any width up to the limit. -/
theorem decodeLoop_flatMap_utf8Bytes (m : CharMap) (limit : Nat) (k : Option FontKind) {chars : List Nat}
    {tail : List Byte} (hchars : ∀ cp ∈ chars, isScalar cp ∧ cp ≠ 0) (htail : utf8Next tail = none) {fuel w : Nat}
    (hfuel : (chars.flatMap utf8Bytes).length ≤ fuel) (hw : w ≤ limit) :
    decodeLoop m limit k fuel (chars.flatMap utf8Bytes ++ tail) w = layoutChars m limit k w chars := by
  induction chars generalizing fuel w with
  | nil => exact decodeLoop_of_stop htail m limit k fuel w
  | cons cp chars ih =>
    obtain ⟨⟨hs, h0⟩, hchars⟩ := List.forall_mem_cons.1 hchars
    rw [List.flatMap_cons, List.length_append] at hfuel
    have hpos := utf8Bytes_length_pos cp
    obtain ⟨fuel, rfl⟩ : ∃ f, fuel = f + 1 := ⟨fuel - 1, by omega⟩
    have hrest {w : Nat} (hw : w ≤ limit) := ih hchars (fuel := fuel) (by omega) hw
    rw [List.flatMap_cons, List.append_assoc, decodeLoop_utf8Bytes_append hs h0, layoutChars]
    simp only [show limit ≤ w ↔ w = limit by omega]
    split_ifs with hfull hdrop hover
    · rfl
    · exact hrest hw
    · rfl
    · rw [hrest (by omega)]

/-- Settles O28, by induction on the characters: each round of `decode` reads one of them, and the tail stops it. -/
theorem decodeUtf8 : Obligations.DecodeUtf8 := by
  intro m limit k chars tail hchars htail
  exact decodeLoop_flatMap_utf8Bytes m limit k hchars (utf8Next_eq_none htail) (by simp) (Nat.zero_le limit)

/-! ## What `decode` answers, whatever the bytes are (R154, R155, R157) -/

/-- A property of a width and the glyphs laid out from there holds of what the rounds answer when it holds of no glyphs
and is kept by a glyph in front that the font has. -/
theorem decodeLoop_induction {m : CharMap} {limit : Nat} {k : Option FontKind}
    {P : Nat → List (GlyphCode × Nat) → Prop} (nil : ∀ w, P w [])
    (cons : ∀ w g rest, ¬ (dbl g = true ∧ k = some .f8x6) → P (w + cells g) rest → P w ((g, w) :: rest))
    (fuel : Nat) (bytes : List Byte) (w : Nat) : P w (decodeLoop m limit k fuel bytes w) := by
  induction fuel generalizing bytes w with
  | zero => exact nil w
  | succ fuel ih =>
    rw [decodeLoop]
    split_ifs
    · exact nil w
    · cases utf8Next bytes with
      | none => exact nil w
      | some p =>
        dsimp only
        split_ifs with hdrop hover
        · exact ih _ w
        · exact nil w
        · exact cons w _ _ hdrop (ih _ _)

/-- Each glyph stands where the ones before it end (R154). -/
theorem decodeLoop_column (m : CharMap) (limit : Nat) (k : Option FontKind) (fuel : Nat) (bytes : List Byte) (w : Nat) :
    ∀ before g col after, decodeLoop m limit k fuel bytes w = before ++ (g, col) :: after →
      col = w + textWidth before := by
  refine decodeLoop_induction (P := fun w out => ∀ before g col after, out = before ++ (g, col) :: after →
    col = w + textWidth before) ?nil ?cons fuel bytes w
  case nil =>
    intro w before g col after h
    simp at h
  case cons =>
    intro w g rest _ ih before g' col after h
    cases before with
    | nil =>
      obtain ⟨⟨-, rfl⟩, -⟩ : (g = g' ∧ w = col) ∧ rest = after := by simpa using h
      rfl
    | cons first before =>
      obtain ⟨rfl, hrest⟩ := List.cons.inj h
      rw [ih before g' col after hrest, textWidth, Nat.add_assoc]

/-- The 8-pixel font gets no double-width glyph (R155). -/
theorem decodeLoop_f8x6_single (m : CharMap) (limit fuel : Nat) (bytes : List Byte) (w : Nat) :
    ∀ g col, (g, col) ∈ decodeLoop m limit (some .f8x6) fuel bytes w → dbl g = false := by
  refine decodeLoop_induction (P := fun _ out => ∀ g col, (g, col) ∈ out → dbl g = false) ?nil ?cons fuel bytes w
  case nil =>
    intro w g col h
    cases h
  case cons =>
    intro w g rest hfont ih g' col h
    obtain he | hrest := List.mem_cons.1 h
    · cases he
      simpa using hfont
    · exact ih g' col hrest

/-- Settles O29: the limit is `textWidth_le`, the columns and the font are facts of every round. -/
theorem decodeWidth : Obligations.DecodeWidth := by
  intro m bytes limit k
  refine ⟨?limit, fun before g col after h => ?column, ?font⟩
  case limit => simpa [decodeText] using textWidth_le m limit k bytes.length bytes 0 (Nat.zero_le limit)
  case column => simpa using decodeLoop_column m limit k bytes.length bytes 0 before g col after h
  case font =>
    rintro rfl
    exact decodeLoop_f8x6_single m limit bytes.length bytes 0

end Sys2Proof.Machine
end

section
/-! SUPPORT. DRAW_LINE in an active mode (R200 to R209): its checks in order, then one piece. -/

namespace Sys2Proof.Machine

theorem exec_drawLine (row : BitVec 4) (text : List Byte) (cc cw : BitVec 8) (invert aL aR : Bool) (s : State) :
    exec (.drawLine row text cc cw invert aL aR) s =
      withMode s fun m t => lineRender m row.toNat text cc.toNat cw.toNat invert aL aR t := rfl

section
variable {m : DisplayMode} {row : Nat} {text : List Byte} {cc cw : Nat} {invert aL aR : Bool} {s : State}

/-- A row of the mode that is no higher than a Cursor is drawn as its piece. -/
theorem lineRender_eq_piece (hw : Memory.wf s.fb = true) (hr : RomLegal s.cfg.rom) (hrow : row < m.charRows)
    (hh : lineHeight m row ≤ 32) :
    lineRender m row text cc cw invert aL aR s = drawPieces [linePiece s.cfg m row text cc cw invert aL aR] s := by
  rw [lineRender_eq hw hr, if_neg (Nat.not_le.2 hrow), if_neg (Nat.not_lt.2 hh)]

theorem lineRender_layoutError (hw : Memory.wf s.fb = true) (hr : RomLegal s.cfg.rom)
    (h : m.charRows ≤ row ∨ 32 < lineHeight m row) :
    lineRender m row text cc cw invert aL aR s = .error .layoutError := by
  rw [lineRender_eq hw hr]
  by_cases hrow : m.charRows ≤ row
  · rw [if_pos hrow]
  · rw [if_neg hrow, if_pos (h.resolve_left hrow)]

/-- Whether a line fits depends on its row and its mode alone, not on its text (R206, R209). -/
theorem linePiece_fits_iff {c : Config} (hr : RomLegal c.rom) (hw : HardwareProfile) :
    (linePiece c m row text cc cw invert aL aR).fits hw ↔
      lineWidth m = 0 ∨ (lineWidth m ≤ wVis hw ∧ lineTop m row + lineHeight m row ≤ hw.heightPx) := by
  have hlen := lineColumns_length hr m row text cc cw invert aL aR
  rw [Piece.fits, ← List.length_eq_zero_iff]
  simp only [linePiece, hlen, Nat.zero_add]

theorem linePiece_heightLegal {c : Config} (hh : lineHeight m row ≤ 32) :
    HeightsLegal [linePiece c m row text cc cw invert aL aR] :=
  List.forall_mem_singleton.2 ⟨Nat.le_trans (by decide) (lineHeight_range m row), hh⟩

end

/-- Settles O30: a line is one piece, as wide whatever its text is. -/
theorem drawLineDraws : Obligations.DrawLineDraws := by
  intro row text cc cw invert aL aR s m ha hrow hh hfit
  refine ⟨lineColumns_length ha.rom m row.toNat text cc.toNat cw.toNat invert aL aR, ?_⟩
  rw [exec_drawLine]
  exact draw_active ha (lineRender_eq_piece ha.inv.fbCanonical ha.rom hrow hh) (linePiece_heightLegal hh)
    (List.forall_mem_singleton.2 ((linePiece_fits_iff ha.rom s.hw).2 hfit))

/-- Settles O31: the row and the height are checked before anything is drawn, the visible rectangle when it is. -/
theorem drawLineRejects : Obligations.DrawLineRejects := by
  intro row text cc cw invert aL aR s m ha
  rw [exec_drawLine]
  have hwf : Memory.wf (beginCommand s).fb = true := ha.inv.fbCanonical
  refine ⟨fun hrow => ?noRow, fun hhigh => ?tooHigh, fun hrow hh hpos hfit => ?notVisible⟩
  case noRow =>
    refine body_error (e := .layoutError) ha ?_
    exact lineRender_layoutError hwf ha.rom (.inl hrow)
  case tooHigh =>
    refine body_error (e := .layoutError) ha ?_
    exact lineRender_layoutError hwf ha.rom (.inr hhigh)
  case notVisible =>
    refine draw_error ha (lineRender_eq_piece hwf ha.rom hrow hh) (linePiece_heightLegal hh) ?_
    rw [List.forall_mem_singleton, linePiece_fits_iff ha.rom]
    exact not_or.2 ⟨Nat.ne_of_gt hpos, hfit⟩

end Sys2Proof.Machine
end

section
/-! SUPPORT. The rows of DRAW_SCREEN (R212 to R215): the piece of each row, the command that draws the same row, and
what the end of the screen makes of the per-line errors. -/

namespace Sys2Proof.Machine

theorem exec_drawScreen (cx : BitVec 8) (cy : BitVec 4) (on : Bool) (cw : BitVec 8) (lines : List ScreenLine)
    (s : State) :
    exec (.drawScreen cx cy on cw lines) s = withMode s (screenBody cx.toNat cy.toNat on cw.toNat lines) := rfl

theorem exec_drawBarcode (row : BitVec 4) (hex : List Byte) (s : State) :
    exec (.drawBarcode row hex) s = withMode s fun m t => barcodeRender m row.toNat hex t := rfl

/-- A barcode that is accepted and narrow enough is drawn as its piece. -/
theorem barcodeRender_eq_piece {m : DisplayMode} {row : Nat} {hex : List Byte} {ps : List (BitVec 9)} {s : State}
    (hw : Memory.wf s.fb = true) (hrow : row < m.charRows) (ht : BarcodeText hex ps)
    (hfit : barcodeWidth s.cfg ps.length ≤ wVis s.hw) :
    barcodeRender m row hex s = drawPieces [barcodePiece s.cfg s.hw m row ps] s := by
  rw [barcodeRender_eq hw, if_neg (Nat.not_le.2 hrow), (barcodeData_ok_iff hex ps).2 ht]
  exact if_neg (by rw [ht.columns_length]; exact Nat.not_lt.2 hfit)

/-! ## One row -/

section
variable {m : DisplayMode} {cx cy : Nat} {on : Bool} {cw : Nat} {line : ScreenLine} {row : Nat}

/-- A row that has a piece is drawn as that piece. -/
theorem screenRow_eq_piece {p : Piece} {s : State} (hw : Memory.wf s.fb = true) (hr : RomLegal s.cfg.rom)
    (hrow : row < m.charRows) (h : RowShows s.cfg s.hw m cx cy on cw line row p) :
    screenRow m cx cy on cw line row s = drawPieces [p] s := by
  obtain ⟨kind, aL, aR, text⟩ := line
  cases kind with
  | text =>
    obtain ⟨hh, rfl⟩ := h
    exact lineRender_eq_piece hw hr hrow hh
  | invertedText =>
    obtain ⟨hh, rfl⟩ := h
    exact lineRender_eq_piece hw hr hrow hh
  | barcode =>
    obtain ⟨patterns, ht, hfit, rfl⟩ := h
    exact barcodeRender_eq_piece hw hrow ht hfit

theorem RowShows.height {c : Config} {hw : HardwareProfile} {p : Piece}
    (h : RowShows c hw m cx cy on cw line row p) : 1 ≤ p.h ∧ p.h ≤ 32 := by
  have hline := Nat.le_trans (show 1 ≤ 8 by decide) (lineHeight_range m row)
  obtain ⟨kind, aL, aR, text⟩ := line
  cases kind with
  | text =>
    obtain ⟨hh, rfl⟩ := h
    exact ⟨hline, hh⟩
  | invertedText =>
    obtain ⟨hh, rfl⟩ := h
    exact ⟨hline, hh⟩
  | barcode =>
    obtain ⟨patterns, -, -, rfl⟩ := h
    exact fontH_legal m.fontKind

/-- Every row sets its own position first, so it does not read the Cursor that the row before it left. -/
theorem screenRow_withCursor (cur : Cursor) (s : State) :
    screenRow m cx cy on cw line row { s with cur := cur } = screenRow m cx cy on cw line row s := by
  obtain ⟨kind, aL, aR, text⟩ := line
  cases kind <;> rfl

end

/-- The command of a row runs that row of the screen. -/
theorem exec_rowCommand (cx : BitVec 8) (cy : BitVec 4) (on : Bool) (cw : BitVec 8) (line : ScreenLine) {row : Nat}
    (hrow : row < 16) (s : State) :
    exec (rowCommand cx cy on cw line row) s =
      withMode s fun m t => screenRow m cx.toNat cy.toNat on cw.toNat line row t := by
  have hindex : (BitVec.ofNat 4 row).toNat = row := Nat.mod_eq_of_lt hrow
  obtain ⟨kind, aL, aR, text⟩ := line
  cases kind <;>
    simp [rowCommand, screenRow, exec_drawLine, exec_drawBarcode, hindex, apply_ite BitVec.toNat]

/-! ## The end of the screen -/

/-- What DRAW_SCREEN makes of its rows: the first per-line error goes to STATUS, the drawing stays (R214). -/
def reportFirst : Result (State × Option ErrorKind) → Result State
  | .error e => .error e
  | .ok (t, none) => .ok t
  | .ok (t, some e) => .ok (raiseError e t)

theorem screenBody_eq {cx cy : Nat} {on : Bool} {cw : Nat} {lines : List ScreenLine} {m : DisplayMode} {s : State}
    (h : lines.length ≤ m.charRows) :
    screenBody cx cy on cw lines m s =
      reportFirst (screenRows m cx cy on cw lines (List.range m.charRows) s none) := by
  rw [screenBody, if_neg (Nat.not_lt.2 h)]
  obtain e | ⟨t, _ | e⟩ := screenRows m cx cy on cw lines (List.range m.charRows) s none <;> rfl

/-! ## The rows that all draw -/

/-- What the row loop answers when every row has its piece and the pieces are drawn. -/
theorem screenRows_of_drawPieces {m : DisplayMode} {cx cy : Nat} {on : Bool} {cw : Nat} {lines : List ScreenLine}
    {rows : List Nat} {ps : List Piece} {first : Option ErrorKind} {s t : State} (hw : Memory.wf s.fb = true)
    (hr : RomLegal s.cfg.rom)
    (hrows : List.Forall₂ (fun r p => r < m.charRows ∧ RowShows s.cfg s.hw m cx cy on cw (screenLine lines r) r p)
      rows ps)
    (hd : drawPieces ps s = .ok t) : screenRows m cx cy on cw lines rows s first = .ok (t, first) := by
  induction ps generalizing rows s with
  | nil =>
    cases hrows
    cases hd
    rfl
  | cons p ps ih =>
    obtain _ | ⟨⟨hrow, hshow⟩, hrest⟩ := hrows
    have hpiece := screenRow_eq_piece hw hr hrow hshow
    rw [drawPieces_one] at hpiece
    rw [drawPieces] at hd
    cases hu : drawAt p.h p.x p.y p.cols s with
    | error e => rw [hu] at hd; cases hd
    | ok u =>
      rw [hu] at hd hpiece
      have hc := drawAt_ok hw hu
      simp only [screenRows, hpiece]
      refine ih hc.wf (by rw [hc.canvas.cfg_eq]; exact hr) ?_ hd
      rw [hc.canvas.cfg_eq, hc.canvas.hw_eq]
      exact hrest

/-- Settles O32: the rows are the pieces in order, and the pieces are drawn because they fit. -/
theorem drawScreenDraws : Obligations.DrawScreenDraws := by
  intro cx cy on cw lines s m ps ha hlines hlen hps
  have hpieces : ∀ p ∈ ps, (1 ≤ p.h ∧ p.h ≤ 32) ∧ p.fits s.hw := fun p hp => by
    obtain ⟨r, hr⟩ := List.mem_iff_getElem?.1 hp
    obtain ⟨hshow, hfit⟩ := hps r p hr
    exact ⟨hshow.height, hfit⟩
  have hheights : HeightsLegal ps := fun p hp => (hpieces p hp).1
  have hfits : ∀ p ∈ ps, p.fits s.hw := fun p hp => (hpieces p hp).2
  have hrows : List.Forall₂ (fun r p => r < m.charRows ∧
      RowShows s.cfg s.hw m cx.toNat cy.toNat on cw.toNat (screenLine lines r) r p) (List.range m.charRows) ps := by
    rw [List.forall₂_iff_get]
    refine ⟨by simp [hlen], fun r hr hr' => ?_⟩
    simp only [List.get_eq_getElem, List.getElem_range]
    exact ⟨by simpa using hr, (hps r _ (List.getElem?_eq_getElem hr')).1⟩
  obtain ⟨t, ht⟩ := drawPieces_exists (s := beginCommand s) ha.inv.fbCanonical ha.init hheights hfits
  have hbody : screenBody cx.toNat cy.toNat on cw.toNat lines m (beginCommand s) = drawPieces ps (beginCommand s) := by
    rw [screenBody_eq hlines, ht,
      screenRows_of_drawPieces (s := beginCommand s) ha.inv.fbCanonical ha.rom hrows ht]
    rfl
  rw [exec_drawScreen]
  exact draw_active ha hbody hheights hfits

/-! ## The rows one command after another -/

/-- STATUS after the rows so far: the code of the first per-line error. -/
def firstCode (first : Option ErrorKind) : BitVec 8 := first.elim 0x00 errorCode

theorem firstCode_or (first : Option ErrorKind) (e : ErrorKind) :
    firstCode (first.or (some e)) = if firstCode first = 0x00 then errorCode e else firstCode first := by
  cases first with
  | none => rfl
  | some e' => exact (if_neg (errorCode_ne_zero e')).symm

/-- The codes after which the rows go on are those of the per-line errors (R214). -/
theorem goesOn_iff (e : ErrorKind) :
    errorCode e = 0x00 ∨ errorCode e = 0x03 ∨ errorCode e = 0x04 ↔ perLineError e = true := by
  cases e <;> decide

/-- The end of a screen whose rows are done. -/
theorem endCommand_reportFirst {s u : State} (h : OnlyCanvas (beginCommand s) u) (first : Option ErrorKind) :
    endCommand s (reportFirst (.ok (u, first))) = { drawn s u.fb with status := firstCode first } := by
  unfold OnlyCanvas at h
  rw [h]
  cases first <;> rfl

/-- The rows from any point on: `s` is where the commands of the rows before have come to, and the working copy of the
screen is what the next command would start from, with another Cursor. -/
theorem drawRows_eq_screenRows (cx : BitVec 8) (cy : BitVec 4) (on : Bool) (cw : BitVec 8) (lines : List ScreenLine)
    {m : DisplayMode} {s0 s : State} {rows : List Nat} (hrows : ∀ r ∈ rows, r < 16) (ha : Active s m)
    (hs : OnlyCanvas (beginCommand s0) (beginCommand s)) (cur : Cursor) (first : Option ErrorKind) :
    drawRows s0 (rows.map fun r => rowCommand cx cy on cw (screenLine lines r) r) (firstCode first) s =
      .next (endCommand s0 (reportFirst
        (screenRows m cx.toNat cy.toNat on cw.toNat lines rows { beginCommand s with cur := cur } first))) := by
  induction rows generalizing s cur first with
  | nil =>
    have hu : OnlyCanvas (beginCommand s0) { beginCommand s with cur := cur } := hs.trans rfl
    rw [screenRows, endCommand_reportFirst hu]
    rfl
  | cons r rows ih =>
    obtain ⟨hr, hrest⟩ := List.forall_mem_cons.1 hrows
    have hends := screenRow_ends (m := m) (cx := cx.toNat) (cy := cy.toNat) (on := on) (cw := cw.toNat)
      (line := screenLine lines r) (r := r) (s := beginCommand s) ha.init
    have hx := exec_rowCommand cx cy on cw (screenLine lines r) hr s
    rw [withMode_active ha] at hx
    rw [List.map_cons, drawRows, screenRows, screenRow_withCursor]
    cases hd : screenRow m cx.toNat cy.toNat on cw.toNat (screenLine lines r) r (beginCommand s) with
    | ok t =>
      rw [hd] at hends hx
      obtain ⟨ht, -⟩ := hends
      rw [endCommand_canvas ht] at hx
      have hact : Active (drawn s t.fb) m := ⟨exec_invariant ha.inv hx, ha.init, ha.modeValid, ha.mode⟩
      have hcopy : t = { beginCommand (drawn s t.fb) with cur := t.cur } := ht
      have hcode : (if firstCode first = 0x00 then (drawn s t.fb).status else firstCode first) = firstCode first :=
        ite_eq_right_iff.2 Eq.symm
      simp only [hx, hcode]
      rw [if_pos (.inl rfl), ih hrest hact (hs.trans rfl) t.cur first, ← hcopy]
    | error e =>
      rw [hd, endCommand_error_eq] at hx
      have hact : Active (failed s (errorCode e)) m := ⟨exec_invariant ha.inv hx, ha.init, ha.modeValid, ha.mode⟩
      have hstatus : (failed s (errorCode e)).status = errorCode e := rfl
      simp only [hx, hstatus, goesOn_iff, ← firstCode_or]
      by_cases he : perLineError e = true
      · rw [if_pos he, if_pos he]
        exact ih hrest hact (hs.trans rfl) cur _
      · rw [if_neg he, if_neg he]
        rfl

/-- Settles O33: a mode has at most 16 rows, so that every row's command names its row. -/
theorem drawScreenByRows : Obligations.DrawScreenByRows := by
  intro cx cy on cw lines s m ha
  rw [exec_drawScreen]
  refine ⟨fun hmore => ?tooMany, fun hlines => ?rows⟩
  case tooMany =>
    refine body_error (e := .layoutError) ha ?_
    exact if_pos hmore
  case rows =>
    have hrows : ∀ r ∈ List.range m.charRows, r < 16 := fun r hr =>
      Nat.lt_of_lt_of_le (List.mem_range.1 hr) (mode_limits ha.inv.configLegal ha.mode).1
    rw [withMode_active ha, screenBody_eq hlines]
    exact (drawRows_eq_screenRows cx cy on cw lines hrows ha (.refl _) s.cur none).symm

end Sys2Proof.Machine
end

section
/-! SUPPORT. DRAW_CLOCK in an active mode (R240 to R254): the ranges of its fields, the pieces of its face over the
cleared FrameBuffer, and that it reads nothing of the FrameBuffer, the Cursor and the results before it (R264). -/

namespace Sys2Proof.Machine

theorem exec_drawClock (h mi sec : BitVec 8) (is12h on : Bool) (ah am : BitVec 8) (date : List Byte) (s : State) :
    exec (.drawClock h mi sec is12h on ah am date) s = withMode s (clockBody h mi sec is12h on ah am date) := rfl

/-! ## Field ranges (R240) -/

theorem timeLegal_iff (h mi : BitVec 8) : timeLegal h mi = true ↔ h.toNat ≤ 23 ∧ mi.toNat ≤ 59 := by
  simp [timeLegal]

theorem clockLegal_iff (h mi sec ah am : BitVec 8) :
    clockLegal h mi sec ah am = true ↔ ClockFieldsLegal h mi sec ah am := by
  simp only [clockLegal, Bool.and_eq_true, timeLegal_iff, decide_eq_true_eq, ClockFieldsLegal, and_assoc]

/-! ## Pieces that end a command -/

/-- Pieces that all fit are drawn on a working copy of which only the canvas has changed, and a command that ends with
them changes nothing but the FrameBuffer, the result registers and the Cursor's validity (R15, R42). -/
theorem drawPieces_endCommand {s u : State} {ps : List Piece} (hu : OnlyCanvas (beginCommand s) u)
    (hw : Memory.wf u.fb = true) (hi : s.init = true) (hh : HeightsLegal ps) (hf : ∀ p ∈ ps, p.fits s.hw) :
    ∃ t, drawPieces ps u = .ok t ∧ endCommand s (.ok t) = drawn s t.fb ∧ Shows u (drawn s t.fb) ps := by
  obtain ⟨t, ht⟩ := drawPieces_exists hw (hu.init_of hi) hh (by rwa [hu.hw_eq])
  obtain ⟨hut, -, hshows, -⟩ := drawPieces_ok hw ht
  have hst := hu.trans hut
  exact ⟨t, ht, endCommand_canvas hst, hshows.congr rfl rfl rfl rfl hst.hw_eq.symm hst.cfg_eq.symm⟩

/-! ## The checks of a clock face (R240, R250) -/

section
variable {h mi sec : BitVec 8} {is12h on : Bool} {ah am : BitVec 8} {date : List Byte} {m : DisplayMode} {s : State}

theorem clockBody_argumentOutOfRange (hl : ¬ ClockFieldsLegal h mi sec ah am) :
    clockBody h mi sec is12h on ah am date m s = .error .argumentOutOfRange := by
  rw [← clockLegal_iff, Bool.not_eq_true] at hl
  rw [clockBody, if_pos hl]

theorem clockBody_unsupported (hl : ClockFieldsLegal h mi sec ah am) (hk : m.clockKind = .none) :
    clockBody h mi sec is12h on ah am date m s = .error .unsupportedClockLayout := by
  rw [← clockLegal_iff] at hl
  rw [clockBody, if_neg (ne_false_of_eq_true hl), if_pos hk]

/-- A face that passes its checks is its pieces over the cleared FrameBuffer (R250, R251). -/
theorem clockBody_eq_pieces (hr : RomLegal s.cfg.rom) (hl : ClockFieldsLegal h mi sec ah am) (hk : m.clockKind ≠ .none) :
    clockBody h mi sec is12h on ah am date m s =
      drawPieces (clockPieces s m h.toNat mi.toNat is12h on ah.toNat am.toNat date) (clearFb s) := by
  rw [← clockLegal_iff] at hl
  rw [clockBody_eq hr, if_neg (ne_false_of_eq_true hl), if_neg hk]

end

/-- Settles O40: the face is its pieces over the cleared FrameBuffer, and the pieces are drawn because they fit. -/
theorem drawClockDraws : Obligations.DrawClockDraws := by
  intro h mi sec is12h on ah am date s m ha hl hk hf
  obtain ⟨t, ht, hend, hshows⟩ := drawPieces_endCommand (s := s) (clearFb_canvas (beginCommand s)) rfl ha.init
    (clockPieces_heights ha.rom m h.toNat mi.toNat is12h on ah.toNat am.toNat date) hf
  rw [exec_drawClock, withMode_active ha, clockBody_eq_pieces ha.rom hl hk, ht, hend]
  exact ⟨_, rfl, rfl, hshows.congr rfl rfl rfl rfl rfl rfl⟩

/-- Settles O41: the fields and the layout are checked before the screen is cleared, the visible rectangle when a piece
is drawn; the cleared working copy is then dropped. -/
theorem drawClockRejects : Obligations.DrawClockRejects := by
  intro h mi sec is12h on ah am date s m ha
  rw [exec_drawClock]
  refine ⟨fun hl => ?badField, fun hl hk => ?noLayout, fun hl hk ⟨p, hp, hfit⟩ => ?notVisible⟩
  case badField => exact body_error ha (clockBody_argumentOutOfRange hl)
  case noLayout => exact body_error ha (clockBody_unsupported hl hk)
  case notVisible =>
    refine body_error (e := .bufferOverrun) ha ?_
    rw [clockBody_eq_pieces ha.rom hl hk]
    exact drawPieces_error (s := clearFb (beginCommand s)) rfl ha.init
      (clockPieces_heights ha.rom m h.toNat mi.toNat is12h on ah.toNat am.toNat date) fun hall => hfit (hall p hp)

/-! ## What a clock face does not read (R251, R264) -/

/-- The same state with another FrameBuffer, Cursor and results. -/
def withCanvas (s : State) (fb : Memory) (cur : Cursor) (status : BitVec 8) (result : BitVec 32) (rdata : List Word) :
    State :=
  { s with fb := fb, cur := cur, status := status, result := result, rdata := rdata }

/-- A clock face starts with a clear and a position, after which no field that `withCanvas` replaces is left. -/
theorem clockBody_withCanvas (h mi sec : BitVec 8) (is12h on : Bool) (ah am : BitVec 8) (date : List Byte)
    (m : DisplayMode) (s : State) (fb : Memory) (cur : Cursor) (status : BitVec 8) (result : BitVec 32)
    (rdata : List Word) :
    clockBody h mi sec is12h on ah am date m (beginCommand (withCanvas s fb cur status result rdata)) =
      clockBody h mi sec is12h on ah am date m (beginCommand s) := rfl

/-- A drawing command that ends with STATUS 0x00 ran its body to its end in an active mode (R300, R305). -/
theorem withMode_succeeded {s t : State} {body : DisplayMode → State → Result State} (h : withMode s body = .next t)
    (hstatus : t.status = 0x00) :
    ∃ m u, s.init = true ∧ s.modeValid = true ∧ mode? s.cfg s.modeId = some m ∧ body m (beginCommand s) = .ok u ∧
      t = endCommand s (.ok u) := by
  obtain rfl | ⟨m, hi, hv, hm, rfl⟩ := withMode_next h
  · exact absurd hstatus (by simp [failed])
  · cases hb : body m (beginCommand s) with
    | error e =>
      rw [hb] at hstatus
      exact absurd hstatus (errorCode_ne_zero e)
    | ok u => exact ⟨m, u, hi, hv, hm, hb, rfl⟩

/-- In an active mode a command runs its body, whether or not the state keeps the invariants. -/
theorem withMode_of_mode {s : State} {m : DisplayMode} (hi : s.init = true) (hv : s.modeValid = true)
    (hm : mode? s.cfg s.modeId = some m) (body : DisplayMode → State → Result State) :
    withMode s body = .next (endCommand s (body m (beginCommand s))) := by
  unfold withMode
  rw [if_neg (by simp [hi, hv]), hm]

/-- Settles O42: the two runs have the same working copy after the first position that the face sets. -/
theorem clockForgetsScreen : Obligations.ClockForgetsScreen := by
  intro h mi sec is12h on ah am date s t fb cur status result rdata hx hstatus
  rw [exec_drawClock] at hx
  obtain ⟨m, u, hi, hv, hm, hbody, rfl⟩ := withMode_succeeded hx hstatus
  refine ⟨endCommand (withCanvas s fb cur status result rdata) (.ok u), ?_, hstatus, rfl⟩
  change exec _ (withCanvas s fb cur status result rdata) = _
  rw [exec_drawClock, withMode_of_mode (s := withCanvas s fb cur status result rdata) hi hv hm, clockBody_withCanvas,
    hbody]

end Sys2Proof.Machine
end

section
/-! SUPPORT. DRAW_SMALL_CLOCK in an active mode (R260, R261): its checks in order, then its text and what it erases,
then the format it notes. -/

namespace Sys2Proof.Machine

theorem exec_drawSmallClock (h mi : BitVec 8) (is12h : Bool) (s : State) :
    exec (.drawSmallClock h mi is12h) s = withMode s (smallClockBody h mi is12h) := rfl

section
variable {h mi : BitVec 8} {is12h : Bool} {m : DisplayMode} {s : State}

theorem smallClockBody_argumentOutOfRange (hout : 23 < h.toNat ∨ 59 < mi.toNat) :
    smallClockBody h mi is12h m s = .error .argumentOutOfRange := by
  have hl : timeLegal h mi = false := by
    rw [← Bool.not_eq_true, timeLegal_iff]
    omega
  rw [smallClockBody, if_pos hl]

theorem smallClockBody_unsupported (hh : h.toNat ≤ 23) (hmi : mi.toNat ≤ 59) (hm : m.smallClock = none) :
    smallClockBody h mi is12h m s = .error .unsupportedClockLayout := by
  have hl := (timeLegal_iff h mi).2 ⟨hh, hmi⟩
  rw [smallClockBody, if_neg (ne_false_of_eq_true hl), hm]

/-- A small clock that passes its checks is its pieces, with the format noted when they are drawn (R260, R261). -/
theorem smallClockBody_eq_pieces {pos : SmallClockPos} (hw : Memory.wf s.fb = true) (hr : RomLegal s.cfg.rom)
    (hh : h.toNat ≤ 23) (hmi : mi.toNat ≤ 59) (hm : m.smallClock = some pos) :
    smallClockBody h mi is12h m s =
      (drawPieces (smallClockPieces s m pos h.toNat mi.toNat is12h) s).bind fun t => .ok { t with small12 := is12h } := by
  have hl := (timeLegal_iff h mi).2 ⟨hh, hmi⟩
  rw [smallClockBody_eq hw hr, if_neg (ne_false_of_eq_true hl), hm]

end

/-- Settles O43: the pieces are drawn because they fit, and SMALL12 is written on the working copy they leave. -/
theorem drawSmallClockDraws : Obligations.DrawSmallClockDraws := by
  intro h mi is12h s m pos ha hh hmi hm hf
  obtain ⟨t, ht, hend, hshows⟩ := drawPieces_endCommand (OnlyCanvas.refl (beginCommand s)) ha.inv.fbCanonical ha.init
    (smallClockPieces_heights (beginCommand s) m pos h.toNat mi.toNat is12h) hf
  have hnoted : endCommand s (.ok { t with small12 := is12h }) = { drawn s t.fb with small12 := is12h } := by
    rw [← hend]
    rfl
  rw [exec_drawSmallClock, withMode_active ha,
    smallClockBody_eq_pieces (s := beginCommand s) ha.inv.fbCanonical ha.rom hh hmi hm, ht]
  exact ⟨_, congrArg Host.Outcome.next hnoted, rfl, hshows.congr rfl rfl rfl rfl rfl rfl⟩

/-- Settles O44: the time and the mode's small clock are checked first, the visible rectangle when a piece is drawn. -/
theorem drawSmallClockRejects : Obligations.DrawSmallClockRejects := by
  intro h mi is12h s m ha
  rw [exec_drawSmallClock]
  refine ⟨fun hout => ?badTime, fun hh hmi hm => ?noSmallClock, fun pos hh hmi hm ⟨p, hp, hfit⟩ => ?notVisible⟩
  case badTime => exact body_error ha (smallClockBody_argumentOutOfRange hout)
  case noSmallClock => exact body_error ha (smallClockBody_unsupported hh hmi hm)
  case notVisible =>
    refine body_error (e := .bufferOverrun) ha ?_
    rw [smallClockBody_eq_pieces (s := beginCommand s) ha.inv.fbCanonical ha.rom hh hmi hm,
      drawPieces_error (s := beginCommand s) ha.inv.fbCanonical ha.init
        (smallClockPieces_heights (beginCommand s) m pos h.toNat mi.toNat is12h) fun hall => hfit (hall p hp)]
    rfl

end Sys2Proof.Machine
end

section
/-! SUPPORT. The digits of the time (R241, R263) and SET_AMPM_LABELS (R262). -/

namespace Sys2Proof.Machine

theorem timeDigits_take_two (h mi : Nat) (is12h : Bool) :
    (timeDigits h mi is12h).take 2 = [hourTens h is12h, .digit (shownHour h is12h % 10)] := rfl

theorem timeDigits_drop_three (h mi : Nat) (is12h : Bool) :
    (timeDigits h mi is12h).drop 3 = [.digit (mi / 10), .digit (mi % 10)] := rfl

theorem exec_setAmpmLabels (am pm : List Byte) (s : State) :
    exec (.setAmpmLabels am pm) s =
      .next { drawn s s.fb with amLabel := labelOf s.cfg am, pmLabel := labelOf s.cfg pm } := rfl

/-- Settles O45: a label is the codes of the decoded string, without their display columns. -/
theorem setAmpmLabels : Obligations.SetAmpmLabels := by
  intro am pm s
  refine ⟨rfl, ?_⟩
  rw [exec_setAmpmLabels]
  rfl

end Sys2Proof.Machine

namespace Sys2Proof.Laws

open Sys2Proof.Machine

/-- Settles O39: the hour digits do not depend on the minutes, nor the minute digits on the hour and the format. -/
theorem timeDigits : Obligations.TimeDigits := by
  refine ⟨fun mi => ?hours, fun h is12h => ?minutes⟩
  case hours =>
    rw [timeDigits_take_two, timeDigits_take_two, timeDigits_take_two]
    decide
  case minutes =>
    rw [timeDigits_drop_three, timeDigits_drop_three]
    exact ⟨rfl, rfl⟩

end Sys2Proof.Laws
end

section
/-! SUPPORT. Lists whose members each give as many columns: where the columns of one member stand. -/

namespace Sys2Proof.Machine

/-- Of a list of slots that are all `w` wide, slot `k` is what `w` members from `k * w` on are. -/
theorem take_drop_flatMap {α β : Type} {f : α → List β} {w : Nat} {l : List α} (hf : ∀ x ∈ l, (f x).length = w)
    {k : Nat} (hk : k < l.length) : ((l.flatMap f).drop (k * w)).take w = f l[k] := by
  induction l generalizing k with
  | nil => exact absurd hk (Nat.not_lt_zero k)
  | cons x l ih =>
    obtain ⟨hx, hl⟩ := List.forall_mem_cons.1 hf
    rw [List.flatMap_cons]
    cases k with
    | zero => rw [Nat.zero_mul, List.drop_zero, List.take_left' hx, List.getElem_cons_zero]
    | succ k =>
      rw [Nat.succ_mul, Nat.add_comm, ← hx, List.drop_length_add_append, hx, List.getElem_cons_succ]
      exact ih hl (Nat.lt_of_succ_lt_succ hk)

theorem length_flatMap_of_length_eq {α β : Type} {f : α → List β} {w : Nat} {l : List α}
    (hf : ∀ x ∈ l, (f x).length = w) : (l.flatMap f).length = l.length * w := by
  rw [List.length_flatMap, List.map_congr_left hf, List.map_const', List.sum_replicate, smul_eq_mul]

/-- Two runs of one value with nothing of that value behind them are equal only when they are as long. -/
theorem replicate_append_inj {α : Type} {x : α} {a b : Nat} {r r' : List α} (hr : r.head? ≠ some x)
    (hr' : r'.head? ≠ some x) (h : List.replicate a x ++ r = List.replicate b x ++ r') : a = b ∧ r = r' := by
  induction a generalizing b with
  | zero =>
    cases b with
    | zero => exact ⟨rfl, h⟩
    | succ b => exact absurd (congrArg List.head? h) hr
  | succ a ih =>
    cases b with
    | zero => exact absurd (congrArg List.head? h.symm) hr'
    | succ b =>
      obtain ⟨hab, hrr⟩ := ih (List.cons.inj h).2
      exact ⟨congrArg Nat.succ hab, hrr⟩

end Sys2Proof.Machine
end

section
/-! SUPPORT. DRAW_BARCODE in an active mode (R272 to R275): what its checks make of the string, then the row that it
draws. -/

namespace Sys2Proof.Machine

/-! ## The string (R272, R273) -/

theorem code39Patterns_eq_none {b : Byte} {bytes : List Byte} (hb : b ∈ bytes) (h : code39? b = none) :
    code39Patterns bytes = none := by
  induction bytes with
  | nil => exact absurd hb List.not_mem_nil
  | cons a bytes ih =>
    rcases List.mem_cons.1 hb with rfl | hb
    · simp only [code39Patterns, h]
    · simp only [code39Patterns, ih hb]
      cases code39? a <;> rfl

/-- The last six characters are kept, or all of fewer; the excess ones before them must be `'0'`. -/
theorem barcodeData_eq {hex excess kept : List Byte} (h : untilNul hex = excess ++ kept)
    (hl : kept.length = barcodeMaxDigits ∨ (excess = [] ∧ kept.length ≤ barcodeMaxDigits)) :
    barcodeData hex =
      if excess.all (· == 0x30) = false then .error .barcodeTooLong
      else (code39Patterns kept).elim (.error .barcodeInvalidDigit) .ok := by
  have hlen : (excess ++ kept).length - barcodeMaxDigits = excess.length := by
    rw [List.length_append]
    rcases hl with hl | ⟨rfl, hl⟩
    · omega
    · rw [List.length_nil]; omega
  unfold barcodeData
  simp only [h, hlen, List.take_left, List.drop_left]
  cases code39Patterns kept <;> rfl

theorem barcodeData_tooLong {hex excess kept : List Byte} {b : Byte} (h : untilNul hex = excess ++ kept)
    (hl : kept.length = barcodeMaxDigits) (hb : b ∈ excess) (hne : b ≠ 0x30) :
    barcodeData hex = .error .barcodeTooLong := by
  rw [barcodeData_eq h (.inl hl), if_pos]
  exact List.all_eq_false.2 ⟨b, hb, by simpa using hne⟩

/-- `'0'` characters before the kept ones are not looked at any further. -/
theorem barcodeData_zeros {hex zeros kept : List Byte} (h : untilNul hex = zeros ++ kept)
    (hz : ∀ z ∈ zeros, z = 0x30)
    (hl : kept.length = barcodeMaxDigits ∨ (zeros = [] ∧ kept.length ≤ barcodeMaxDigits)) :
    barcodeData hex = (code39Patterns kept).elim (.error .barcodeInvalidDigit) .ok := by
  rw [barcodeData_eq h hl, if_neg]
  rw [Bool.not_eq_false, List.all_eq_true]
  exact fun z hm => beq_iff_eq.2 (hz z hm)

theorem untilNul_eq_self {bytes : List Byte} (h : ∀ b ∈ bytes, b ≠ 0) : untilNul bytes = bytes :=
  List.takeWhile_eq_self_iff.2 fun b hb => bne_iff_ne.2 (h b hb)

/-! ## The row (R272) -/

section
variable {m : DisplayMode} {row : Nat} {hex : List Byte} {s : State}

theorem barcodeRender_layoutError (hrow : m.charRows ≤ row) : barcodeRender m row hex s = .error .layoutError :=
  if_pos hrow

theorem barcodeRender_dataError {e : ErrorKind} (hrow : row < m.charRows) (he : barcodeData hex = .error e) :
    barcodeRender m row hex s = .error e := by
  rw [barcodeRender, if_neg (Nat.not_le.2 hrow), he]

theorem barcodeRender_tooWide {ps : List (BitVec 9)} (hw : Memory.wf s.fb = true) (hrow : row < m.charRows)
    (ht : BarcodeText hex ps) (hwide : wVis s.hw < barcodeWidth s.cfg ps.length) :
    barcodeRender m row hex s = .error .barcodeTooLong := by
  rw [barcodeRender_eq hw, if_neg (Nat.not_le.2 hrow), (barcodeData_ok_iff hex ps).2 ht]
  exact if_pos (by rwa [ht.columns_length])

/-- A barcode reads its string through its checks only. -/
theorem barcodeRender_congr {hex' : List Byte} (h : barcodeData hex = barcodeData hex') :
    barcodeRender m row hex s = barcodeRender m row hex' s := by
  unfold barcodeRender
  rw [h]

end

theorem barcodeWidth_pos {c : Config} (hc : configLegal c = true) (n : Nat) : 0 < barcodeWidth c n := by
  have hn : 1 ≤ c.barcodeNarrowPx := (configLegal_parts hc).barcode.1
  unfold barcodeWidth symbolWidth
  omega

theorem barcodePiece_heightLegal (c : Config) (hw : HardwareProfile) (m : DisplayMode) (row : Nat)
    (ps : List (BitVec 9)) : HeightsLegal [barcodePiece c hw m row ps] :=
  List.forall_mem_singleton.2 (fontH_legal m.fontKind)

/-- A barcode that is narrow enough fits when its row is visible, since it fills the visible width. -/
theorem barcodePiece_fits_iff {c : Config} (hc : configLegal c = true) {hw : HardwareProfile} {m : DisplayMode}
    {hex : List Byte} {ps : List (BitVec 9)} (ht : BarcodeText hex ps) (row : Nat)
    (hwide : barcodeWidth c ps.length ≤ wVis hw) :
    (barcodePiece c hw m row ps).fits hw ↔
      row * fontH m.fontKind + m.topRowOffsetPx + fontH m.fontKind ≤ hw.heightPx := by
  have hlen := ht.piece_length (m := m) row hwide
  have hpos := barcodeWidth_pos hc ps.length
  have hne : (barcodePiece c hw m row ps).cols ≠ [] := List.ne_nil_of_length_pos (by omega)
  rw [Piece.fits, or_iff_right hne, hlen]
  simp only [barcodePiece, Nat.zero_add, Nat.le_refl, true_and]

/-- Settles O35: the row is one piece, which fits because the row is visible. -/
theorem drawBarcodeDraws : Obligations.DrawBarcodeDraws := by
  intro row hex s m ps ha hrow ht hwide hvis
  refine ⟨ht.columns_length, ?_⟩
  rw [exec_drawBarcode]
  refine draw_active ha (barcodeRender_eq_piece (s := beginCommand s) ha.inv.fbCanonical hrow ht hwide)
    (barcodePiece_heightLegal _ _ _ _ _) (List.forall_mem_singleton.2 ?_)
  exact (barcodePiece_fits_iff ha.inv.configLegal ht _ hwide).2 hvis

/-- Settles O36: the row, the string and the width are checked before anything is drawn, the visible rectangle when the
piece is. -/
theorem drawBarcodeRejects : Obligations.DrawBarcodeRejects := by
  intro row hex s m ha
  rw [exec_drawBarcode]
  refine ⟨fun hrow => ?noRow, fun excess kept b hrow hs hl hb hne => ?excess,
    fun zeros kept b hrow hs hz hl hb hnone => ?noPattern, fun ps hrow ht hwide => ?tooWide,
    fun ps hrow ht hwide hvis => ?notVisible⟩
  case noRow => exact body_error (e := .layoutError) ha (barcodeRender_layoutError hrow)
  case excess =>
    exact body_error (e := .barcodeTooLong) ha (barcodeRender_dataError hrow (barcodeData_tooLong hs hl hb hne))
  case noPattern =>
    have hdata : barcodeData hex = .error .barcodeInvalidDigit := by
      rw [barcodeData_zeros hs hz hl, code39Patterns_eq_none hb hnone]
      rfl
    exact body_error (e := .barcodeInvalidDigit) ha (barcodeRender_dataError hrow hdata)
  case tooWide =>
    exact body_error (e := .barcodeTooLong) ha
      (barcodeRender_tooWide (s := beginCommand s) ha.inv.fbCanonical hrow ht hwide)
  case notVisible =>
    refine draw_error ha (barcodeRender_eq_piece (s := beginCommand s) ha.inv.fbCanonical hrow ht hwide)
      (barcodePiece_heightLegal _ _ _ _ _) ?_
    rw [List.forall_mem_singleton]
    exact fun hf => Nat.not_le.2 hvis ((barcodePiece_fits_iff ha.inv.configLegal ht _ hwide).1 hf)

/-- Settles O37: neither string has a NUL, and both keep the same six characters. -/
theorem leadingZeros : Obligations.LeadingZeros := by
  intro row zeros t s hz hlen hne
  have hall : ∀ b ∈ zeros ++ t, b ≠ 0 := by
    refine List.forall_mem_append.2 ⟨fun b hb => ?_, hne⟩
    rw [hz b hb]
    decide
  have hdata : barcodeData (zeros ++ t) = barcodeData t := by
    rw [barcodeData_zeros (untilNul_eq_self hall) hz (.inl hlen),
      barcodeData_zeros (hex := t) (zeros := []) (untilNul_eq_self hne) (List.forall_mem_nil _) (.inl hlen)]
  rw [exec_drawBarcode, exec_drawBarcode]
  simp only [barcodeRender_congr hdata]

end Sys2Proof.Machine
end

section
/-! SUPPORT. The columns of a barcode read back (R270, R271, R274): a symbol is a row of runs that alternate in value,
so its columns give the width of each element, and with it each bit of the pattern. -/

namespace Sys2Proof.Machine

/-! ## One symbol (R271) -/

/-- The value of the columns of element `e`: ink when `e` is even. -/
def elementValue (h e : Nat) : Column := if e % 2 = 0 then ones h else 0

/-- The elements of a symbol from element `e` on, `n` of them. -/
def symElements (c : Config) (h : Nat) (p : BitVec 9) (e n : Nat) : List Column :=
  (List.range' e n).flatMap (symElement c h p)

theorem symElement_eq_replicate (c : Config) (h : Nat) (p : BitVec 9) (e : Nat) :
    symElement c h p e =
      List.replicate (if p.getLsbD (8 - e) then c.barcodeWidePx else c.barcodeNarrowPx) (elementValue h e) := rfl

theorem sym_eq_symElements (c : Config) (h : Nat) (p : BitVec 9) : sym c h p = symElements c h p 0 9 := rfl

theorem symElements_succ (c : Config) (h : Nat) (p : BitVec 9) (e n : Nat) :
    symElements c h p e (n + 1) = symElement c h p e ++ symElements c h p (e + 1) n := rfl

/-- Wide and narrow elements differ (R8), so the width of an element is its bit. -/
theorem bit_eq_of_width_eq {c : Config} (hc : configLegal c = true) {a b : Bool}
    (h : (if a then c.barcodeWidePx else c.barcodeNarrowPx) = if b then c.barcodeWidePx else c.barcodeNarrowPx) :
    a = b := by
  have hne : c.barcodeNarrowPx ≠ c.barcodeWidePx := Nat.ne_of_lt (configLegal_parts hc).barcode.2
  cases a with
  | false =>
    cases b with
    | false => rfl
    | true => exact absurd h hne
  | true =>
    cases b with
    | false => exact absurd h hne.symm
    | true => rfl

theorem ones_ne_zero {h : Nat} (h1 : 1 ≤ h) (h32 : h ≤ 32) : ones h ≠ 0 := by
  have hlo : 2 ^ 1 ≤ 2 ^ h := Nat.pow_le_pow_right (by decide) h1
  have hhi : 2 ^ h ≤ 2 ^ 32 := Nat.pow_le_pow_right (by decide) h32
  intro h0
  have hnat := congrArg BitVec.toNat h0
  simp only [ones, BitVec.toNat_ofNat, BitVec.ofNat_eq_ofNat] at hnat
  omega

section
variable {c : Config} {h : Nat} (hc : configLegal c = true) (h1 : 1 ≤ h) (h32 : h ≤ 32)
include h1 h32

/-- Neighbouring elements differ in value. -/
theorem elementValue_succ_ne (e : Nat) : elementValue h (e + 1) ≠ elementValue h e := by
  have hne := ones_ne_zero h1 h32
  unfold elementValue
  rcases Nat.mod_two_eq_zero_or_one e with he | he
  · rw [if_neg (by omega), if_pos he]
    exact hne.symm
  · rw [if_pos (by omega), if_neg (by omega)]
    exact hne

include hc

/-- The elements after element `e` do not begin with its value. -/
theorem symElements_succ_head_ne (p : BitVec 9) (e n : Nat) :
    (symElements c h p (e + 1) n).head? ≠ some (elementValue h e) := by
  cases n with
  | zero => nofun
  | succ n =>
    obtain ⟨hn, hw⟩ := (configLegal_parts hc).barcode
    have hwidth : (if p.getLsbD (8 - (e + 1)) then c.barcodeWidePx else c.barcodeNarrowPx) ≠ 0 := by split <;> omega
    rw [symElements_succ, symElement_eq_replicate, List.head?_append, List.head?_replicate, if_neg hwidth,
      Option.some_or]
    exact fun heq => elementValue_succ_ne h1 h32 e (Option.some.inj heq)

/-- Elements with the same columns have the same bits. -/
theorem getLsbD_eq_of_symElements_eq {p q : BitVec 9} {e n : Nat} (heq : symElements c h p e n = symElements c h q e n)
    {i : Nat} (hei : e ≤ i) (hin : i < e + n) : p.getLsbD (8 - i) = q.getLsbD (8 - i) := by
  induction n generalizing e with
  | zero => omega
  | succ n ih =>
    rw [symElements_succ, symElements_succ, symElement_eq_replicate, symElement_eq_replicate] at heq
    obtain ⟨hwidth, htail⟩ := replicate_append_inj (symElements_succ_head_ne hc h1 h32 p e n)
      (symElements_succ_head_ne hc h1 h32 q e n) heq
    rcases Nat.eq_or_lt_of_le hei with rfl | hlt
    · exact bit_eq_of_width_eq hc hwidth
    · exact ih htail hlt (by omega)

theorem sym_injective {p q : BitVec 9} (heq : sym c h p = sym c h q) : p = q := by
  refine BitVec.eq_of_getLsbD_eq fun i hi => ?_
  have hbit := getLsbD_eq_of_symElements_eq (e := 0) (n := 9) hc h1 h32 heq (Nat.zero_le (8 - i)) (by omega)
  rwa [show 8 - (8 - i) = i by omega] at hbit

/-- The data symbols of a barcode, with the gaps behind them, give their patterns back one by one. -/
theorem symbols_injective {ps qs : List (BitVec 9)} (hp : ∀ p ∈ ps, wideCount p = 3) (hq : ∀ q ∈ qs, wideCount q = 3)
    (heq : (ps.flatMap fun p => sym c h p ++ [0]) = qs.flatMap fun p => sym c h p ++ [0]) : ps = qs := by
  induction ps generalizing qs with
  | nil =>
    cases qs with
    | nil => rfl
    | cons q qs => simp at heq
  | cons p ps ih =>
    cases qs with
    | nil => simp at heq
    | cons q qs =>
      obtain ⟨hp0, hps⟩ := List.forall_mem_cons.1 hp
      obtain ⟨hq0, hqs⟩ := List.forall_mem_cons.1 hq
      rw [List.flatMap_cons, List.flatMap_cons] at heq
      obtain ⟨hsym, hrest⟩ := List.append_inj heq (by
        rw [List.length_append, List.length_append, sym_length c h p hp0, sym_length c h q hq0])
      rw [sym_injective hc h1 h32 (List.append_cancel_right hsym), ih hps hqs hrest]

end

/-! ## The whole barcode (R272, R274) -/

theorem symbol_length {c : Config} {h : Nat} {p : BitVec 9} (hp : wideCount p = 3) :
    (sym c h p ++ [0]).length = symbolWidth c + 1 := by
  rw [List.length_append, sym_length c h p hp, List.length_singleton]

/-- Symbol `k` with its gap stands after START and the `k` symbols and gaps before it. -/
theorem take_drop_barcodeColumns (c : Config) (h : Nat) {ps : List (BitVec 9)} (hp : ∀ p ∈ ps, wideCount p = 3)
    {k : Nat} (hk : k < ps.length) :
    ((barcodeColumns c h ps).drop (symbolWidth c + k * (symbolWidth c + 1))).take (symbolWidth c + 1) =
      sym c h ps[k] ++ [0] := by
  have hlen := length_flatMap_of_length_eq fun p hm => symbol_length (c := c) (h := h) (hp p hm)
  have hstart : (sym c h code39StartStop).length = symbolWidth c := sym_length c h _ (by decide)
  have hle : (k + 1) * (symbolWidth c + 1) ≤ ps.length * (symbolWidth c + 1) := Nat.mul_le_mul_right _ hk
  rw [Nat.succ_mul] at hle
  rw [barcodeColumns, List.append_assoc, ← hstart, List.drop_length_add_append, hstart,
    List.drop_append_of_le_length (by omega), List.take_append_of_le_length (by rw [List.length_drop]; omega)]
  exact take_drop_flatMap (fun p hm => symbol_length (hp p hm)) hk

/-- Settles O38: the place of a symbol, and that START, STOP and the symbols' runs can be told apart. -/
theorem barcodeReadsBack : Obligations.BarcodeReadsBack := by
  intro c h hc h1 h32
  refine ⟨fun before after p bytes hb => ?place, fun bs bs' ps ps' hb hb' heq => ?patterns⟩
  case place =>
    have hwide := (code39Patterns_wide hb).2
    have hk : before.length < (before ++ p :: after).length := by simp
    rw [take_drop_barcodeColumns c h hwide hk, List.getElem_append_right (Nat.le_refl _)]
    simp only [Nat.sub_self, List.getElem_cons_zero]
    rfl
  case patterns =>
    refine symbols_injective hc h1 h32 (code39Patterns_wide hb).2 (code39Patterns_wide hb').2 ?_
    exact List.append_cancel_left (List.append_cancel_right heq)

/-- Settles O34: the table is read off entry by entry. -/
theorem code39Table : Obligations.Code39Table := by
  refine ⟨rfl, rfl, rfl, ?distinct, ?threeWide, ?lowercase⟩
  case distinct => decide
  case threeWide => decide
  case lowercase => decide

end Sys2Proof.Machine
end

section
/-! SUPPORT. DRAW_ICONS in an active mode (R276 to R279): its pieces, and which icon stands in which slot. -/

namespace Sys2Proof.Machine

theorem exec_drawIcons (mask : Word) (s : State) : exec (.drawIcons mask) s = withMode s (iconsBody mask) := rfl

section
variable {m : DisplayMode} {mask : Word} {s : State}

theorem iconsBody_layoutError (hk : m.iconKind = .none) : iconsBody mask m s = .error .layoutError := if_pos hk

theorem iconsBody_eq_pieces (hw : Memory.wf s.fb = true) (hk : m.iconKind ≠ .none) :
    iconsBody mask m s = drawPieces (iconPieces s.cfg s.hw m mask) s := by
  rw [iconsBody, if_neg hk, iconRender_eq hw]

end

/-- Settles O46: the icon row is its pieces, which are drawn because they fit. -/
theorem drawIconsDraws : Obligations.DrawIconsDraws := by
  intro mask s m ha hk hf
  rw [exec_drawIcons]
  exact draw_active ha (iconsBody_eq_pieces (s := beginCommand s) ha.inv.fbCanonical hk)
    (iconPieces_heights s.cfg s.hw m mask) hf

/-- Settles O48: the mode's icons are checked first, the visible rectangle when a piece is drawn. -/
theorem drawIconsRejects : Obligations.DrawIconsRejects := by
  intro mask s m ha
  rw [exec_drawIcons]
  refine ⟨fun hk => ?noIcons, fun hk ⟨p, hp, hfit⟩ => ?notVisible⟩
  case noIcons => exact body_error ha (iconsBody_layoutError hk)
  case notVisible =>
    exact draw_error ha (iconsBody_eq_pieces (s := beginCommand s) ha.inv.fbCanonical hk)
      (iconPieces_heights s.cfg s.hw m mask) fun hall => hfit (hall p hp)

/-! ## The slots (R277, R279) -/

/-- The icon that bit `b` of a bitmask shows: none when it is not set or not mapped. -/
def shownIcon (c : Config) (mask : Word) (b : Nat) : Option (BitVec 8) := if mask.getLsbD b then iconOf c b else none

theorem iconIds_eq_filterMap (c : Config) (mask : Word) :
    iconIds c mask = (List.range 32).filterMap (shownIcon c mask) := rfl

theorem isSome_shownIcon (c : Config) (mask : Word) (b : Nat) :
    (shownIcon c mask b).isSome = (mask.getLsbD b && (iconOf c b).isSome) := by
  unfold shownIcon
  cases mask.getLsbD b <;> rfl

theorem length_filterMap_shownIcon (c : Config) (mask : Word) (n : Nat) :
    ((List.range n).filterMap (shownIcon c mask)).length =
      ((List.range n).filter fun b => mask.getLsbD b && (iconOf c b).isSome).length := by
  rw [List.length_filterMap_eq_countP, List.countP_eq_length_filter]
  simp only [isSome_shownIcon]

/-- A shown icon's number in the strip is the count of shown icons of lower bits. -/
theorem getElem?_iconIds {c : Config} {mask : Word} {b : Nat} {id : BitVec 8} (hb : b < 32)
    (h : shownIcon c mask b = some id) :
    (iconIds c mask)[((List.range b).filterMap (shownIcon c mask)).length]? = some id := by
  obtain ⟨n, hn⟩ := Nat.exists_eq_add_of_lt hb
  rw [iconIds_eq_filterMap, hn, Nat.add_assoc, List.range_add, List.filterMap_append,
    List.getElem?_append_right (Nat.le_refl _), Nat.sub_self, List.range_succ_eq_map, List.map_cons, Nat.add_zero,
    List.filterMap_cons_some h, List.getElem?_cons_zero]

theorem iconColumns_length {rom : Rom} (hr : RomLegal rom) (kind : IconKind) (id : Option (BitVec 8)) :
    (iconColumns rom kind id).length = iconSize kind := by
  unfold iconColumns iconSize
  cases id with
  | none =>
    simp only []
    split
    · exact shapeOk_length hr.blank8
    · exact shapeOk_length hr.blank16
  | some id =>
    simp only []
    split
    · exact romIcon8_length hr id
    · exact romIcon16_length hr id

/-- Slot `slot` of the strip is its icon's columns, or the blank icon's. -/
theorem take_drop_stripPiece {c : Config} (hr : RomLegal c.rom) (m : DisplayMode) (mask : Word) {slot : Nat}
    (hs : slot < c.maxIcons) :
    ((stripPiece c m mask).cols.drop (slot * iconSize m.iconKind)).take (iconSize m.iconKind) =
      iconColumns c.rom m.iconKind (iconIds c mask)[slot]? := by
  have hk : slot < (List.range c.maxIcons).length := by rwa [List.length_range]
  rw [stripPiece, take_drop_flatMap (fun _ _ => iconColumns_length hr _ _) hk, List.getElem_range]

/-- Settles O47: every slot is as wide as an icon is high, and the icons of the shown bits fill the first ones. -/
theorem iconSlots : Obligations.IconSlots := by
  intro c m mask slot hc _ hs
  have hr := (configLegal_parts hc).rom
  intro size mapped below shown
  have hbelow : ∀ n, below n = ((List.range n).filterMap (shownIcon c mask)).length := fun n =>
    (length_filterMap_shownIcon c mask n).symm
  have hshown : shown = iconColumns c.rom m.iconKind (iconIds c mask)[slot]? := take_drop_stripPiece hr m mask hs
  refine ⟨?width, fun b id hb hbit hid hslot => ?icon, fun hpast => ?blank⟩
  case width =>
    rw [stripPiece, length_flatMap_of_length_eq fun _ _ => iconColumns_length hr _ _, List.length_range]
  case icon =>
    have hsome : shownIcon c mask b = some id := by rw [shownIcon, if_pos hbit, hid]
    rw [hshown, ← hslot, hbelow, getElem?_iconIds hb hsome]
    rfl
  case blank =>
    rw [hbelow, ← iconIds_eq_filterMap] at hpast
    rw [hshown, List.getElem?_eq_none hpast]
    rfl

end Sys2Proof.Machine
end

section
/-! SUPPORT. The configuration commands (R285 to R293): INIT, SELECT_MODE, SET_ZOOM and SET_CONTRAST, each as its checks
in order and the state that it leaves. -/

namespace Sys2Proof.Machine

/-! ## INIT (R286, R287) -/

/-- The host reads a cleared FrameBuffer as zeros (R35, R49). -/
theorem hostFrameBuffer_of_clear {s : State} (h : s.fb = []) : hostFrameBuffer s = List.replicate (fbLen s) 0x00 := by
  rw [hostFrameBuffer, h, funext Memory.read_nil, List.map_const', List.length_range]

theorem exec_init (id : BitVec 8) (s : State) :
    exec (.init id) s = .next (endCommand s (initBody id (beginCommand s))) := rfl

theorem initBody_alreadyInitialized {id : BitVec 8} {s : State} (hi : s.init = true) :
    initBody id s = .error .alreadyInitialized := if_pos hi

theorem initBody_unknownProfile {id : BitVec 8} {s : State} (hi : s.init = false) (hp : profile? s.cfg id = none) :
    initBody id s = .error .unknownProfile := by
  simp [initBody, hi, hp]

theorem initBody_profile {id : BitVec 8} {s : State} {p : HardwareProfile} (hi : s.init = false)
    (hp : profile? s.cfg id = some p) :
    initBody id s =
      .ok { s with init := true, hw := p, fb := [], modeValid := false, zoomed := false, small12 := false } := by
  simp [initBody, hi, hp]

/-- Settles O50: the core's state is checked first, then the table of profiles. -/
theorem initSelectsProfile : Obligations.InitSelectsProfile := by
  intro id s
  rw [exec_init]
  refine ⟨rfl, fun hi => ?_, fun hi hp => ?_, fun p hi hp => ?_⟩
  · rw [initBody_alreadyInitialized (s := beginCommand s) hi]
    rfl
  · rw [initBody_unknownProfile (s := beginCommand s) hi hp]
    rfl
  · rw [initBody_profile (s := beginCommand s) hi hp]
    exact ⟨_, rfl, rfl, hostFrameBuffer_of_clear rfl⟩

/-- Settles O16: only INIT writes the panel, and on an initialized core it fails. -/
theorem profileFixed : Obligations.ProfileFixed := by
  refine ⟨fun i s t hx hi => ?_, fun s rest hs => ⟨_, step_reset hs, rfl⟩⟩
  by_cases hinit : ∃ id, i = .init id
  · obtain ⟨id, rfl⟩ := hinit
    obtain ⟨-, halready, -⟩ := initSelectsProfile id s
    obtain rfl := Host.Outcome.next.inj ((halready hi).symm.trans hx)
    exact ⟨hi, rfl⟩
  · obtain ⟨hkept, hhw⟩ := (exec_frame hx).panel (not_exists.1 hinit)
    exact ⟨hkept.trans hi, hhw⟩

/-! ## SELECT_MODE (R288) -/

theorem exec_selectMode (id : BitVec 8) (s : State) : exec (.selectMode id) s = execSelectMode id s := rfl

theorem execSelectMode_notInitialized {id : BitVec 8} {s : State} (hi : s.init = false) :
    execSelectMode id s = .next (failed s 0x11) := if_pos hi

theorem execSelectMode_unknownMode {id : BitVec 8} {s : State} (hi : s.init = true) (hm : mode? s.cfg id = none) :
    execSelectMode id s = .next (failed s 0x07) := by
  rw [execSelectMode, if_neg (by simp [hi]), hm]
  rfl

theorem execSelectMode_mode {id : BitVec 8} {s : State} {m : DisplayMode} (hi : s.init = true)
    (hm : mode? s.cfg id = some m) :
    execSelectMode id s =
      .next { drawn s [] with modeValid := true, modeId := id, zoomed := false, small12 := false } := by
  rw [execSelectMode, if_neg (by simp [hi]), hm]
  rfl

/-- Settles O51: INIT is checked first, then the table of modes. -/
theorem selectMode : Obligations.SelectMode := by
  intro id s
  rw [exec_selectMode]
  refine ⟨rfl, execSelectMode_notInitialized, execSelectMode_unknownMode, fun m hi hm => ?_⟩
  exact ⟨_, execSelectMode_mode hi hm, rfl, hostFrameBuffer_of_clear rfl⟩

/-! ## SET_CONTRAST (R293) -/

theorem exec_setContrast (level : BitVec 8) (s : State) :
    exec (.setContrast level) s = .next (endCommand s (needInit s (contrastBody level))) := rfl

theorem contrastBody_argumentOutOfRange {level : BitVec 8} {s : State} (h : 100 < level.toNat) :
    contrastBody level s = .error .argumentOutOfRange := if_pos h

theorem contrastBody_level {level : BitVec 8} {s : State} (h : level.toNat ≤ 100) :
    contrastBody level s = .ok { s with contrast := BitVec.ofNat 7 level.toNat } := by
  rw [contrastBody, if_neg (Nat.not_lt.2 h), BitVec.ofNat_toNat]

/-- Settles O55: INIT is checked first, then the level. -/
theorem setContrast : Obligations.SetContrast := by
  intro level s
  rw [exec_setContrast]
  refine ⟨rfl, fun hi => ?_, fun hi hout => ?_, fun hi hlevel => ?_⟩
  · rw [needInit_of_not_init hi]
    rfl
  · rw [needInit_of_init hi, contrastBody_argumentOutOfRange hout]
    rfl
  · rw [needInit_of_init hi, contrastBody_level hlevel]
    rfl

/-! ## The geometry in RESULT (R290) -/

/-- The packed pair of rows and columns as one number: the columns stay below the rows' byte. -/
theorem geometryResult_eq {m : DisplayMode} (hr : m.charRows ≤ 16) (hc : m.charCols ≤ 255) :
    geometryResult m = BitVec.ofNat 32 (256 * m.charRows + m.charCols) := by
  apply BitVec.eq_of_toNat_eq
  have hor := Nat.shiftLeft_add_eq_or_of_lt (i := 8) (show m.charCols < 2 ^ 8 by omega) m.charRows
  rw [geometryResult, BitVec.toNat_or, BitVec.toNat_shiftLeft, BitVec.toNat_ofNat, BitVec.toNat_ofNat,
    BitVec.toNat_ofNat, Nat.mod_eq_of_lt (show m.charRows < 2 ^ 32 by omega),
    Nat.mod_eq_of_lt (show m.charCols < 2 ^ 32 by omega), Nat.shiftLeft_eq, Nat.mod_eq_of_lt (by omega),
    ← Nat.shiftLeft_eq, ← hor, Nat.shiftLeft_eq]
  omega

theorem geometryResult_of_mode {c : Config} (hc : configLegal c = true) {id : BitVec 8} {m : DisplayMode}
    (hm : mode? c id = some m) : geometryResult m = BitVec.ofNat 32 (256 * m.charRows + m.charCols) := by
  obtain ⟨hrows, hcols⟩ := mode_limits hc hm
  exact geometryResult_eq hrows hcols

/-- The two fields of the pair, and the rest of RESULT. -/
theorem geometry_fields {rows cols : Nat} (hr : rows ≤ 16) (hc : cols ≤ 255) :
    ((BitVec.ofNat 32 (256 * rows + cols)).extractLsb' 8 8).toNat = rows ∧
      ((BitVec.ofNat 32 (256 * rows + cols)).extractLsb' 0 8).toNat = cols ∧
      (BitVec.ofNat 32 (256 * rows + cols)).extractLsb' 16 16 = 0 := by
  have htop : (0 : BitVec 16).toNat = 0 := rfl
  refine ⟨?_, ?_, BitVec.eq_of_toNat_eq ?_⟩ <;>
    simp only [BitVec.extractLsb'_toNat, BitVec.toNat_ofNat, Nat.shiftRight_eq_div_pow, htop] <;>
    omega

/-! ## SET_ZOOM (R289 to R291) -/

theorem exec_setZoom (on : Bool) (s : State) : exec (.setZoom on) s = execSetZoom on s := rfl

theorem execSetZoom_notInitialized {on : Bool} {s : State} (h : s.init = false ∨ s.modeValid = false) :
    execSetZoom on s = .next (failed s 0x11) := if_pos (Bool.and_eq_false_iff.2 h)

theorem execSetZoom_on {s : State} {m : DisplayMode} (h : Active s m) : execSetZoom true s = zoomOn s m := by
  rw [execSetZoom, if_neg (by simp [h.init, h.modeValid]), h.mode]
  rfl

theorem execSetZoom_off {s : State} {m : DisplayMode} (h : Active s m) : execSetZoom false s = zoomOff s m := by
  rw [execSetZoom, if_neg (by simp [h.init, h.modeValid]), h.mode]
  rfl

section

variable {s : State} {m m' : DisplayMode}

theorem keepMode_eq (s : State) (m : DisplayMode) :
    keepMode s m = .next { drawn s s.fb with result := geometryResult m } := rfl

/-- Zoom does not nest, and a mode without a target has no zoom. -/
theorem zoomOn_keeps (h : s.zoomed = true ∨ m.zoomTarget = none) : zoomOn s m = keepMode s m := by
  have hnone : (if s.zoomed then none else m.zoomTarget) = none := by
    obtain hz | ht := h
    · rw [if_pos hz]
    · rw [ht, ite_self]
  rw [zoomOn, hnone]

theorem zoomOn_switches {target : BitVec 8} (hz : s.zoomed = false) (ht : m.zoomTarget = some target)
    (hm' : mode? s.cfg target = some m') :
    zoomOn s m = .next { drawn s [] with
      baseModeId := s.modeId, modeId := target, zoomed := true, small12 := false, result := geometryResult m' } := by
  have htarget : (if s.zoomed then none else m.zoomTarget) = some target := by rw [hz, ht]; rfl
  simp only [zoomOn, htarget, hm']
  rfl

theorem zoomOff_keeps (hz : s.zoomed = false) : zoomOff s m = keepMode s m := if_pos hz

theorem zoomOff_switches (hz : s.zoomed = true) (hm' : mode? s.cfg s.baseModeId = some m') :
    zoomOff s m = .next { drawn s [] with
      modeId := s.baseModeId, zoomed := false, small12 := false, result := geometryResult m' } := by
  rw [zoomOff, if_neg (by simp [hz]), hm']
  rfl

/-- The zoom target of an active mode is a mode of the table (R10). -/
theorem Active.exists_zoomTarget {target : BitVec 8} (h : Active s m) (ht : m.zoomTarget = some target) :
    ∃ m', mode? s.cfg target = some m' := (zoomTarget_defined h.inv.configLegal h.mode ht).2

/-- The base mode of a zoomed one is a mode of the table (R51). -/
theorem Active.exists_baseMode (h : Active s m) (hz : s.zoomed = true) : ∃ m', mode? s.cfg s.baseModeId = some m' := by
  obtain ⟨-, -, base, hbase, -⟩ := h.inv.zoom hz
  exact ⟨base, hbase⟩

/-- The geometry of a mode of the table, as RESULT holds it. -/
theorem Active.geometryResult_eq (h : Active s m) {id : BitVec 8} (hm : mode? s.cfg id = some m') :
    geometryResult m' = BitVec.ofNat 32 (256 * m'.charRows + m'.charCols) :=
  geometryResult_of_mode h.inv.configLegal hm

end

/-- Settles O52: `zoomOn` and `zoomOff` keep the mode or switch it, and the mode switched to is in the table. -/
theorem setZoom : Obligations.SetZoom := by
  intro on s
  rw [exec_setZoom]
  refine ⟨rfl, execSetZoom_notInitialized, fun m ha => ?_⟩
  refine ⟨?onKeeps, ?onSwitches, ?offSwitches, ?offKeeps⟩
  case onKeeps =>
    rintro rfl hkeep
    rw [execSetZoom_on ha, zoomOn_keeps hkeep, keepMode_eq, ha.geometryResult_eq ha.mode]
  case onSwitches =>
    rintro target rfl hz ht
    obtain ⟨m', hm'⟩ := ha.exists_zoomTarget ht
    rw [execSetZoom_on ha, zoomOn_switches hz ht hm', ha.geometryResult_eq hm']
    exact ⟨m', _, hm', rfl, rfl, hostFrameBuffer_of_clear rfl⟩
  case offSwitches =>
    rintro rfl hz
    obtain ⟨m', hm'⟩ := ha.exists_baseMode hz
    rw [execSetZoom_off ha, zoomOff_switches hz hm', ha.geometryResult_eq hm']
    exact ⟨m', _, hm', rfl, rfl, hostFrameBuffer_of_clear rfl⟩
  case offKeeps =>
    rintro rfl hz
    rw [execSetZoom_off ha, zoomOff_keeps hz, keepMode_eq, ha.geometryResult_eq ha.mode]

/-- SET_ZOOM in an active mode succeeds, and RESULT is the geometry of the mode active after it (R290). -/
theorem execSetZoom_succeeds {s : State} {m : DisplayMode} (ha : Active s m) (on : Bool) :
    ∃ t m', execSetZoom on s = .next t ∧ t.status = 0x00 ∧ mode? t.cfg t.modeId = some m' ∧
      t.result = geometryResult m' := by
  cases on with
  | true =>
    rw [execSetZoom_on ha]
    by_cases hkeep : s.zoomed = true ∨ m.zoomTarget = none
    · exact ⟨_, m, (zoomOn_keeps hkeep).trans (keepMode_eq s m), rfl, ha.mode, rfl⟩
    · obtain ⟨hz, hsome⟩ := not_or.1 hkeep
      obtain ⟨target, ht⟩ := Option.ne_none_iff_exists'.1 hsome
      obtain ⟨m', hm'⟩ := ha.exists_zoomTarget ht
      exact ⟨_, m', zoomOn_switches (Bool.eq_false_of_not_eq_true hz) ht hm', rfl, hm', rfl⟩
  | false =>
    rw [execSetZoom_off ha]
    cases hz : s.zoomed with
    | false => exact ⟨_, m, (zoomOff_keeps hz).trans (keepMode_eq s m), rfl, ha.mode, rfl⟩
    | true =>
      obtain ⟨m', hm'⟩ := ha.exists_baseMode hz
      exact ⟨_, m', zoomOff_switches hz hm', rfl, hm', rfl⟩

/-- Settles O53: the fields of the geometry of a mode within the limits of R10. -/
theorem zoomResult : Obligations.ZoomResult := by
  intro on s m ha
  rw [exec_setZoom]
  obtain ⟨t, m', hx, hstatus, hm', hresult⟩ := execSetZoom_succeeds ha on
  obtain ⟨hrows, hcols⟩ := mode_limits (setZoom_invariant ha.inv hx).configLegal hm'
  rw [geometryResult_eq hrows hcols] at hresult
  refine ⟨t, m', hx, hstatus, hm', ?_⟩
  rw [hresult]
  exact geometry_fields hrows hcols

/-- Settles O54: zooming in notes the base mode, and the state it leaves is active in the target. -/
theorem zoomRoundTrip : Obligations.ZoomRoundTrip := by
  intro s m target ha hz ht
  obtain ⟨m', hm'⟩ := ha.exists_zoomTarget ht
  have hin := (execSetZoom_on ha).trans (zoomOn_switches hz ht hm')
  have ha' : Active _ m' := ⟨setZoom_invariant ha.inv hin, ha.init, ha.modeValid, hm'⟩
  have hout := (execSetZoom_off ha').trans (zoomOff_switches (m' := m) rfl ha.mode)
  exact ⟨_, _, hin, hout, rfl, rfl, Memory.read_nil, ha.geometryResult_eq ha.mode⟩

end Sys2Proof.Machine
end

section
/-! SUPPORT. The bitmap commands (R294 to R297): GRAB_SCREEN_REGION and DRAW_BITMAP, each as its checks in order and what
it reads or paints; then the two round-trips between them. -/

namespace Sys2Proof.Machine

/-! ## Rectangles (R74) -/

theorem outsideVisible_eq_true {hw : HardwareProfile} {left top width height : Nat}
    (h : ¬ (left + width ≤ wVis hw ∧ top + height ≤ hw.heightPx)) : outsideVisible hw left top width height = true := by
  simp only [outsideVisible, Bool.or_eq_true, decide_eq_true_eq]
  omega

theorem outsideVisible_eq_false {hw : HardwareProfile} {left top width height : Nat} (hl : left + width ≤ wVis hw)
    (ht : top + height ≤ hw.heightPx) : outsideVisible hw left top width height = false := by
  simp only [outsideVisible, Bool.or_eq_false_iff, decide_eq_false_iff_not]
  omega

/-! ## GRAB_SCREEN_REGION (R295) -/

section

variable {left top width height : Word} {s : State}

theorem exec_grabScreenRegion (left top width height : Word) (s : State) :
    exec (.grabScreenRegion left top width height) s =
      .next (endCommand s (needInit s (grabBody left top width height))) := rfl

theorem grab_notInitialized (hi : s.init = false) :
    exec (.grabScreenRegion left top width height) s = .next (failed s 0x11) := by
  rw [exec_grabScreenRegion, needInit_of_not_init hi]
  rfl

theorem grab_empty (hi : s.init = true) (h0 : width = 0 ∨ height = 0) :
    exec (.grabScreenRegion left top width height) s =
      .next { drawn s s.fb with rdata := [left, top, width, height] } := by
  rw [exec_grabScreenRegion, needInit_of_init hi, grabBody, if_pos h0]
  rfl

theorem grab_outside (hi : s.init = true) (hw : width ≠ 0) (hh : height ≠ 0)
    (hout : ¬ (left.toNat + width.toNat ≤ wVis s.hw ∧ top.toNat + height.toNat ≤ s.hw.heightPx)) :
    exec (.grabScreenRegion left top width height) s = .next (failed s 0x06) := by
  rw [exec_grabScreenRegion, needInit_of_init hi, grabBody, if_neg (not_or.2 ⟨hw, hh⟩),
    if_pos (outsideVisible_eq_true (hw := (beginCommand s).hw) hout)]
  rfl

/-- The record that a grab answers, its top rounded down to a byte boundary and its height grown by as much. -/
theorem grab_visible (hi : s.init = true) (hw : width ≠ 0) (hh : height ≠ 0)
    (hl : left.toNat + width.toNat ≤ wVis s.hw) (ht : top.toNat + height.toNat ≤ s.hw.heightPx) :
    exec (.grabScreenRegion left top width height) s =
      .next { drawn s s.fb with
        rdata := [left, BitVec.ofNat 32 (grabTop top.toNat), width, BitVec.ofNat 32 (grabHeight top.toNat height.toNat)]
          ++ packBytes (grabBytes s left.toNat (grabTop top.toNat) width.toNat (grabHeight top.toNat height.toNat)) } := by
  have hin := outsideVisible_eq_false hl ht
  rw [exec_grabScreenRegion, needInit_of_init hi, grabBody, if_neg (not_or.2 ⟨hw, hh⟩), if_neg (by simp [hin])]
  rfl

end

/-- Settles O56: the checks in order, and the pixels of the grabbed record. -/
theorem grabScreenRegion : Obligations.GrabScreenRegion := by
  intro left top width height s
  refine ⟨rfl, grab_notInitialized, grab_empty, grab_outside, fun hi hw hh hl ht => ?_⟩
  exact ⟨_, grab_visible hi hw hh hl ht, grabBytes_length .., grabBytes_pixel s _ _ _ _⟩

/-! ## DRAW_BITMAP (R296) -/

section

variable {left top width height : Word} {bytes : List Byte} {s : State}

theorem exec_drawBitmap (left top width height : Word) (bytes : List Byte) (s : State) :
    exec (.drawBitmap left top width height bytes) s =
      .next (endCommand s (needInit s (bitmapBody left top width height bytes))) := rfl

theorem draw_notInitialized (hi : s.init = false) :
    exec (.drawBitmap left top width height bytes) s = .next (failed s 0x11) := by
  rw [exec_drawBitmap, needInit_of_not_init hi]
  rfl

theorem draw_empty (hi : s.init = true) (h0 : width = 0 ∨ height = 0) :
    exec (.drawBitmap left top width height bytes) s = .next (drawn s s.fb) := by
  rw [exec_drawBitmap, needInit_of_init hi, bitmapBody, if_pos h0]
  rfl

theorem draw_outside (hi : s.init = true) (hw : width ≠ 0) (hh : height ≠ 0)
    (hout : ¬ (left.toNat + width.toNat ≤ wVis s.hw ∧ top.toNat + height.toNat ≤ s.hw.heightPx)) :
    exec (.drawBitmap left top width height bytes) s = .next (failed s 0x06) := by
  rw [exec_drawBitmap, needInit_of_init hi, bitmapBody, if_neg (not_or.2 ⟨hw, hh⟩),
    if_pos (outsideVisible_eq_true (hw := (beginCommand s).hw) hout)]
  rfl

/-- What a body paints on its working copy, the command that it ends paints. -/
theorem Painted.drawn_of_canvas {t : State} {r : Nat → Nat → Prop} {v : Nat → Nat → Bool} (h : Painted (beginCommand s) t r v)
    (hc : OnlyCanvas (beginCommand s) t) : Painted s (drawn s t.fb) r v := by
  refine ⟨h.visible, fun c y hcy => ?_, h.outsideByte, h.outsideBit⟩
  rw [← h.inside c y hcy, pixRead, pixRead, hc.hw_eq, hc.cfg_eq]
  rfl

/-- A visible rectangle is drawn whole, each pixel from its bit of the record. -/
theorem draw_visible (hfb : Memory.wf s.fb = true) (hi : s.init = true) (hw : width ≠ 0) (hh : height ≠ 0)
    (hl : left.toNat + width.toNat ≤ wVis s.hw) (ht : top.toNat + height.toNat ≤ s.hw.heightPx) :
    ∃ fb, exec (.drawBitmap left top width height bytes) s = .next (drawn s fb) ∧ Memory.wf fb = true ∧
      Painted s (drawn s fb) (inRect left.toNat top.toNat width.toNat height.toNat)
        (fun c y => recordPixel height.toNat bytes (c - left.toNat) (y - top.toNat)) := by
  have hin := outsideVisible_eq_false hl ht
  have hc := bitmapColumns_canvas left.toNat top.toNat height.toNat bytes width.toNat 0 (beginCommand s)
  have hp := bitmapColumns_painted (left := left.toNat) (top := top.toNat) (h := height.toNat) (bytes := bytes)
    (n := width.toNat) (i := 0) (s := beginCommand s) hfb fun k j _ hk hj => by
      rw [visible_iff, beginCommand_hw]
      omega
  rw [exec_drawBitmap, needInit_of_init hi, bitmapBody, if_neg (not_or.2 ⟨hw, hh⟩), if_neg (by simp [hin]),
    endCommand_canvas hc]
  exact ⟨_, rfl, bitmapColumns_wf hfb, hp.drawn_of_canvas hc⟩

end

/-- Settles O57: the checks in order, and the painting of the rectangle. -/
theorem drawBitmap : Obligations.DrawBitmap := by
  intro left top width height bytes s hfb
  refine ⟨rfl, draw_notInitialized, draw_empty, draw_outside, fun hi hw hh hl ht => ?_⟩
  obtain ⟨fb, hx, -, hp⟩ := draw_visible (bytes := bytes) hfb hi hw hh hl ht
  exact ⟨_, hx, rfl, hp⟩

/-! ## A record drawn and grabbed again (R297) -/

section

variable {left top width height : Word} {bytes : List Byte} {s : State}

/-- A record whose top is on a byte boundary, whose pad bits are 0 and whose rectangle is visible is what a grab of its
rectangle answers once it is drawn. -/
theorem grab_draw (hfb : Memory.wf s.fb = true) (hi : s.init = true) (htop : top.toNat % 8 = 0)
    (hlen : bytes.length = bitmapBytes width height)
    (hpad : ∀ i r, i < width.toNat → height.toNat ≤ r → r < 8 * recordPitch height.toNat →
      recordPixel height.toNat bytes i r = false)
    (hl : left.toNat + width.toNat ≤ wVis s.hw) (ht : top.toNat + height.toNat ≤ s.hw.heightPx) :
    ∃ t u, exec (.drawBitmap left top width height bytes) s = .next t ∧ t.status = 0x00 ∧
      exec (.grabScreenRegion left top width height) t = .next u ∧ u.status = 0x00 ∧
      u.rdata = [left, top, width, height] ++ packBytes bytes := by
  by_cases h0 : width = 0 ∨ height = 0
  · have hnil : bytes = [] := by
      refine List.eq_nil_of_length_eq_zero (hlen.trans ?_)
      obtain rfl | rfl := h0
      · exact Nat.zero_mul _
      · exact Nat.mul_zero _
    exact ⟨_, _, draw_empty hi h0, rfl, grab_empty hi h0, rfl, by rw [hnil]; rfl⟩
  · obtain ⟨hw, hh⟩ := not_or.1 h0
    obtain ⟨fb, hx, -, hp⟩ := draw_visible (bytes := bytes) hfb hi hw hh hl ht
    have ht0 : grabTop top.toNat = top.toNat := by rw [grabTop, htop, Nat.sub_zero]
    have hh0 : grabHeight top.toNat height.toNat = height.toNat := by rw [grabHeight, ht0, Nat.add_sub_cancel_left]
    have hbytes : grabBytes (drawn s fb) left.toNat top.toNat width.toNat height.toNat = bytes := by
      refine bytes_ext (grabBytes_length ..) hlen fun i r hir hr => (grabBytes_pixel _ _ _ _ _ i r hir hr).trans ?_
      by_cases hrh : r < height.toNat
      · rw [hp.inside _ _ (by simp only [inRect]; omega)]
        simp [hrh]
      · rw [hpad i r hir (Nat.not_lt.1 hrh) hr]
        simp [hrh]
    have hg := grab_visible (s := drawn s fb) hi hw hh hl ht
    rw [ht0, hh0, hbytes, BitVec.ofNat_toNat, BitVec.ofNat_toNat, BitVec.setWidth_eq, BitVec.setWidth_eq] at hg
    exact ⟨_, _, hx, rfl, hg, rfl, rfl⟩

/-! ## A grab drawn back (R297) -/

/-- Painting every pixel of a region with the value it has leaves the FrameBuffer as it is. -/
theorem Painted.fb_eq {t : State} {r : Nat → Nat → Prop} {v : Nat → Nat → Bool} (h : Painted s t r v)
    (hs : Memory.wf s.fb = true) (ht : Memory.wf t.fb = true) (hw : t.hw = s.hw) (hc : t.cfg = s.cfg)
    (hv : ∀ c y, r c y → v c y = pixRead s c y) : t.fb = s.fb := by
  refine Memory.ext_read ht hs fun i => byte_ext fun b => ?_
  change bitAt t i b = bitAt s i b
  by_cases hr : ∃ c y, r c y ∧ pixIndex s.hw c y = i ∧ pixBit s.cfg.pixelBitOrder s.hw y = b
  · obtain ⟨c, y, hcy, rfl, rfl⟩ := hr
    have hpix := (h.inside c y hcy).trans (hv c y hcy)
    rwa [pixRead_eq_bitAt, pixRead_eq_bitAt, hw, hc] at hpix
  · exact h.outsideBit i b fun c y hcy hat => hr ⟨c, y, hcy, hat⟩

/-- Drawing the grabbed bytes of a visible rectangle where they were read leaves the FrameBuffer as it is. -/
theorem draw_grabBytes {t : State} (hfb : Memory.wf s.fb = true) (hi : s.init = true) (hw : width ≠ 0)
    (hh : height ≠ 0) (hl : left.toNat + width.toNat ≤ wVis s.hw) (ht : top.toNat + height.toNat ≤ s.hw.heightPx)
    (hx : exec (.drawBitmap left top width height
      (grabBytes s left.toNat top.toNat width.toNat height.toNat)) s = .next t) : t.fb = s.fb := by
  obtain ⟨fb, hx', hfb', hp⟩ := draw_visible
    (bytes := grabBytes s left.toNat top.toNat width.toNat height.toNat) hfb hi hw hh hl ht
  obtain rfl := Host.Outcome.next.inj (hx'.symm.trans hx)
  refine hp.fb_eq hfb hfb' rfl rfl fun c y hcy => ?_
  obtain ⟨hc, hc', hy, hy'⟩ := hcy
  have hrow : y - top.toNat < height.toNat := by omega
  have hpitch : height.toNat ≤ 8 * recordPitch height.toNat := by unfold recordPitch ceilDiv; omega
  refine (grabBytes_pixel s _ _ _ _ _ _ (by omega) (by omega)).trans ?_
  rw [decide_eq_true hrow, Bool.true_and, Nat.add_sub_cancel' hc, Nat.add_sub_cancel' hy]

/-- The bits past the height of a record's last byte are 0 (R295). -/
theorem recordPixel_grabBytes_pad {left t0 width h0 i r : Nat} (hi : i < width) (hr : h0 ≤ r)
    (hr' : r < 8 * recordPitch h0) : recordPixel h0 (grabBytes s left t0 width h0) i r = false := by
  refine (grabBytes_pixel s left t0 width h0 i r hi hr').trans ?_
  rw [decide_eq_false (Nat.not_lt.2 hr), Bool.false_and]

/-- The grabbed bytes of a rectangle whose top is on a byte boundary, drawn where they were read and grabbed again. -/
theorem grab_draw_grabBytes (hfb : Memory.wf s.fb = true) (hi : s.init = true) (hw : width ≠ 0) (hh : height ≠ 0)
    (htop : top.toNat % 8 = 0) (hl : left.toNat + width.toNat ≤ wVis s.hw)
    (ht : top.toNat + height.toNat ≤ s.hw.heightPx)
    (hbytes : bytes = grabBytes s left.toNat top.toNat width.toNat height.toNat) :
    ∃ t u, exec (.drawBitmap left top width height bytes) s = .next t ∧ t.status = 0x00 ∧ t.fb = s.fb ∧
      exec (.grabScreenRegion left top width height) t = .next u ∧ u.status = 0x00 ∧
      u.rdata = [left, top, width, height] ++ packBytes bytes := by
  subst hbytes
  obtain ⟨t, u, hx, hstatus, hg, hstatus', hrdata⟩ := grab_draw hfb hi htop (grabBytes_length ..)
    (fun _ _ => recordPixel_grabBytes_pad) hl ht
  exact ⟨t, u, hx, hstatus, draw_grabBytes hfb hi hw hh hl ht hx, hg, hstatus', hrdata⟩

/-- The words of a record are a legal payload of DRAW_BITMAP. -/
theorem decode_record (hlen : bytes.length = bitmapBytes width height) :
    decode (0x31000000 :: ([left, top, width, height] ++ packBytes bytes)) =
      .ok (.drawBitmap left top width height bytes) :=
  Laws.decodeEncode (.drawBitmap left top width height bytes) (decide_eq_true hlen)

/-- A grab of a non-empty rectangle succeeds on an initialized core and a visible rectangle only. -/
theorem grab_succeeded {t : State} (hw : width ≠ 0) (hh : height ≠ 0)
    (hx : exec (.grabScreenRegion left top width height) s = .next t) (hstatus : t.status = 0x00) :
    s.init = true ∧ left.toNat + width.toNat ≤ wVis s.hw ∧ top.toNat + height.toNat ≤ s.hw.heightPx := by
  by_cases hi : s.init = true
  · refine ⟨hi, by_contra fun hout => ?_⟩
    obtain rfl := Host.Outcome.next.inj ((grab_outside hi hw hh hout).symm.trans hx)
    exact absurd hstatus (by simp [failed])
  · obtain rfl := Host.Outcome.next.inj ((grab_notInitialized (Bool.eq_false_of_not_eq_true hi)).symm.trans hx)
    exact absurd hstatus (by simp [failed])

end

/-! ## The rounded rectangle of a grab (R295) -/

theorem grabTop_mod_eight (top : Nat) : grabTop top % 8 = 0 := by
  unfold grabTop
  omega

theorem grabTop_add_grabHeight (top height : Nat) : grabTop top + grabHeight top height = top + height := by
  unfold grabHeight grabTop
  omega

theorem le_grabHeight (top height : Nat) : height ≤ grabHeight top height := by
  unfold grabHeight grabTop
  omega

/-- A panel has at most 64 rows (R9), so the words of a record hold its rounded top and its grown height. -/
theorem exists_grab_words {hw : HardwareProfile} {top height : Nat} (hp : profileLegal hw = true)
    (ht : top + height ≤ hw.heightPx) :
    ∃ top' height' : Word, BitVec.ofNat 32 (grabTop top) = top' ∧ BitVec.ofNat 32 (grabHeight top height) = height' ∧
      grabTop top = top'.toNat ∧ grabHeight top height = height'.toNat := by
  have hsum := grabTop_add_grabHeight top height
  simp only [profileLegal, Bool.and_eq_true, decide_eq_true_eq] at hp
  refine ⟨_, _, rfl, rfl, ?_, ?_⟩
  · rw [BitVec.toNat_ofNat, Nat.mod_eq_of_lt (by omega)]
  · rw [BitVec.toNat_ofNat, Nat.mod_eq_of_lt (by omega)]

/-- Settles O58: a grabbed record is the grab of its own rectangle, whose top is on a byte boundary, and is drawn over
the pixels it was read from. -/
theorem screenshotRoundTrip : Obligations.ScreenshotRoundTrip := by
  refine ⟨fun left top width height s t hinv hw hh hx hstatus => ?_,
    fun left top width height bytes s hinv hi htop hlen hpad hl ht =>
      grab_draw hinv.fbCanonical hi htop hlen hpad hl ht⟩
  obtain ⟨hi, hl, ht⟩ := grab_succeeded hw hh hx hstatus
  obtain ⟨top', height', htop, hheight, htop', hheight'⟩ := exists_grab_words (hinv.panelLegal hi) ht
  have hmod := grabTop_mod_eight top.toNat
  have hsum := grabTop_add_grabHeight top.toNat height.toNat
  have hle := le_grabHeight top.toNat height.toNat
  have hg := grab_visible hi hw hh hl ht
  rw [htop, hheight] at hg
  rw [htop'] at hmod hsum hg
  rw [hheight'] at hsum hle hg
  have hh' : height' ≠ 0 := by
    rintro rfl
    exact hh (BitVec.eq_of_toNat_eq (Nat.le_zero.1 hle))
  obtain rfl := Host.Outcome.next.inj (hg.symm.trans hx)
  obtain ⟨u, v, hdraw, hu, hfb, hgrab, hv, hrdata⟩ := grab_draw_grabBytes (s := { drawn s s.fb with rdata := _ })
    hinv.fbCanonical hi hw hh' hmod hl (hsum.trans_le ht) rfl
  exact ⟨left, top', width, height', _, u, v, rfl, decode_record (grabBytes_length ..), hdraw, hu, hfb, hgrab, hv,
    hrdata⟩

end Sys2Proof.Machine
end

section
/-! SUPPORT. Errors (R300 to R305): the STATUS with which a command fails or succeeds, and the commands whose
requirement is not met. -/

namespace Sys2Proof.Machine

/-! ## STATUS (R300, R301) -/

/-- A failed command ends with a code that the table lists for it (R301). -/
theorem Fails.status_mem {i : Instr} {s t : State} (h : Fails i s t) : t.status ∈ statusCodes i := by
  obtain ⟨e, he, rfl⟩ := h
  cases hb : isBlitter i <;> exact he

/-- A failed command is its state before with its STATUS written (R300). -/
theorem Fails.eq {i : Instr} {s t : State} (h : Fails i s t) :
    t = if isBlitter i then failedKeepingCursor s t.status else failed s t.status := by
  obtain ⟨e, -, rfl⟩ := h
  cases isBlitter i <;> rfl

/-- Only DRAW_SCREEN keeps its working copy with a STATUS other than 0: that of a barcode line (R214). -/
theorem Succeeds.status {i : Instr} {s t : State} (h : Succeeds i s t) :
    t.status = 0x00 ∨
      (∃ cx cy on cw lines, i = .drawScreen cx cy on cw lines) ∧ (t.status = 0x03 ∨ t.status = 0x04) := by
  cases i with
  | drawScreen cx cy on cw lines =>
    obtain ⟨-, -, ht | ht | ht⟩ := h
    · exact .inl (congrArg State.status ht)
    · exact .inr ⟨⟨cx, cy, on, cw, lines, rfl⟩, .inl (congrArg State.status ht)⟩
    · exact .inr ⟨⟨cx, cy, on, cw, lines, rfl⟩, .inr (congrArg State.status ht)⟩
  | init _ => obtain ⟨p, rfl⟩ := h; exact .inl rfl
  | setZoom _ =>
    obtain ⟨-, -, r, rfl⟩ | ⟨r, base, id, zoomed, -, -, rfl⟩ := h
    · exact .inl rfl
    · exact .inl rfl
  | setAmpmLabels _ _ => obtain ⟨am, pm, rfl⟩ := h; exact .inl rfl
  | setPosition _ _ _ => obtain ⟨-, cur, rfl⟩ := h; exact .inl rfl
  | blitColumn _ | drawBlankColumns _ _ => obtain ⟨-, fb, cur, rfl⟩ := h; exact .inl rfl
  | grabScreenRegion _ _ _ _ => obtain ⟨-, words, rfl⟩ := h; exact .inl rfl
  | selectMode _ | setContrast _ | drawBitmap _ _ _ _ _ =>
    obtain ⟨-, ht⟩ := h
    exact .inl (congrArg State.status ht)
  | drawLine _ _ _ _ _ _ _ | drawBarcode _ _ | drawClock _ _ _ _ _ _ _ _ | drawSmallClock _ _ _ | drawIcons _
  | drawSignalStrength _ =>
    obtain ⟨-, -, ht⟩ := h
    exact .inl (congrArg State.status ht)

/-- Every command can succeed, as far as the table of codes says (R301). -/
theorem zero_mem_statusCodes (i : Instr) : (0x00 : BitVec 8) ∈ statusCodes i := by
  cases i <;> exact List.mem_cons_self

/-- Settles O13: a command fails and leaves the state of R300, or it succeeds, and then a STATUS other than 0 is that
of a barcode line of DRAW_SCREEN. -/
theorem errorChangesNothing : Obligations.ErrorChangesNothing := by
  intro i s t hx hstatus hscreen
  rcases exec_next hx with hf | hs
  · exact hf.eq
  · obtain hok | ⟨⟨cx, cy, on, cw, lines, hi⟩, hline⟩ := hs.status
    · exact absurd hok hstatus
    · obtain ⟨h3, h4⟩ := hscreen cx cy on cw lines hi
      exact (hline.elim h3 h4).elim

/-! ## Requirements (R305) -/

theorem withMode_notInitialized {s : State} (h : s.init = false ∨ s.modeValid = false)
    (body : DisplayMode → State → Result State) : withMode s body = .next (failed s 0x11) :=
  if_pos (Bool.and_eq_false_iff.2 h)

theorem endCommand_needInit_notInitialized {s : State} (h : s.init = false) (body : State → Result State) :
    endCommand s (needInit s body) = failed s 0x11 := by
  rw [needInit_of_not_init h]
  rfl

theorem endBlitter_needInit_notInitialized {s : State} (h : s.init = false) (body : State → Result State) :
    endBlitter s (needInit s body) = failedKeepingCursor s 0x11 := by
  rw [needInit_of_not_init h]
  rfl

/-- A command that needs an active mode needs INIT as well. -/
theorem exec_of_needsMode {i : Instr} {s : State} (hn : needsMode i = true)
    (h : s.init = false ∨ s.modeValid = false) : exec i s = .next (failed s 0x11) := by
  cases i with
  | setZoom _ => exact execSetZoom_notInitialized h
  | drawLine _ _ _ _ _ _ _ | drawScreen _ _ _ _ _ | drawBarcode _ _ | drawClock _ _ _ _ _ _ _ _
  | drawSmallClock _ _ _ | drawIcons _ | drawSignalStrength _ => exact withMode_notInitialized h _
  | _ => exact absurd hn Bool.false_ne_true

theorem not_isBlitter_of_needsMode {i : Instr} (hn : needsMode i = true) : isBlitter i = false := by
  cases i with
  | setPosition _ _ _ | blitColumn _ | drawBlankColumns _ _ => exact absurd hn Bool.false_ne_true
  | _ => rfl

/-- Every command that needs INIT fails without it, and only the blitter commands keep the Cursor. -/
theorem exec_of_needsInit {i : Instr} {s : State} (hn : needsInit i = true) (h : s.init = false) :
    exec i s = .next (if isBlitter i then failedKeepingCursor s 0x11 else failed s 0x11) := by
  cases i with
  | init _ | setAmpmLabels _ _ => exact absurd hn Bool.false_ne_true
  | selectMode _ => exact execSelectMode_notInitialized h
  | setContrast _ | grabScreenRegion _ _ _ _ | drawBitmap _ _ _ _ _ =>
    exact congrArg Host.Outcome.next (endCommand_needInit_notInitialized h _)
  | setPosition _ _ _ =>
    rw [exec_setPosition, setpos_notInitialized (s := beginCommand s) h]
    rfl
  | blitColumn _ | drawBlankColumns _ _ =>
    exact congrArg Host.Outcome.next (endBlitter_needInit_notInitialized h _)
  | _ => exact exec_of_needsMode rfl (.inl h)

/-- The first of at least one blank column finds no position (R133, R136). -/
theorem blankColumns_noPosition {n : Nat} {inverted : Bool} {s : State} (hn : 0 < n) (hv : s.cur.valid = false) :
    blankColumns n inverted s = .error .noPosition := by
  cases n with
  | zero => exact absurd hn (Nat.lt_irrefl 0)
  | succ k => rw [blankColumns, blit_noPosition hv]

/-- Settles O15: INIT and the active mode are checked before anything else, and the Cursor by the first blit. -/
theorem requirements : Obligations.Requirements := by
  intro i s
  refine ⟨fun hmissing => ?_, fun id hid hi => ?_, fun v hblit hi hv => ?_, fun n inverted hblank hn hi hv => ?_⟩
  · obtain ⟨hneeds, hi⟩ | ⟨hneeds, hm⟩ := hmissing
    · exact exec_of_needsInit hneeds hi
    · rw [not_isBlitter_of_needsMode hneeds]
      exact exec_of_needsMode hneeds (.inr hm)
  · rw [hid, exec_init, initBody_alreadyInitialized (s := beginCommand s) hi]
    rfl
  · rw [hblit, exec_blitColumn, needInit_of_init hi, endBlitter_blitAll_noPosition hv (List.cons_ne_nil v [])]
  · rw [hblank, exec_drawBlankColumns, needInit_of_init hi, blankColumns_noPosition (s := beginCommand s) hn hv]
    rfl

end Sys2Proof.Machine

namespace Sys2Proof.Laws

open Sys2Proof.Machine

/-- Settles O14: a failed command's code is one of its list, and a successful command's is 0 or that of a barcode line
of DRAW_SCREEN. -/
theorem statusCodes : Obligations.StatusCodes := by
  intro i s t hx
  rcases exec_next hx with hf | hs
  · exact hf.status_mem
  · obtain hok | ⟨⟨cx, cy, on, cw, lines, rfl⟩, hline⟩ := hs.status
    · exact hok ▸ zero_mem_statusCodes i
    · rcases hline with h3 | h4
      · simp [h3, Machine.statusCodes]
      · simp [h4, Machine.statusCodes]

end Sys2Proof.Laws
end

section
/-! The values after reset (R351). -/

namespace Sys2Proof.Machine

/-- The FrameBuffer has no bytes until INIT fixes its length (R34). -/
theorem hostFrameBuffer_of_uninitialized {s : State} (h : s.init = false) : hostFrameBuffer s = [] := by
  have hlen : fbLen s = 0 := by simp [fbLen, h]
  rw [hostFrameBuffer, hlen, List.range_zero, List.map_nil]

/-- R43: each label is the glyph codes of its decoded ASCII bytes, without their widths. -/
theorem resetState_labels (c : Config) :
    (resetState c).amLabel = (decodeText c.charMap asciiAm c.ampmCap none).map Prod.fst ∧
    (resetState c).pmLabel = (decodeText c.charMap asciiPm c.ampmCap none).map Prod.fst := ⟨rfl, rfl⟩

/-- Settles O9: the registers are set field by field; the FrameBuffer is empty because the core is not initialized. -/
theorem resetValues : Obligations.ResetValues := by
  refine ⟨fun c => ?_, rfl⟩
  have ⟨ham, hpm⟩ := resetState_labels c
  have hfb : hostFrameBuffer (resetState c) = [] := hostFrameBuffer_of_uninitialized rfl
  exact ⟨rfl, hfb, rfl, rfl, rfl, ham, hpm, rfl, rfl, rfl, rfl, rfl⟩

end Sys2Proof.Machine
end
